-- ==== Sys2Proof/Word.lean ====
section
/-! DEFINITION. The word types of the T1DEC core (spec/00_scope.md R7: bit 0 is the least significant bit). -/

namespace Sys2Proof

/-- One byte of segment memory (R40). -/
abbrev Byte := BitVec 8

/-- One 16-bit command word (R80). -/
abbrev CmdWord := BitVec 16

/-- The width of the MQD registers `A` and `C`: `AW = CW = 32` (R6, R21, R22). -/
abbrev Reg32 := BitVec 32

/-- One cell of the context map: `CTXW = 6` bits, two's complement (R6, R36). -/
abbrev CtxCell := BitVec 6

end Sys2Proof
end

