-- ==== Sys2Proof/Syntax.lean ====
section
/-! DEFINITION. The thirteen commands of the core (spec/30_encoding.md R85), one constructor for each row of
spec/opcode_table.json, and the pseudo-instructions of R90. -/

namespace Sys2Proof

/-- A command. The operand of the four commands that have one is the zero-extended value of `OPD` (R82,
R83); the other nine ignore `OPD` (R84) and carry none. -/
inductive Instr where
  /-- `MQ.RESET` (R102). -/
  | mqReset
  /-- `MQ.ATTACH s`: `slot` is the index into `SEGTAB` (R83, R103). -/
  | mqAttach (slot : Nat)
  /-- `MQ.RESTART` (R105). -/
  | mqRestart
  /-- `MQ.DECODE cx`: `cx` is the MQ context index (R82, R107). -/
  | mqDecode (cx : Nat)
  /-- `MQ.DECODEU` (R108). -/
  | mqDecodeu
  /-- `RAW.RESET` (R131). -/
  | rawReset
  /-- `RAW.ATTACH s` (R83, R132). -/
  | rawAttach (slot : Nat)
  /-- `RAW.RESTART` (R133). -/
  | rawRestart
  /-- `RAW.DECODE cx`: `cx` is accepted and not used (R82, R134). -/
  | rawDecode (cx : Nat)
  /-- `RAW.DECODEU` (R135). -/
  | rawDecodeu
  /-- `CB.ATTACH` (R153). -/
  | cbAttach
  /-- `CB.STEP` (R156). -/
  | cbStep
  /-- `CB.RUN` (R159). -/
  | cbRun
deriving DecidableEq, Repr

/-- The pseudo-instructions of R90. -/
inductive Pseudo where
  /-- `MQ.OPEN s`. -/
  | mqOpen (slot : Nat)
  /-- `RAW.OPEN s`. -/
  | rawOpen (slot : Nat)
  /-- `CB.DECODE`. -/
  | cbDecode
deriving DecidableEq, Repr

/-- The expansion of a pseudo-instruction: both commands are issued, each judged on its own (R90). -/
def Pseudo.expand : Pseudo → List Instr
  | .mqOpen slot => [.mqAttach slot, .mqRestart]
  | .rawOpen slot => [.rawAttach slot, .rawRestart]
  | .cbDecode => [.cbAttach, .cbRun]

end Sys2Proof
end

