-- ==== Sys2Proof/WellFormed.lean ====
section
/-! DEFINITION. Which terms of `Instr` a command word can hold (spec/30_encoding.md R82, R83). -/

namespace Sys2Proof

/-- An operand is an unsigned 8-bit value (R82, R83). -/
abbrev operandFits (n : Nat) : Prop := n < 256

/-- The commands that a 16-bit command word can express: the one check is that an operand fits `OPD`. An
operand that fits and is not legal for its command (a context above 18, an unusable slot) is well-formed:
such a command runs and is refused by the hardware (R213, R215). -/
def Instr.WellFormed : Instr → Bool
  | .mqReset => true
  | .mqAttach slot => decide (operandFits slot)
  | .mqRestart => true
  | .mqDecode cx => decide (operandFits cx)
  | .mqDecodeu => true
  | .rawReset => true
  | .rawAttach slot => decide (operandFits slot)
  | .rawRestart => true
  | .rawDecode cx => decide (operandFits cx)
  | .rawDecodeu => true
  | .cbAttach => true
  | .cbStep => true
  | .cbRun => true

end Sys2Proof
end

