-- ==== Sys2Proof/Decode.lean ====
section
/-! DEFINITION. The command decoder and the encoder (spec/30_encoding.md R80, R85, R86). -/

namespace Sys2Proof

/-- Why a command word selects no command: its opcode is not in the table of R85 (R86). -/
inductive DecodeError where
  /-- The opcode `W[15:8]` is illegal; the core refuses the command with `ERR_OPC` (R212). -/
  | illegalOpcode (opc : BitVec 8)
deriving DecidableEq, Repr

/-- `OPC = W[15:8] = {UNIT, FUNC}` (R80). -/
def opcodeOf (w : CmdWord) : BitVec 8 := w.extractLsb' 8 8

/-- `OPD = W[7:0]`, zero-extended (R80, R82, R83). -/
def operandOf (w : CmdWord) : Nat := (w.extractLsb' 0 8).toNat

/-- The command that opcode `opc` selects, with operand `n` where it has one (R85); `none` for the illegal
opcodes of R86. -/
def instrOf (opc : BitVec 8) (n : Nat) : Option Instr :=
  match opc with
  | 0x01#8 => some .mqReset
  | 0x02#8 => some (.mqAttach n)
  | 0x03#8 => some .mqRestart
  | 0x04#8 => some (.mqDecode n)
  | 0x05#8 => some .mqDecodeu
  | 0x11#8 => some .rawReset
  | 0x12#8 => some (.rawAttach n)
  | 0x13#8 => some .rawRestart
  | 0x14#8 => some (.rawDecode n)
  | 0x15#8 => some .rawDecodeu
  | 0x20#8 => some .cbAttach
  | 0x21#8 => some .cbStep
  | 0x22#8 => some .cbRun
  | _ => none

/-- The decoder: total on 16-bit words, `OPC` alone selects the command (R80, R86, R88). -/
def decode (w : CmdWord) : Except DecodeError Instr :=
  match instrOf (opcodeOf w) (operandOf w) with
  | some i => .ok i
  | none => .error (.illegalOpcode (opcodeOf w))

/-- The opcode of a command (R85). -/
def Instr.opcode : Instr → BitVec 8
  | .mqReset => 0x01
  | .mqAttach _ => 0x02
  | .mqRestart => 0x03
  | .mqDecode _ => 0x04
  | .mqDecodeu => 0x05
  | .rawReset => 0x11
  | .rawAttach _ => 0x12
  | .rawRestart => 0x13
  | .rawDecode _ => 0x14
  | .rawDecodeu => 0x15
  | .cbAttach => 0x20
  | .cbStep => 0x21
  | .cbRun => 0x22

/-- The operand an encoder puts into `OPD`: 0 where the command ignores it ("Assemblers emit 0", R84). -/
def Instr.operand : Instr → Nat
  | .mqAttach slot => slot
  | .mqDecode cx => cx
  | .rawAttach slot => slot
  | .rawDecode cx => cx
  | .mqReset | .mqRestart | .mqDecodeu | .rawReset | .rawRestart | .rawDecodeu => 0
  | .cbAttach | .cbStep | .cbRun => 0

/-- The command word `{OPC, OPD}` of a command (R80). -/
def encode (i : Instr) : CmdWord := i.opcode ++ BitVec.ofNat 8 i.operand

/-- The host's reading of one opcode-table row: the 16-bit word whose bits are `w` below `nbits`, given to the
decoder. A command is one word (R88), so there is no byte order and nothing above bit 15. -/
def decodeTableWord (nbits w : Nat) : Option Instr :=
  match decode (BitVec.ofNat 16 (w % 2 ^ nbits)) with
  | .ok i => some i
  | .error _ => none

end Sys2Proof
end

