-- ==== Sys2Proof/Config.lean ====
section
/-! DEFINITION. What one implementation of the core fixes: the OPEN parameters of spec/00_scope.md R6, and
the one free value of the model. The fixed tables of R44 stand in Machine/Tables.lean. -/

namespace Sys2Proof

/-- The OPEN parameters of R6 (92_eei_decisions.md, "Open parameters"; D6). The machine carries them in
`State.cfg`, which no step writes, so that a statement about every state is a statement about every
parameter choice (log entry 1). -/
structure Params where
  /-- `MAXW`: the largest code-block width, 1..65535. -/
  maxw : Nat
  /-- `MAXH`: the largest code-block height, 1..65535. -/
  maxh : Nat
  /-- `MAGW`: bits of a coefficient magnitude, 1..128. -/
  magw : Nat
  /-- `NSLOT`: entries of the segment table, 1..256. -/
  nslot : Nat
  /-- `SEGSIZE`: bytes of segment memory, at least 0. -/
  segsize : Nat
deriving DecidableEq, Repr

/-- The ranges R6 gives the OPEN parameters. -/
abbrev Params.Legal (p : Params) : Prop :=
  (1 ≤ p.maxw ∧ p.maxw ≤ 65535) ∧ (1 ≤ p.maxh ∧ p.maxh ≤ 65535) ∧
    (1 ≤ p.magw ∧ p.magw ≤ 128) ∧ (1 ≤ p.nslot ∧ p.nslot ≤ 256)

/-- The suggested values of R6: 64, 64, 31, 256, 65536. -/
def Params.suggested : Params :=
  { maxw := 64, maxh := 64, magw := 31, nslot := 256, segsize := 65536 }

/-- One row of the probability table: the four columns of R101. -/
structure MqRow where
  /-- `Qe`: the probability estimate, 16 bits unsigned. -/
  qe : BitVec 16
  /-- `NMPS`: the next state index on an MPS event. -/
  nmps : BitVec 6
  /-- `NLPS`: the next state index on an LPS event. -/
  nlps : BitVec 6
  /-- `SWITCH`: whether an LPS event flips the most probable symbol. -/
  switch : Bool
deriving DecidableEq, Repr, Inhabited

/-- FREE VALUE (log entry 2). The table of R101 has 47 rows and R27 says that the indices 47..63 are never
produced; what the row of such an index would hold is not stated, so nothing can be proved of it. -/
opaque Config.freeRow : BitVec 6 → MqRow

end Sys2Proof
end

