-- ==== Sys2Proof/Machine/Tables.lean ====
section
/-! DEFINITION. The fixed tables of the core (spec/10_state.md R44): the probability table (R101), the startup
context states (R102), the sign-context table (R175) and the neighbour-update tables (R182 to R185). -/

namespace Sys2Proof.Machine

/-- One entry of the MQD context file: `(I[cx], MPS[cx])` (R27). -/
structure CtxEntry where
  /-- `I[cx]`: probability state index, 6 bits, legal values 0..46. -/
  idx : BitVec 6
  /-- `MPS[cx]`: the most probable symbol, 1 bit. -/
  mps : Bool
deriving DecidableEq, Repr

/-- The startup states of the context file (R45, R102): context 0 in state 4, context 9 in state 3, context 18
in state 46, the others in state 0, every most probable symbol 0. -/
def startupContexts : Vector CtxEntry 19 :=
  (((Vector.replicate 19 { idx := 0, mps := false }).set 0 { idx := 4, mps := false }).set 9
    { idx := 3, mps := false }).set 18 { idx := 46, mps := false }

/-- `MQTAB`, rows 0 to 23 (R101): `Qe`, `NMPS`, `NLPS`, `SWITCH`. -/
def mqTabLow : List MqRow := [
    ⟨0x5601, 1, 1, true⟩, ⟨0x3401, 2, 6, false⟩, ⟨0x1801, 3, 9, false⟩, ⟨0x0AC1, 4, 12, false⟩,
    ⟨0x0521, 5, 29, false⟩, ⟨0x0221, 38, 33, false⟩, ⟨0x5601, 7, 6, true⟩, ⟨0x5401, 8, 14, false⟩,
    ⟨0x4801, 9, 14, false⟩, ⟨0x3801, 10, 14, false⟩, ⟨0x3001, 11, 17, false⟩,
    ⟨0x2401, 12, 18, false⟩, ⟨0x1C01, 13, 20, false⟩, ⟨0x1601, 29, 21, false⟩,
    ⟨0x5601, 15, 14, true⟩, ⟨0x5401, 16, 14, false⟩, ⟨0x5101, 17, 15, false⟩,
    ⟨0x4801, 18, 16, false⟩, ⟨0x3801, 19, 17, false⟩, ⟨0x3401, 20, 18, false⟩,
    ⟨0x3001, 21, 19, false⟩, ⟨0x2801, 22, 19, false⟩, ⟨0x2401, 23, 20, false⟩,
    ⟨0x2201, 24, 21, false⟩]

/-- `MQTAB`, rows 24 to 46 (R101). -/
def mqTabHigh : List MqRow := [
    ⟨0x1C01, 25, 22, false⟩, ⟨0x1801, 26, 23, false⟩, ⟨0x1601, 27, 24, false⟩,
    ⟨0x1401, 28, 25, false⟩, ⟨0x1201, 29, 26, false⟩, ⟨0x1101, 30, 27, false⟩,
    ⟨0x0AC1, 31, 28, false⟩, ⟨0x09C1, 32, 29, false⟩, ⟨0x08A1, 33, 30, false⟩,
    ⟨0x0521, 34, 31, false⟩, ⟨0x0441, 35, 32, false⟩, ⟨0x02A1, 36, 33, false⟩,
    ⟨0x0221, 37, 34, false⟩, ⟨0x0141, 38, 35, false⟩, ⟨0x0111, 39, 36, false⟩,
    ⟨0x0085, 40, 37, false⟩, ⟨0x0049, 41, 38, false⟩, ⟨0x0025, 42, 39, false⟩,
    ⟨0x0015, 43, 40, false⟩, ⟨0x0009, 44, 41, false⟩, ⟨0x0005, 45, 42, false⟩,
    ⟨0x0001, 45, 43, false⟩, ⟨0x5601, 46, 46, false⟩]

/-- `MQTAB`, the 47 rows of R101. -/
def mqTab : List MqRow := mqTabLow ++ mqTabHigh

/-- The row of a probability state index. The indices 47..63 have none (R27): a free value (log entry 2). -/
def mqRow (idx : BitVec 6) : MqRow :=
  match mqTab[idx.toNat]? with
  | some row => row
  | none => Config.freeRow idx

/-- `SIGNCTX(h, v)` (R175): with `n = 3h + v`, `10 + n` for `n ≥ 0` and `-(10 - n)` for `n < 0`. -/
def signCtx (h v : Int) : Int :=
  if 0 ≤ 3 * h + v then 10 + (3 * h + v) else -(10 - (3 * h + v))

/-- The three table groups of R185. -/
inductive Group where
  /-- Group 0: `LL` and `LH`. -/
  | g0
  /-- Group 1: `HL`. -/
  | g1
  /-- Group 2: `HH`. -/
  | g2
deriving DecidableEq, Repr

/-- The eight directions of a neighbour, in the order of R178. -/
inductive Dir where
  | left
  | right
  | up
  | down
  | upLeft
  | upRight
  | downLeft
  | downRight
deriving DecidableEq, Repr

/-- The direction classes of R179. -/
inductive DirClass where
  /-- Left and right. -/
  | horizontal
  /-- Up and down. -/
  | vertical
  /-- The four diagonals. -/
  | diagonal
deriving DecidableEq, Repr

/-- The eight directions in the order R178 iterates over them. -/
def allDirs : List Dir := [.left, .right, .up, .down, .upLeft, .upRight, .downLeft, .downRight]

/-- Column `dx` of the table of R179. -/
def Dir.dx : Dir → Int
  | .left | .upLeft | .downLeft => -1
  | .right | .upRight | .downRight => 1
  | .up | .down => 0

/-- Column `dy` of the table of R179. -/
def Dir.dy : Dir → Int
  | .up | .upLeft | .upRight => -1
  | .down | .downLeft | .downRight => 1
  | .left | .right => 0

/-- Column `Class(d)` of the table of R179. -/
def Dir.cls : Dir → DirClass
  | .left | .right => .horizontal
  | .up | .down => .vertical
  | .upLeft | .upRight | .downLeft | .downRight => .diagonal

/-- The rows of `NEXT` (R182 to R184): the new magnitude for each old magnitude 0..8. The rows of one class are
alike within a group, and group 1 is group 0 with the horizontal and vertical rows exchanged. -/
def nextRow : Group → DirClass → List Nat
  | .g0, .horizontal => [5, 6, 6, 7, 7, 8, 8, 8, 8]
  | .g0, .vertical => [3, 3, 3, 4, 4, 7, 7, 7, 8]
  | .g0, .diagonal => [1, 2, 2, 3, 4, 6, 6, 7, 8]
  | .g1, .horizontal => [3, 3, 3, 4, 4, 7, 7, 7, 8]
  | .g1, .vertical => [5, 6, 6, 7, 7, 8, 8, 8, 8]
  | .g1, .diagonal => [1, 2, 2, 3, 4, 6, 6, 7, 8]
  | .g2, .horizontal => [1, 2, 2, 4, 5, 5, 7, 7, 8]
  | .g2, .vertical => [1, 2, 2, 4, 5, 5, 7, 7, 8]
  | .g2, .diagonal => [3, 4, 5, 6, 7, 7, 8, 8, 8]

/-- `NEXT[g][k][old]` (R182 to R184, R191). It is looked up for `old ≤ 8` only (R178). -/
def nextMag (g : Group) (k : DirClass) (old : Nat) : Nat := (nextRow g k).getD old old

end Sys2Proof.Machine
end

