-- ==== Sys2Proof/Machine/State.lean ====
section
/-! DEFINITION. All the state of one T1DEC core (spec/10_state.md R20), the reasons a step can stop, and the
state after hardware reset (R45). INVENTORY.md lists every field with its rule and its reset value. -/

namespace Sys2Proof.Machine

/-- Subband class, `DESC_SB` and `LSB`: `0 = LL, 1 = HL, 2 = LH, 3 = HH` (R32, R92). -/
inductive Subband where
  | ll
  | hl
  | lh
  | hh
deriving DecidableEq, Repr

/-- Pass kind, `CB_PK`: the pass ordinal 0, 1, 2; the code 3 is never produced (R34, R93). -/
inductive PassKind where
  /-- Significance propagation, ordinal 0. -/
  | spp
  /-- Magnitude refinement, ordinal 1. -/
  | mrp
  /-- Cleanup, ordinal 2. -/
  | cup
deriving DecidableEq, Repr

/-- `CB_STAT`: the BPD status, `0 = IDLE, 1 = ACTIVE, 2 = DONE, 3 = FAULT` (R35). -/
inductive CbStat where
  | idle
  | active
  | done
  | fault
deriving DecidableEq, Repr

/-- The fault codes of R211, the causes for which the hardware refuses a command. A hardware refusal is a
NEXT state of this model: the sticky bit of `FLT` is set and `RSP` holds the code (R210). -/
inductive ErrCode where
  /-- `ERR_OPC`, code 1, `FLT` bit 0 (R212). -/
  | opc
  /-- `ERR_CTX`, code 2, `FLT` bit 1 (R213). -/
  | ctx
  /-- `ERR_SEQ`, code 3, `FLT` bit 2 (R214). -/
  | seq
  /-- `ERR_SLOT`, code 4, `FLT` bit 3 (R215). -/
  | slot
  /-- `ERR_DESC`, code 5, `FLT` bit 4 (R216). -/
  | desc
deriving DecidableEq, Repr

/-- The MQD unit (R21 to R28). -/
structure Mqd where
  /-- `A`: the interval register (R21). -/
  a : Reg32
  /-- `C`: the code register (R22). -/
  c : Reg32
  /-- `t`: bits of the last transferred byte not yet shifted into the active part of `C` (R23). -/
  t : BitVec 4
  /-- `Tr`: the last transferred input byte (R24). -/
  tr : Byte
  /-- `L`: segment bytes consumed, `LW` bits (R25). -/
  l : Nat
  /-- `MQ_BASE`, `LW` bits (R26). -/
  base : Nat
  /-- `MQ_LEN`, `LW` bits (R26). -/
  len : Nat
  /-- `MQ_STAT.ATT`: a segment is attached (R28). -/
  att : Bool
  /-- `MQ_STAT.RDY`: restarted since the last attach (R28). -/
  rdy : Bool
  /-- `MQ_STAT.MRK`: the marker diagnostic (R28, R111). -/
  mrk : Bool
  /-- The context file, entries 0..18 (R27). -/
  ctx : Vector CtxEntry 19
deriving DecidableEq, Repr

/-- The RAWD unit (R29 to R31). -/
structure Rawd where
  /-- `RT`: the current byte (R29). -/
  rt : Byte
  /-- `Rt`: bits of `RT` not yet delivered (R29). -/
  bits : BitVec 4
  /-- `RL`: segment bytes consumed, `LW` bits (R29). -/
  rl : Nat
  /-- `RAW_BASE`, `LW` bits (R30). -/
  base : Nat
  /-- `RAW_LEN`, `LW` bits (R30). -/
  len : Nat
  /-- `RAW_STAT.ATT` (R31). -/
  att : Bool
  /-- `RAW_STAT.RDY` (R31). -/
  rdy : Bool
deriving DecidableEq, Repr

/-- The descriptor registers, written by the host (R32). -/
structure Desc where
  /-- `DESC_W`. -/
  w : BitVec 16
  /-- `DESC_H`. -/
  h : BitVec 16
  /-- `DESC_SB`. -/
  sb : Subband
  /-- `DESC_MSB`, signed. -/
  msb : BitVec 8
  /-- `DESC_NPASS`. -/
  npass : BitVec 16
deriving DecidableEq, Repr

/-- The latched descriptor, written only by a completing `CB.ATTACH` (R33). -/
structure Latched where
  /-- `LWID`. -/
  wid : BitVec 16
  /-- `LHGT`. -/
  hgt : BitVec 16
  /-- `LSB`. -/
  sb : Subband
  /-- `LMSB`, signed, non-negative once latched. -/
  msb : BitVec 8
  /-- `LNPASS`. -/
  npass : BitVec 16
  /-- `LNBP`: the number of bit-planes (R151). -/
  nbp : BitVec 16
deriving DecidableEq, Repr

/-- One cell of the coefficient buffer (R38). Magnitudes have `MAGW` bits, `MAGW ≤ 128`: the bits from `MAGW`
up are zero (log entry 5). -/
structure Coef where
  /-- `SGN`: true is negative. -/
  sgn : Bool
  /-- `MAG`. -/
  mag : BitVec 128
deriving DecidableEq, Repr

/-- One entry of `SEGTAB` (R39). -/
structure Slot where
  /-- `VALID`. -/
  valid : Bool
  /-- `BASE`, `LW` bits. -/
  base : Nat
  /-- `LEN`, `LW` bits. -/
  len : Nat
deriving DecidableEq, Repr

/-- A memory of cells of one type: (address, cell) pairs, addresses strictly rising, no pair that holds what
an unlisted address reads as (Machine/Memory.lean). `Memory Byte` is a list of `Host.Cell`. -/
abbrev Memory (α : Type) := List (Nat × α)

/-- The registers of R48, each under its own name. -/
inductive Reg where
  | a
  | c
  | t
  | tr
  | l
  | mqBase
  | mqLen
  | mqStat
  | rt
  | rbits
  | rl
  | rawBase
  | rawLen
  | rawStat
  | cx (i : Fin 19)
  | descW
  | descH
  | descSb
  | descMsb
  | descNpass
  | lwid
  | lhgt
  | lsb
  | lmsb
  | lnpass
  | lnbp
  | cbBp
  | cbPk
  | cbStat
  | flt
  | rsp
  | segValid (i : Nat)
  | segBase (i : Nat)
  | segLen (i : Nat)
deriving DecidableEq, Repr

/-- What the host can address (R46): a register, a byte of segment memory, or a cell of `CTX` or `COEF` at the
flat index of R65. -/
inductive HostTarget where
  | reg (r : Reg)
  | segmem (addr : Nat)
  | ctx (flat : Nat)
  | coef (flat : Nat)
deriving DecidableEq, Repr

/-- What the outside world does to the core, in order, between commands (R11, R74, R89, R240). -/
inductive HostAction where
  /-- The host presents a command word to the idle core (R80). -/
  | command (w : CmdWord)
  /-- The host writes a register or a memory cell (R46). -/
  | write (target : HostTarget) (value : Nat)
  /-- Hardware reset (R240). -/
  | hardReset
deriving DecidableEq, Repr

/-- The state of one core (R20), the parameters it was built with, and the host's pending actions. -/
structure State where
  /-- The OPEN parameters (R6); no step writes them (log entry 1). -/
  cfg : Params
  /-- MQD (R21 to R28). -/
  mq : Mqd
  /-- RAWD (R29 to R31). -/
  raw : Rawd
  /-- `DESC_*` (R32). -/
  desc : Desc
  /-- `LWID, LHGT, LSB, LMSB, LNPASS, LNBP` (R33). -/
  lat : Latched
  /-- `CB_BP`: the current bit-plane, 8 bits signed (R34). -/
  bp : BitVec 8
  /-- `CB_PK`: the current pass kind (R34). -/
  pk : PassKind
  /-- `CB_STAT` (R35). -/
  stat : CbStat
  /-- `CTX`, by flat index `y * LWID + x` (R36, R65). -/
  ctxmap : Memory CtxCell
  /-- `COEF`, by flat index (R38, R65). -/
  coef : Memory Coef
  /-- `SEGTAB`, by slot number (R39). -/
  segtab : Memory Slot
  /-- `SEGMEM`, by byte address (R40). -/
  segmem : Memory Byte
  /-- `FLT`: the sticky fault register, `{DESC, SLOT, SEQ, CTX, OPC}` (R41). -/
  flt : BitVec 5
  /-- `RSP`: `{code[2:0], 00, data[1:0]}` (R42). -/
  rsp : BitVec 7
  /-- THE MODEL'S OWN: what the host does next, first action first (log entry 3). -/
  pending : List HostAction
deriving DecidableEq, Repr

/-- Why the machine stops. R10 and 93_implementation_defined.md say that no command of the core stops it; each
fault here is an access to an address that does not exist, which only a state that no run reaches, or a
host write outside the core's memories, can make. -/
inductive Fault where
  /-- `MQ.RESTART`, `MQ.DECODE`, `MQ.DECODEU`, `RAW.DECODE`, `RAW.DECODEU` on an attached segment
  that does not lie inside `SEGMEM`, which R26 and R30 rule out. Safe: the model stops. -/
  | segmentOutsideMemory
  /-- `CB.STEP`, `CB.RUN` in `CB_STAT = ACTIVE` with a latched block that does not fit `CTX` and `COEF`, or a
  bit-plane or pass index that R152, R154 and R155 rule out. Safe: the model stops. -/
  | blockOutsideMemory
  /-- A host write to a `SEGTAB` entry or a `SEGMEM` byte that does not exist (R39, R40). Safe. -/
  | hostAddressOutOfRange
deriving DecidableEq, Repr

/-- An instruction without a meaning. -/
inductive Refusal where
  /-- The dispatcher answers so for an instruction that has no meaning yet; this model has none such. Safe. -/
  | notModelled (mnemonic : String)
deriving DecidableEq, Repr

/-- The machine of parameters `p` right after hardware reset (R45, R240). The context file, the status
registers, `FLT`, `RSP` and the `VALID` bits are the spec's; every other value is the model's (log entry
4). -/
def State.resetWith (p : Params) : State where
  cfg := p
  mq := { a := 0, c := 0, t := 0, tr := 0, l := 0, base := 0, len := 0,
          att := false, rdy := false, mrk := false, ctx := startupContexts }
  raw := { rt := 0, bits := 0, rl := 0, base := 0, len := 0, att := false, rdy := false }
  desc := { w := 0, h := 0, sb := .ll, msb := 0, npass := 0 }
  lat := { wid := 0, hgt := 0, sb := .ll, msb := 0, npass := 0, nbp := 0 }
  bp := 0
  pk := .spp
  stat := .idle
  ctxmap := []
  coef := []
  segtab := []
  segmem := []
  flt := 0
  rsp := 0
  pending := []

/-- The machine right after hardware reset, at the suggested parameters (R6, R45). -/
def State.reset : State := State.resetWith Params.suggested

end Sys2Proof.Machine
end

