-- ==== Sys2Proof/Machine/Memory.lean ====
section
/-! DEFINITION. A memory as a sparse list in one canonical form: addresses strictly rising, and no pair that
holds what an unlisted address reads as. `d` is that value, one for each memory (log entry 6). -/

namespace Sys2Proof.Machine

/-- The cell at address `a`; an unlisted address reads as `d`. -/
def Memory.read {α : Type} (d : α) : Memory α → Nat → α
  | [], _ => d
  | (k, v) :: m, a => if a = k then v else if a < k then d else Memory.read d m a

/-- Writing `v` at address `a`. Writing `d` removes the pair, so that equal memories are equal lists. -/
def Memory.write {α : Type} [DecidableEq α] (d : α) : Memory α → Nat → α → Memory α
  | [], a, v => if v = d then [] else [(a, v)]
  | (k, w) :: m, a, v =>
    if a < k then (if v = d then (k, w) :: m else (a, v) :: (k, w) :: m)
    else if a = k then (if v = d then m else (a, v) :: m)
    else (k, w) :: Memory.write d m a v

/-- Every address below `n` is set to what an unlisted address reads as. -/
def Memory.clearBelow {α : Type} (n : Nat) (m : Memory α) : Memory α :=
  m.filter fun cell => decide (n ≤ cell.1)

/-- Every listed address is at least `lo`, the addresses rise strictly, and no listed cell holds `d`. -/
def Memory.wfFrom {α : Type} [DecidableEq α] (d : α) : Nat → Memory α → Bool
  | _, [] => true
  | lo, (k, v) :: m => decide (lo ≤ k) && !decide (v = d) && Memory.wfFrom d (k + 1) m

/-- The canonical form. -/
def Memory.wf {α : Type} [DecidableEq α] (d : α) (m : Memory α) : Bool := Memory.wfFrom d 0 m

/-- What a byte of `SEGMEM` that nothing has written reads as (R45 gives none: log entry 6). -/
def blankByte : Byte := 0

/-- What a `CTX` cell that nothing has written reads as (log entry 6). -/
def blankCell : CtxCell := 0

/-- What a `COEF` cell that nothing has written reads as (log entry 6). -/
def blankCoef : Coef := { sgn := false, mag := 0 }

/-- What a `SEGTAB` entry that nothing has written reads as: `VALID = 0` is R45's; base and length are the
model's (log entry 4). -/
def blankSlot : Slot := { valid := false, base := 0, len := 0 }

end Sys2Proof.Machine
end

