-- ==== Sys2Proof/Machine/Flags.lean ====
section
/-! DEFINITION. The flag and status words: `FLT` (R41), `RSP` (R42, R87), and the packed views of `MQ_STAT`,
`RAW_STAT`, `CX[cx]`, `CB_PK`, `CB_STAT` and the subband class (R27, R28, R31, R34, R35, R92). -/

namespace Sys2Proof.Machine

/-- The code of a fault in `RSP[6:4]` (R211). -/
def ErrCode.code : ErrCode → BitVec 3
  | .opc => 1
  | .ctx => 2
  | .seq => 3
  | .slot => 4
  | .desc => 5

/-- The sticky bit of a fault in `FLT` (R41, R211). -/
def ErrCode.mask : ErrCode → BitVec 5
  | .opc => 0b00001
  | .ctx => 0b00010
  | .seq => 0b00100
  | .slot => 0b01000
  | .desc => 0b10000

/-- `RSP = {code[2:0], 2'b00, data[1:0]}` (R42, R87). -/
def packRsp (code : BitVec 3) (data : BitVec 2) : BitVec 7 := code ++ (0 : BitVec 2) ++ data

/-- A decoded bit in `data[0]`, with `data[1] = 0` (R87). -/
def bitData (d : Bool) : BitVec 2 := if d then 1 else 0

/-- `MQ_STAT = {MRK, RDY, ATT}` (R28). -/
def Mqd.statWord (m : Mqd) : BitVec 3 := BitVec.ofBool m.mrk ++ BitVec.ofBool m.rdy ++ BitVec.ofBool m.att

/-- `RAW_STAT = {RDY, ATT}` (R31). -/
def Rawd.statWord (r : Rawd) : BitVec 2 := BitVec.ofBool r.rdy ++ BitVec.ofBool r.att

/-- `CX[cx] = {MPS[cx], I[cx]}` (R27). -/
def CtxEntry.word (e : CtxEntry) : BitVec 7 := BitVec.ofBool e.mps ++ e.idx

/-- The pass ordinal: 0 for `SPP`, 1 for `MRP`, 2 for `CUP` (R34, R93). -/
def PassKind.ordinal : PassKind → Nat
  | .spp => 0
  | .mrp => 1
  | .cup => 2

/-- The code of `CB_STAT` (R35). -/
def CbStat.code : CbStat → Nat
  | .idle => 0
  | .active => 1
  | .done => 2
  | .fault => 3

/-- The code of a subband class (R92). -/
def Subband.code : Subband → Nat
  | .ll => 0
  | .hl => 1
  | .lh => 2
  | .hh => 3

/-- The subband class of a 2-bit code; all four codes are classes (R32, R92). -/
def subbandOf (v : BitVec 2) : Subband :=
  match v with
  | 0#2 => .ll
  | 1#2 => .hl
  | 2#2 => .lh
  | 3#2 => .hh

end Sys2Proof.Machine
end

