-- ==== Sys2Proof/Machine/Ops.lean ====
section
/-! DEFINITION. The named operations every command ends with or reads state by: `respond` and `refuse` (R9,
R87, R210), the bytes of segment memory (R61), the cells of `CTX` and `COEF` (R65), and the hardware reset
(R240). -/

namespace Sys2Proof.Machine

/-- `LW`: the smallest width that holds `SEGSIZE` (R6); at least one bit (log entry 7). -/
def Params.lw (p : Params) : Nat := p.segsize.log2 + 1

/-- `respond(OK, data)`: the command completes (R9, R87). -/
def respond (data : BitVec 2) (s : State) : State := { s with rsp := packRsp 0 data }

/-- `refuse <code>`: TAKING A FAULT, the one mechanism of R210. The sticky bit of `FLT` is set, `RSP` holds the
code, the command ends and the core is idle. There is no vector, no saved state, no mode and nothing to
return from (R210, R222). `ERR_DESC` adds `CB_STAT <- FAULT`, in `CB.ATTACH` (R153, R216). -/
def refuse (e : ErrCode) (s : State) : State :=
  { s with flt := s.flt ||| e.mask, rsp := packRsp e.code 0 }

/-- `MemRead(SEG, a, 1)` (R9, R61), which is also the host's read of `SEGMEM` (R46). DESIGN CHOICE (log entry 20): the
spec gives a read below `SEGSIZE` only; one at `SEGSIZE` or above answers what the memory reads there, which is 0 in
every state a run reaches. -/
def segByte (m : Memory Byte) (a : Nat) : Byte := Memory.read blankByte m a

/-- The segment `(base, len)` lies inside segment memory, computed without wrap-around (R26, R39). -/
def segInside (p : Params) (base len : Nat) : Bool := decide (base + len ≤ p.segsize)

/-- `LWID` as a number. -/
def State.width (s : State) : Nat := s.lat.wid.toNat

/-- `LHGT` as a number. -/
def State.height (s : State) : Nat := s.lat.hgt.toNat

/-- The flat index `y * LWID + x` of coefficient `(x, y)` (R65). -/
def State.flat (s : State) (x y : Nat) : Nat := y * s.width + x

/-- `CTX[y][x]`, a signed integer (R8, R36). -/
def State.ctxAt (s : State) (x y : Nat) : Int := (Memory.read blankCell s.ctxmap (s.flat x y)).toInt

/-- `CTX[y][x] <- v`. -/
def State.setCtx (s : State) (x y : Nat) (v : Int) : State :=
  { s with ctxmap := Memory.write blankCell s.ctxmap (s.flat x y) (BitVec.ofInt 6 v) }

/-- `{SGN[y][x], MAG[y][x]}` (R38). -/
def State.coefAt (s : State) (x y : Nat) : Coef := Memory.read blankCoef s.coef (s.flat x y)

/-- `{SGN[y][x], MAG[y][x]} <- v`. -/
def State.setCoef (s : State) (x y : Nat) (v : Coef) : State :=
  { s with coef := Memory.write blankCoef s.coef (s.flat x y) v }

/-- `SEGTAB[i]` (R39). -/
def State.slotAt (s : State) (i : Nat) : Slot := Memory.read blankSlot s.segtab i

/-- The value of a coefficient, `(-1)^SGN * MAG` (R38, R161). -/
def Coef.value (c : Coef) : Int := if c.sgn then -(c.mag.toNat : Int) else c.mag.toNat

/-- Hardware reset (R240): every piece of state takes its reset value (R45); the parameters, which are no state
of the core, and the host's later actions stay. -/
def hardwareReset (s : State) : State := { State.resetWith s.cfg with pending := s.pending }

end Sys2Proof.Machine
end

