-- ==== Sys2Proof/Machine/Operands.lean ====
section
/-! DEFINITION. The two operand forms: the context operand (R82) and the slot operand (R83). -/

namespace Sys2Proof.Machine

/-- The context operand of `MQ.DECODE`: legal for 0..18, else `none` (R82, R213). -/
def ctxOperand (cx : Nat) : Option (Fin 19) := if h : cx < 19 then some ⟨cx, h⟩ else none

/-- The slot operand of `MQ.ATTACH` and `RAW.ATTACH`: the entry when `s < NSLOT` and the entry is usable, that
is valid and inside segment memory, else `none` (R39, R83, R215). -/
def slotOperand (slot : Nat) (s : State) : Option Slot :=
  if slot < s.cfg.nslot then
    if (s.slotAt slot).valid && segInside s.cfg (s.slotAt slot).base (s.slotAt slot).len then
      some (s.slotAt slot)
    else none
  else none

end Sys2Proof.Machine
end

