-- ==== Sys2Proof/Machine/MqCore.lean ====
section
/-! DEFINITION. The internal procedures of MQD: `FillLSB` (R104), `MQRestart` (R105), `RenormOnce` and `Renorm`
(R106), `MQDecode` (R107). They act on the unit's registers and read segment memory. -/

namespace Sys2Proof.Machine

/-- `C <- (C + 0xFF) mod 2^32`, `t <- 8`: the synthesized byte of R104; `Tr` and `L` keep their values. -/
def fillPad (m : Mqd) : Mqd := { m with c := m.c + 0xFF, t := 8 }

/-- The real byte `b` of R104: after a `0xFF` it carries 7 bits and enters at bits 8..1. -/
def fillByte (b : Byte) (m : Mqd) : Mqd :=
  if m.tr = 0xFF then
    { m with c := m.c + b.setWidth 32 <<< 1, t := 7, tr := b, l := m.l + 1 }
  else
    { m with c := m.c + b.setWidth 32, t := 8, tr := b, l := m.l + 1 }

/-- `FillLSB()` (R104, R111). -/
def fillLSB (mem : Memory Byte) (m : Mqd) : Mqd :=
  if m.len ≤ m.l then fillPad m
  else if m.tr = 0xFF ∧ 0x8F < segByte mem (m.base + m.l) then { fillPad m with mrk := true }
  else fillByte (segByte mem (m.base + m.l)) m

/-- The first lines of `MQRestart()` (R105): `MRK`, `Tr`, `L`, `C` cleared. -/
def restartClear (m : Mqd) : Mqd := { m with mrk := false, tr := 0, l := 0, c := 0 }

/-- The first fill of `MQRestart()` and the shift by `t` after it (R105). -/
def restartFirst (mem : Memory Byte) (m : Mqd) : Mqd :=
  let m1 := fillLSB mem (restartClear m)
  { m1 with c := m1.c <<< m1.t.toNat }

/-- `MQRestart()` (R105): two fills, `C` shifted by 7, `t <- t - 7`, `A <- 0x8000`, `RDY <- 1`. -/
def mqRestart (mem : Memory Byte) (m : Mqd) : Mqd :=
  let m2 := fillLSB mem (restartFirst mem m)
  { m2 with c := m2.c <<< 7, t := m2.t - 7, a := 0x8000, rdy := true }

/-- `RenormOnce()` (R106). -/
def renormOnce (mem : Memory Byte) (m : Mqd) : Mqd :=
  let m1 := if m.t = 0 then fillLSB mem m else m
  { m1 with a := m1.a <<< 1, c := m1.c <<< 1, t := m1.t - 1 }

/-- At most `n` more steps of the loop of `Renorm`, until `A ≥ 0x8000`. -/
def renormLoop (mem : Memory Byte) : Nat → Mqd → Mqd
  | 0, m => m
  | n + 1, m => if 0x8000 ≤ m.a then m else renormLoop mem n (renormOnce mem m)

/-- `Renorm()` (R106): `RenormOnce` at least once, until `A ≥ 0x8000`. For `1 ≤ A < 0x8000`, the only values it
is called with (R109), that is at most 15 times; the bound makes the loop total (log entry 8). -/
def renorm (mem : Memory Byte) (m : Mqd) : Mqd := renormLoop mem 14 (renormOnce mem m)

/-- `CA = C[23:8]`: the active slice of the code register (R22). -/
def activeSlice (c : Reg32) : BitVec 16 := c.extractLsb' 8 16

/-- The context after an MPS event that renormalises: state `NMPS` (R107). -/
def mpsEntry (e : CtxEntry) : CtxEntry := { e with idx := (mqRow e.idx).nmps }

/-- The context after an LPS event: state `NLPS`, and the most probable symbol flipped where `SWITCH = 1`
(R107). -/
def lpsEntry (e : CtxEntry) : CtxEntry :=
  { idx := (mqRow e.idx).nlps, mps := if (mqRow e.idx).switch then !e.mps else e.mps }

/-- `MQDecode(cx)` (R107): the decoded bit and the registers after it. -/
def mqDecode (mem : Memory Byte) (cx : Fin 19) (m : Mqd) : Bool × Mqd :=
  let e := m.ctx[cx]
  let q := (mqRow e.idx).qe
  let a := m.a - q.setWidth 32
  if activeSlice m.c < q then
    if a < q.setWidth 32 then
      (e.mps, renorm mem { m with a := q.setWidth 32, ctx := m.ctx.set cx (mpsEntry e) })
    else
      (!e.mps, renorm mem { m with a := q.setWidth 32, ctx := m.ctx.set cx (lpsEntry e) })
  else
    let c := m.c - q.setWidth 32 <<< 8
    if a < 0x8000 then
      if a < q.setWidth 32 then
        (!e.mps, renorm mem { m with a := a, c := c, ctx := m.ctx.set cx (lpsEntry e) })
      else
        (e.mps, renorm mem { m with a := a, c := c, ctx := m.ctx.set cx (mpsEntry e) })
    else (e.mps, { m with a := a, c := c })

/-- `Decode(cx)` of the pass engines (R112): `MQDecode` on the one MQD of the core. `n` is in 0..18 in every
state a run reaches (R188); a larger one, which only an illegal cell can give, is taken modulo 19 (log
entry 9). -/
def decodeBit (n : Nat) (s : State) : Bool × State :=
  let r := mqDecode s.segmem (Fin.ofNat 19 n) s.mq
  (r.1, { s with mq := r.2 })

end Sys2Proof.Machine
end

