-- ==== Sys2Proof/Machine/Passes.lean ====
section
/-! DEFINITION. The pass engines of the BPD (spec/44_pass_engines.md): the scan (R160), the neighbour update
(R176 to R185), sign decoding (R174), `Signify` (R173), and the passes `SPP`, `MRP`, `CUP` (R170 to R172). -/

namespace Sys2Proof.Machine

/-- One column of one stripe of the scan: its top row, its number of rows, its `x` (R160). -/
structure Column where
  /-- `y0`. -/
  top : Nat
  /-- `rows`: 4, or fewer in the last stripe. -/
  rows : Nat
  /-- `x`. -/
  x : Nat
deriving DecidableEq, Repr

/-- The columns of the scan of a `w` by `h` block: stripes of 4 rows top to bottom, in a stripe the columns
left to right (R160). -/
def scanColumns (w h : Nat) : List Column :=
  (List.range ((h + 3) / 4)).flatMap fun s =>
    (List.range w).map fun x => { top := 4 * s, rows := min 4 (h - 4 * s), x := x }

/-- The positions `(x, y)` of a column, top to bottom (R160). -/
def Column.cells (col : Column) : List (Nat × Nat) :=
  (List.range' col.top col.rows).map fun y => (col.x, y)

/-- The scan order of R160: every position of the block, as `(x, y)`. -/
def scan (w h : Nat) : List (Nat × Nat) := (scanColumns w h).flatMap Column.cells

/-- The coordinate `n + d` where it lies in `0..bound-1` (`InBounds`, R9). -/
def shiftIn (bound n : Nat) (d : Int) : Option Nat :=
  if 0 ≤ (n : Int) + d ∧ (n : Int) + d < bound then some ((n : Int) + d).toNat else none

/-- The neighbour of `(x, y)` in direction `d`; `none` where it is absent (R66, R179). -/
def State.neighbour (s : State) (d : Dir) (x y : Nat) : Option (Nat × Nat) :=
  match shiftIn s.width x d.dx, shiftIn s.height y d.dy with
  | some nx, some ny => some (nx, ny)
  | _, _ => none

/-- `|CTX| ≥ 15`: the coefficient is significant (R36, R37). -/
def significant (c : Int) : Bool := decide (15 ≤ c.natAbs)

/-- `Group(LSB)` (R185). -/
def groupOf : Subband → Group
  | .ll => .g0
  | .lh => .g0
  | .hl => .g1
  | .hh => .g2

/-- The origin tag of a newly significant coefficient (R176). -/
inductive Origin where
  /-- `PROP`: found by a significance propagation pass. -/
  | prop
  /-- `CLEANUP`: found by a cleanup pass. -/
  | cleanup
deriving DecidableEq, Repr

/-- `Later(d, y)` (R180): the neighbour in direction `d` of a coefficient in row `y` comes later in the scan. -/
def later (d : Dir) (y : Nat) : Bool :=
  match d with
  | .right | .down | .downRight => true
  | .left | .up | .upLeft => false
  | .upRight => decide (y % 4 ≠ 0)
  | .downLeft => decide (y % 4 = 3)

/-- `Negative(c, d, y, origin)` (R181). -/
def negative (c : Int) (d : Dir) (y : Nat) (o : Origin) : Bool :=
  if 0 < c then false
  else match o with
    | .cleanup => later d y
    | .prop => !later d y

/-- The new value of a neighbour whose context was `c` (R177, R178): promotion of ±15, the table for
`|c| ≤ 8`, no change else. -/
def updatedCell (g : Group) (c : Int) (d : Dir) (y : Nat) (o : Origin) : Int :=
  if c.natAbs = 15 then (if 0 < c then 16 else -16)
  else if c.natAbs ≤ 8 then
    (if negative c d y o then -(nextMag g d.cls c.natAbs : Int) else nextMag g d.cls c.natAbs)
  else c

/-- One iteration of step 2 of `NeighborUpdate` (R178). -/
def updateNeighbour (x y : Nat) (o : Origin) (s : State) (d : Dir) : State :=
  match s.neighbour d x y with
  | some (nx, ny) => s.setCtx nx ny (updatedCell (groupOf s.lat.sb) (s.ctxAt nx ny) d y o)
  | none => s

/-- Some neighbour of `(x, y)` in the block is significant (R176, R178). -/
def State.anySignificant (s : State) (x y : Nat) : Bool :=
  allDirs.any fun d =>
    match s.neighbour d x y with
    | some (nx, ny) => significant (s.ctxAt nx ny)
    | none => false

/-- The own context of a newly significant coefficient (R176): positive for the cleanup pass, negative for
the propagation pass; 16 with a significant neighbour, else 15. -/
def ownCell (any : Bool) (o : Origin) : Int :=
  match o with
  | .cleanup => if any then 16 else 15
  | .prop => if any then -16 else -15

/-- `NeighborUpdate(x, y, origin)` (R178). -/
def neighborUpdate (x y : Nat) (o : Origin) (s : State) : State :=
  allDirs.foldl (updateNeighbour x y o) (s.setCtx x y (ownCell (s.anySignificant x y) o))

/-- `Contribution` of the neighbour in direction `d` (R174). -/
def State.contribution (s : State) (d : Dir) (x y : Nat) : Int :=
  match s.neighbour d x y with
  | some (nx, ny) => if (s.ctxAt nx ny).natAbs ≤ 8 then 0 else if (s.coefAt nx ny).sgn then -1 else 1
  | none => 0

/-- `clamp` (R8). -/
def clamp (v : Int) : Int := if v < 0 then -1 else if v = 0 then 0 else 1

/-- The sign context `sc` of `(x, y)` (R174): `SIGNCTX` of the clamped horizontal and vertical sums. -/
def State.signContext (s : State) (x y : Nat) : Int :=
  signCtx (clamp (s.contribution .left x y + s.contribution .right x y))
    (clamp (s.contribution .up x y + s.contribution .down x y))

/-- The decoded sign bit negates the stored sign: `(sc > 0 and bit = 1) or (sc < 0 and bit = 0)` (R174). -/
def signFlips (sc : Int) (bit : Bool) : Bool := (decide (0 < sc) && bit) || (decide (sc < 0) && !bit)

/-- `SignDecode(x, y)` (R174). -/
def signDecode (x y : Nat) (s : State) : State :=
  let sc := s.signContext x y
  let r := decodeBit sc.natAbs s
  if signFlips sc r.1 then
    r.2.setCoef x y { r.2.coefAt x y with sgn := !(r.2.coefAt x y).sgn }
  else r.2

/-- `1 << b`, the mask of bit-plane `b` (R171, R173). -/
def planeMask (b : Nat) : BitVec 128 := 1#128 <<< b

/-- The half-mask `(1 << b) >> 1` (R171, R173). -/
def halfMask (b : Nat) : BitVec 128 := planeMask b >>> 1

/-- `Signify(x, y, b, origin)` (R173): magnitude, sign, neighbours, in that order. -/
def signify (x y b : Nat) (o : Origin) (s : State) : State :=
  neighborUpdate x y o
    (signDecode x y (s.setCoef x y { s.coefAt x y with mag := planeMask b ||| halfMask b }))

/-- `SPP(b)` at one position (R170). -/
def sppCell (b : Nat) (s : State) (p : Nat × Nat) : State :=
  let c := s.ctxAt p.1 p.2
  if 1 ≤ c ∧ c ≤ 8 then
    let r := decodeBit c.natAbs s
    if r.1 then signify p.1 p.2 b .prop r.2 else r.2
  else s

/-- `SPP(b)` (R170). -/
def spp (b : Nat) (s : State) : State := (scan s.width s.height).foldl (sppCell b) s

/-- The refined magnitude: bit `b` replaced by the decoded bit, the half-bit set below it (R171). -/
def refinedMag (mag : BitVec 128) (b : Nat) (bit : Bool) : BitVec 128 :=
  (mag &&& ~~~planeMask b) ||| (if bit then planeMask b else 0) ||| halfMask b

/-- `MRP(b)` at one position (R171). -/
def mrpCell (b : Nat) (s : State) (p : Nat × Nat) : State :=
  let c := s.ctxAt p.1 p.2
  if significant c then
    if 0 < c then
      let r := decodeBit c.natAbs s
      (r.2.setCoef p.1 p.2
        { r.2.coefAt p.1 p.2 with mag := refinedMag (r.2.coefAt p.1 p.2).mag b r.1 }).setCtx p.1 p.2 17
    else s.setCtx p.1 p.2 (-c)
  else s

/-- `MRP(b)` (R171). -/
def mrp (b : Nat) (s : State) : State := (scan s.width s.height).foldl (mrpCell b) s

/-- The per-coefficient processing of `CUP(b)` at one position (R172). -/
def cupCell (b : Nat) (s : State) (p : Nat × Nat) : State :=
  let c := s.ctxAt p.1 p.2
  if -8 ≤ c ∧ c ≤ 0 then
    let r := decodeBit c.natAbs (s.setCtx p.1 p.2 (-c))
    if r.1 then signify p.1 p.2 b .cleanup r.2 else r.2
  else s

/-- The run-length shortcut applies to a column: four rows, all with context 0 (R172). -/
def State.runLength (s : State) (col : Column) : Bool :=
  decide (col.rows = 4) && (col.cells.all fun p => decide (s.ctxAt p.1 p.2 = 0))

/-- The run-length branch of `CUP(b)`, once the run bit is 1 (R172): the 2-bit position, most significant bit
first, the found row, and the rows below it one by one. -/
def cupRun (b : Nat) (s : State) (col : Column) : State :=
  let r1 := decodeBit 18 s
  let r0 := decodeBit 18 r1.2
  let k := 2 * r1.1.toNat + r0.1.toNat
  (col.cells.drop (k + 1)).foldl (cupCell b) (signify col.x (col.top + k) b .cleanup r0.2)

/-- `CUP(b)` at one column of a stripe (R172). -/
def cupColumn (b : Nat) (s : State) (col : Column) : State :=
  if s.runLength col then
    let r := decodeBit 9 s
    if r.1 then cupRun b r.2 col else r.2
  else col.cells.foldl (cupCell b) s

/-- `CUP(b)` (R172). -/
def cup (b : Nat) (s : State) : State := (scanColumns s.width s.height).foldl (cupColumn b) s

/-- The pass of kind `k` on bit-plane `b` (R156). -/
def runPass (k : PassKind) (b : Nat) (s : State) : State :=
  match k with
  | .spp => spp b s
  | .mrp => mrp b s
  | .cup => cup b s

end Sys2Proof.Machine
end

