-- ==== Sys2Proof/Machine/Cb.lean ====
section
/-! DEFINITION. The BPD sequencer and its commands (spec/43_codeblock_sequencer.md): `CB.ATTACH`, `CB.STEP`,
`CB.RUN`. -/

namespace Sys2Proof.Machine

/-- `NBP(n) = (n + 4) div 3`: the number of bit-planes of `n` coding passes (R151). -/
def nbpOf (npass : Nat) : Nat := (npass + 4) / 3

/-- The descriptor is invalid (R152), the four conditions in their order. -/
def descInvalid (p : Params) (d : Desc) : Bool :=
  decide (d.msb.toInt < 0) ||
  decide (d.msb.toInt + 1 < nbpOf d.npass.toNat) ||
  (decide (d.w = 0) || decide (p.maxw < d.w.toNat) || decide (d.h = 0) || decide (p.maxh < d.h.toNat)) ||
  decide ((p.magw : Int) ≤ d.msb.toInt)

/-- The latched copy of a descriptor (R33, R153). -/
def latch (d : Desc) : Latched :=
  { wid := d.w, hgt := d.h, sb := d.sb, msb := d.msb, npass := d.npass,
    nbp := BitVec.ofNat 16 (nbpOf d.npass.toNat) }

/-- The effect of a completing `CB.ATTACH` on the BPD and the context file (R153): latch, clear every cell of
the block, startup contexts, first state `(LMSB, CUP)`, `CB_STAT <- ACTIVE`. -/
def attachBlock (s : State) : State :=
  let cells := s.desc.w.toNat * s.desc.h.toNat
  { s with
    lat := latch s.desc
    ctxmap := Memory.clearBelow cells s.ctxmap
    coef := Memory.clearBelow cells s.coef
    mq := { s.mq with ctx := startupContexts }
    bp := s.desc.msb
    pk := .cup
    stat := .active }

/-- `CB.ATTACH` (R153, R216). -/
def execCbAttach (s : State) : Host.Outcome State Fault Refusal :=
  if descInvalid s.cfg s.desc then .next (refuse .desc { s with stat := .fault })
  else .next (respond 0 (attachBlock s))

/-- `idx = (LMSB - CB_BP) * 3 + CB_PK - 2` (R154). -/
def State.passIdx (s : State) : Int := (s.lat.msb.toInt - s.bp.toInt) * 3 + s.pk.ordinal - 2

/-- `Skip(idx)` (R157). -/
def State.skips (s : State) (idx : Nat) : Bool :=
  decide (s.lat.npass.toNat ≤ idx) || decide (s.cfg.nslot ≤ idx) || !(s.slotAt idx).valid

/-- The slot of pass `idx` is present and does not fit segment memory (R156, R159, R215). -/
def State.slotBad (s : State) (idx : Nat) : Bool :=
  !s.skips idx && !segInside s.cfg (s.slotAt idx).base (s.slotAt idx).len

/-- `Advance()` (R158). -/
def advance (s : State) : State :=
  let bp := if s.pk = .cup then s.bp - 1 else s.bp
  let pk := match s.pk with
    | .cup => .spp
    | .spp => .mrp
    | .mrp => .cup
  { s with
    bp := bp
    pk := pk
    stat := if (s.lat.nbp.toNat : Int) ≤ s.lat.msb.toInt - bp.toInt then .done else s.stat }

/-- The attach and restart inside `CB.STEP` (R156): `MQ_BASE`, `MQ_LEN`, `ATT <- 1`, `MQRestart()`. -/
def attachPass (idx : Nat) (s : State) : State :=
  { s with mq := mqRestart s.segmem { s.mq with base := (s.slotAt idx).base, len := (s.slotAt idx).len, att := true } }

/-- The executed pass of the current state: attach, restart, pass body (R156). -/
def execPass (s : State) : State := runPass s.pk s.bp.toInt.toNat (attachPass s.passIdx.toNat s)

/-- The body of `CB.STEP` without its refusals and its response (R156, R159). -/
def stepBody (s : State) : State := if s.skips s.passIdx.toNat then advance s else advance (execPass s)

/-- What R33, R34, R152, R154 and R155 say of an ACTIVE block: it fits the memories, its bit-planes are bits of
a magnitude, and the sequencer is at one of its passes. It holds in every state a run reaches. -/
def State.blockInRange (s : State) : Bool :=
  decide (s.width ≤ s.cfg.maxw) && decide (s.height ≤ s.cfg.maxh) &&
  decide (s.lat.msb.toInt < s.cfg.magw) && decide ((s.lat.nbp.toNat : Int) ≤ s.lat.msb.toInt + 1) &&
  decide (s.bp.toInt ≤ s.lat.msb.toInt) && decide (s.lat.msb.toInt - s.bp.toInt < s.lat.nbp.toNat) &&
  decide (0 ≤ s.passIdx)

/-- `CB.STEP` (R156). -/
def execCbStep (s : State) : Host.Outcome State Fault Refusal :=
  match s.stat with
  | .idle => .next (refuse .seq s)
  | .fault => .next (refuse .seq s)
  | .done => .next (respond 2 s)
  | .active =>
    if s.blockInRange then
      if s.skips s.passIdx.toNat then .next (respond 0 (stepBody s))
      else if s.slotBad s.passIdx.toNat then .next (refuse .slot s)
      else .next (respond 1 (stepBody s))
    else .fault .blockOutsideMemory

/-- The pass indices from the current one to the last, `3 * LNBP - 3` (R155, R159). -/
def State.remaining (s : State) : List Nat :=
  List.range' s.passIdx.toNat (3 * s.lat.nbp.toNat - 2 - s.passIdx.toNat)

/-- The loop of `CB.RUN`: step bodies while `CB_STAT = ACTIVE`, at most `n` (R159). -/
def runLoop : Nat → State → State
  | 0, s => s
  | n + 1, s => if s.stat = .active then runLoop n (stepBody s) else s

/-- `CB.RUN` (R159): the slot pre-check, then at most `3 * LNBP - 2` transitions. -/
def execCbRun (s : State) : Host.Outcome State Fault Refusal :=
  match s.stat with
  | .idle => .next (refuse .seq s)
  | .fault => .next (refuse .seq s)
  | .done => .next (respond 0 s)
  | .active =>
    if s.blockInRange then
      if s.remaining.any s.slotBad then .next (refuse .slot s)
      else .next (respond 0 (runLoop (3 * s.lat.nbp.toNat - 2) s))
    else .fault .blockOutsideMemory

end Sys2Proof.Machine
end

