-- ==== Sys2Proof/Machine/Mq.lean ====
section
/-! DEFINITION. The commands of MQD (spec/41_mq_decoder.md): `MQ.RESET`, `MQ.ATTACH`, `MQ.RESTART`, `MQ.DECODE`,
`MQ.DECODEU`. -/

namespace Sys2Proof.Machine

/-- The attach of a segment to MQD: `MQ_BASE, MQ_LEN, MQ_STAT` and nothing else (R100, R103). -/
def Mqd.attach (e : Slot) (m : Mqd) : Mqd := { m with base := e.base, len := e.len, att := true, rdy := false }

/-- One decode by command, after its checks: refused without `RDY` (R107, R108, R214), and then `MQDecode`. -/
def runMqDecode (cx : Fin 19) (s : State) : Host.Outcome State Fault Refusal :=
  if s.mq.rdy then
    if segInside s.cfg s.mq.base s.mq.len then
      let r := mqDecode s.segmem cx s.mq
      .next (respond (bitData r.1) { s with mq := r.2 })
    else .fault .segmentOutsideMemory
  else .next (refuse .seq s)

/-- `MQ.RESET` (R102): the context file takes its startup states. -/
def execMqReset (s : State) : Host.Outcome State Fault Refusal :=
  .next (respond 0 { s with mq := { s.mq with ctx := startupContexts } })

/-- `MQ.ATTACH s` (R103). -/
def execMqAttach (slot : Nat) (s : State) : Host.Outcome State Fault Refusal :=
  match slotOperand slot s with
  | some e => .next (respond 0 { s with mq := s.mq.attach e })
  | none => .next (refuse .slot s)

/-- `MQ.RESTART` (R105). -/
def execMqRestart (s : State) : Host.Outcome State Fault Refusal :=
  if s.mq.att then
    if segInside s.cfg s.mq.base s.mq.len then
      .next (respond 0 { s with mq := mqRestart s.segmem s.mq })
    else .fault .segmentOutsideMemory
  else .next (refuse .seq s)

/-- `MQ.DECODE cx` (R107): `ERR_CTX` is tested before `ERR_SEQ` (R220). -/
def execMqDecode (cx : Nat) (s : State) : Host.Outcome State Fault Refusal :=
  match ctxOperand cx with
  | some k => runMqDecode k s
  | none => .next (refuse .ctx s)

/-- `MQ.DECODEU` (R108): the fixed equiprobable context 18. -/
def execMqDecodeu (s : State) : Host.Outcome State Fault Refusal := runMqDecode 18 s

end Sys2Proof.Machine
end

