-- ==== Sys2Proof/Machine/Raw.lean ====
section
/-! DEFINITION. RAWD and its commands (spec/42_raw_decoder.md): `RAW.RESET`, `RAW.ATTACH`, `RAW.RESTART`,
`RAW.DECODE`, `RAW.DECODEU`. -/

namespace Sys2Proof.Machine

/-- The attach of a segment to RAWD (R132). -/
def Rawd.attach (e : Slot) (r : Rawd) : Rawd := { r with base := e.base, len := e.len, att := true, rdy := false }

/-- The fetch inside `RawDecode()`, made when no bit of the current byte is left (R134): past the end a
synthesized `0xFF` with 8 bits (R136), else the next byte, with 7 bits after a `0xFF`. -/
def rawFill (mem : Memory Byte) (r : Rawd) : Rawd :=
  if r.len ≤ r.rl then { r with rt := 0xFF, bits := 8 }
  else { r with rt := segByte mem (r.base + r.rl), bits := if r.rt = 0xFF then 7 else 8, rl := r.rl + 1 }

/-- `RawDecode()` (R134): the bit `(RT >> Rt) & 1` after the decrement of `Rt`. -/
def rawDecode (mem : Memory Byte) (r : Rawd) : Bool × Rawd :=
  let r1 := if r.bits = 0 then rawFill mem r else r
  let left := r1.bits - 1
  (r1.rt.getLsbD left.toNat, { r1 with bits := left })

/-- One raw decode by command: refused without `RDY` (R134, R135, R214). -/
def runRawDecode (s : State) : Host.Outcome State Fault Refusal :=
  if s.raw.rdy then
    if segInside s.cfg s.raw.base s.raw.len then
      let r := rawDecode s.segmem s.raw
      .next (respond (bitData r.1) { s with raw := r.2 })
    else .fault .segmentOutsideMemory
  else .next (refuse .seq s)

/-- `RAW.RESET` (R131): no register changes. -/
def execRawReset (s : State) : Host.Outcome State Fault Refusal := .next (respond 0 s)

/-- `RAW.ATTACH s` (R132). -/
def execRawAttach (slot : Nat) (s : State) : Host.Outcome State Fault Refusal :=
  match slotOperand slot s with
  | some e => .next (respond 0 { s with raw := s.raw.attach e })
  | none => .next (refuse .slot s)

/-- `RAW.RESTART` (R133): no byte is read. -/
def execRawRestart (s : State) : Host.Outcome State Fault Refusal :=
  if s.raw.att then .next (respond 0 { s with raw := { s.raw with rt := 0, bits := 0, rl := 0, rdy := true } })
  else .next (refuse .seq s)

/-- `RAW.DECODE cx` (R134): the operand is accepted and not used. -/
def execRawDecode (_cx : Nat) (s : State) : Host.Outcome State Fault Refusal := runRawDecode s

/-- `RAW.DECODEU` (R135). -/
def execRawDecodeu (s : State) : Host.Outcome State Fault Refusal := runRawDecode s

end Sys2Proof.Machine
end

