-- ==== Sys2Proof/Machine/Dispatch.lean ====
section
/-! DEFINITION. One arm for each command of spec/opcode_table.json. -/

namespace Sys2Proof.Machine

def exec (i : Instr) (s : State) : Host.Outcome State Fault Refusal :=
  match i with
  | .mqReset => Sys2Proof.Machine.execMqReset s
  | .mqAttach slot => Sys2Proof.Machine.execMqAttach slot s
  | .mqRestart => Sys2Proof.Machine.execMqRestart s
  | .mqDecode cx => Sys2Proof.Machine.execMqDecode cx s
  | .mqDecodeu => Sys2Proof.Machine.execMqDecodeu s
  | .rawReset => Sys2Proof.Machine.execRawReset s
  | .rawAttach slot => Sys2Proof.Machine.execRawAttach slot s
  | .rawRestart => Sys2Proof.Machine.execRawRestart s
  | .rawDecode cx => Sys2Proof.Machine.execRawDecode cx s
  | .rawDecodeu => Sys2Proof.Machine.execRawDecodeu s
  | .cbAttach => Sys2Proof.Machine.execCbAttach s
  | .cbStep => Sys2Proof.Machine.execCbStep s
  | .cbRun => Sys2Proof.Machine.execCbRun s

end Sys2Proof.Machine
end

