-- ==== Sys2Proof/Machine/HostPort.lean ====
section
/-! DEFINITION. The host's side of the core: the register numbers (R48), what a host read returns and what a host
write does (R46, R65). -/

namespace Sys2Proof.Machine

/-- The register numbers of R48. -/
def Reg.number : Reg → Nat
  | .a => 0x00
  | .c => 0x01
  | .t => 0x02
  | .tr => 0x03
  | .l => 0x04
  | .mqBase => 0x05
  | .mqLen => 0x06
  | .mqStat => 0x07
  | .rt => 0x10
  | .rbits => 0x11
  | .rl => 0x12
  | .rawBase => 0x13
  | .rawLen => 0x14
  | .rawStat => 0x15
  | .cx i => 0x20 + i.val
  | .descW => 0x40
  | .descH => 0x41
  | .descSb => 0x42
  | .descMsb => 0x43
  | .descNpass => 0x44
  | .lwid => 0x48
  | .lhgt => 0x49
  | .lsb => 0x4A
  | .lmsb => 0x4B
  | .lnpass => 0x4C
  | .lnbp => 0x4D
  | .cbBp => 0x4E
  | .cbPk => 0x4F
  | .cbStat => 0x50
  | .flt => 0x60
  | .rsp => 0x61
  | .segValid i => 0x100 + 4 * i
  | .segBase i => 0x100 + 4 * i + 1
  | .segLen i => 0x100 + 4 * i + 2

/-- The width of a register: the column "bits" of R48. -/
def Reg.bits (p : Params) : Reg → Nat
  | .a => 32
  | .c => 32
  | .t => 4
  | .tr => 8
  | .l => Params.lw p
  | .mqBase => Params.lw p
  | .mqLen => Params.lw p
  | .mqStat => 3
  | .rt => 8
  | .rbits => 4
  | .rl => Params.lw p
  | .rawBase => Params.lw p
  | .rawLen => Params.lw p
  | .rawStat => 2
  | .cx _ => 7
  | .descW => 16
  | .descH => 16
  | .descSb => 2
  | .descMsb => 8
  | .descNpass => 16
  | .lwid => 16
  | .lhgt => 16
  | .lsb => 2
  | .lmsb => 8
  | .lnpass => 16
  | .lnbp => 16
  | .cbBp => 8
  | .cbPk => 2
  | .cbStat => 2
  | .flt => 5
  | .rsp => 7
  | .segValid _ => 1
  | .segBase _ => Params.lw p
  | .segLen _ => Params.lw p

/-- A host read of a register: its whole value, as an unsigned number (R46, R48, R62). DESIGN CHOICE (log entry 19):
R48 numbers the entries of `SEGTAB` below `NSLOT` only; a read of one beyond them answers what the table reads
there, which is 0 in every state a run reaches. -/
def State.readReg (s : State) : Reg → Nat
  | .a => s.mq.a.toNat
  | .c => s.mq.c.toNat
  | .t => s.mq.t.toNat
  | .tr => s.mq.tr.toNat
  | .l => s.mq.l
  | .mqBase => s.mq.base
  | .mqLen => s.mq.len
  | .mqStat => s.mq.statWord.toNat
  | .rt => s.raw.rt.toNat
  | .rbits => s.raw.bits.toNat
  | .rl => s.raw.rl
  | .rawBase => s.raw.base
  | .rawLen => s.raw.len
  | .rawStat => s.raw.statWord.toNat
  | .cx i => (s.mq.ctx[i]).word.toNat
  | .descW => s.desc.w.toNat
  | .descH => s.desc.h.toNat
  | .descSb => s.desc.sb.code
  | .descMsb => s.desc.msb.toNat
  | .descNpass => s.desc.npass.toNat
  | .lwid => s.lat.wid.toNat
  | .lhgt => s.lat.hgt.toNat
  | .lsb => s.lat.sb.code
  | .lmsb => s.lat.msb.toNat
  | .lnpass => s.lat.npass.toNat
  | .lnbp => s.lat.nbp.toNat
  | .cbBp => s.bp.toNat
  | .cbPk => s.pk.ordinal
  | .cbStat => s.stat.code
  | .flt => s.flt.toNat
  | .rsp => s.rsp.toNat
  | .segValid i => (s.slotAt i).valid.toNat
  | .segBase i => (s.slotAt i).base
  | .segLen i => (s.slotAt i).len

/-- A host read of `CTX` at a flat index: `none` where the index is outside the attached block and its content
is unspecified (R46, R65). -/
def State.readCtx (s : State) (flat : Nat) : Option Int :=
  if flat < s.width * s.height then some (Memory.read blankCell s.ctxmap flat).toInt else none

/-- A host read of `COEF` at a flat index (R46, R65). -/
def State.readCoef (s : State) (flat : Nat) : Option Coef :=
  if flat < s.width * s.height then some (Memory.read blankCoef s.coef flat) else none

/-- A host write of `SEGTAB[i]`; an entry that does not exist cannot be written (R39). -/
def writeSlot (i : Nat) (e : Slot) (s : State) : Host.Outcome State Fault Refusal :=
  if i < s.cfg.nslot then .next { s with segtab := Memory.write blankSlot s.segtab i e }
  else .fault .hostAddressOutOfRange

/-- A host write to a register (R46): the read-write ones take the value's low bits, a write to a read-only one
is ignored. -/
def writeReg (r : Reg) (v : Nat) (s : State) : Host.Outcome State Fault Refusal :=
  match r with
  | .descW => .next { s with desc := { s.desc with w := BitVec.ofNat 16 v } }
  | .descH => .next { s with desc := { s.desc with h := BitVec.ofNat 16 v } }
  | .descSb => .next { s with desc := { s.desc with sb := subbandOf (BitVec.ofNat 2 v) } }
  | .descMsb => .next { s with desc := { s.desc with msb := BitVec.ofNat 8 v } }
  | .descNpass => .next { s with desc := { s.desc with npass := BitVec.ofNat 16 v } }
  | .segValid i => writeSlot i { s.slotAt i with valid := v.testBit 0 } s
  | .segBase i => writeSlot i { s.slotAt i with base := v % 2 ^ Params.lw s.cfg } s
  | .segLen i => writeSlot i { s.slotAt i with len := v % 2 ^ Params.lw s.cfg } s
  | .a | .c | .t | .tr | .l | .mqBase | .mqLen | .mqStat | .cx _ => .next s
  | .rt | .rbits | .rl | .rawBase | .rawLen | .rawStat => .next s
  | .lwid | .lhgt | .lsb | .lmsb | .lnpass | .lnbp => .next s
  | .cbBp | .cbPk | .cbStat | .flt | .rsp => .next s

/-- A host write (R46): `SEGMEM` is read-write, `CTX` and `COEF` are read-only and a write to them is ignored. -/
def hostWrite (target : HostTarget) (v : Nat) (s : State) : Host.Outcome State Fault Refusal :=
  match target with
  | .reg r => writeReg r v s
  | .segmem a =>
    if a < s.cfg.segsize then .next { s with segmem := Memory.write blankByte s.segmem a (BitVec.ofNat 8 v) }
    else .fault .hostAddressOutOfRange
  | .ctx _ => .next s
  | .coef _ => .next s

/-- The host presents the command word `w` next. -/
def present (w : CmdWord) (s : State) : State := { s with pending := .command w :: s.pending }

/-- The core takes up the host's next action; `none` when there is none (R229). -/
def nextAction (s : State) : Option (HostAction × State) :=
  match s.pending with
  | [] => none
  | act :: rest => some (act, { s with pending := rest })

end Sys2Proof.Machine
end

