-- ==== Sys2Proof/Machine/Step.lean ====
section
/-! DEFINITION. One step of the machine: the core takes up the host's next action (R11, R74). -/

namespace Sys2Proof.Machine

/-- One step. A command word is decoded and runs whole (R10); an illegal one is refused with `ERR_OPC` (R86,
R212); a host write and a hardware reset act between commands (R74, R240). With no action pending the
core is idle and holds its state (R229). -/
def step (s : State) : Host.Outcome State Fault Refusal :=
  match nextAction s with
  | none => .next s
  | some (.command w, s1) =>
    match decode w with
    | .ok i => exec i s1
    | .error _ => .next (refuse .opc s1)
  | some (.write target v, s1) => hostWrite target v s1
  | some (.hardReset, s1) => .next (hardwareReset s1)

/-- `s` with the command word of the bits `w` below `nbits` presented as the host's next action, so that the
very next step runs it. A command is one 16-bit word (R80, R88); nothing else changes. -/
def State.withFetchWord (s : State) (nbits w : Nat) : State := present (BitVec.ofNat 16 (w % 2 ^ nbits)) s

end Sys2Proof.Machine
end

