-- ==== Sys2Proof/Safety.lean ====
section
/-! DEFINITION. The terms the statements use: the legal cell values (R37), the invariants of the units, what may
stop a step, the label function of R187, and the bit string of a raw segment (R95, R137). -/

namespace Sys2Proof.Machine

/-- `(x, y)` is a coefficient of the attached block (`InBounds`, R9). -/
abbrev State.InBlock (s : State) (x y : Nat) : Prop := x < s.width ∧ y < s.height

/-- The values of R36 and R37: `-16, -15, -8..8, 15, 16, 17`. -/
abbrev LegalCell (c : Int) : Prop :=
  (-8 ≤ c ∧ c ≤ 8) ∨ c = 15 ∨ c = -15 ∨ c = 16 ∨ c = -16 ∨ c = 17

/-- A code-block is attached: `CB_STAT` is ACTIVE or DONE (R35). -/
abbrev State.Attached (s : State) : Prop := s.stat = .active ∨ s.stat = .done

/-- The invariants of MQD (R26, R27, R109): state indices are rows of the table; an attached segment lies inside
segment memory; once `RDY`, `0x8000 ≤ A ≤ 0xFFFF`, `t ≤ 8` and `L ≤ MQ_LEN`. -/
abbrev MqOk (s : State) : Prop :=
  (∀ cx : Fin 19, s.mq.ctx[cx].idx ≤ 46) ∧
  (s.mq.att = true → s.mq.base + s.mq.len ≤ s.cfg.segsize) ∧
  (s.mq.rdy = true → s.mq.att = true ∧ (0x8000 ≤ s.mq.a ∧ s.mq.a ≤ 0xFFFF) ∧ s.mq.t ≤ 8 ∧ s.mq.l ≤ s.mq.len)

/-- The invariants of RAWD (R30, R137). -/
abbrev RawOk (s : State) : Prop :=
  (s.raw.att = true → s.raw.base + s.raw.len ≤ s.cfg.segsize) ∧
  (s.raw.rdy = true → s.raw.att = true ∧ s.raw.bits ≤ 7 ∧ s.raw.rl ≤ s.raw.len)

/-- The latched descriptor is a valid one (R33, R151, R152). -/
abbrev LatchedOk (s : State) : Prop :=
  (1 ≤ s.width ∧ s.width ≤ s.cfg.maxw) ∧ (1 ≤ s.height ∧ s.height ≤ s.cfg.maxh) ∧
  (0 ≤ s.lat.msb.toInt ∧ s.lat.msb.toInt < s.cfg.magw) ∧
  s.lat.nbp.toNat = (s.lat.npass.toNat + 4) / 3 ∧ (s.lat.nbp.toNat : Int) ≤ s.lat.msb.toInt + 1

/-- The sequencer of an ACTIVE block is at one of its passes; that of a DONE block is at the terminal state
`(LMSB - LNBP, SPP)` (R34, R154, R155). -/
abbrev SeqOk (s : State) : Prop :=
  (s.stat = .active → LatchedOk s ∧ s.lat.msb.toInt - s.lat.nbp.toNat < s.bp.toInt ∧
    s.bp.toInt ≤ s.lat.msb.toInt ∧ (s.bp = s.lat.msb → s.pk = .cup)) ∧
  (s.stat = .done → LatchedOk s ∧ s.bp.toInt = s.lat.msb.toInt - s.lat.nbp.toNat ∧ s.pk = .spp)

/-- Every cell of the attached block holds a legal value (R37). -/
abbrev CellsOk (s : State) : Prop :=
  s.Attached → ∀ x, x < s.width → ∀ y, y < s.height → LegalCell (s.ctxAt x y)

/-- A coefficient of the attached block that is not significant has `MAG = 0` and `SGN = 0` (R38). -/
abbrev CoefOk (s : State) : Prop :=
  s.Attached → ∀ x, x < s.width → ∀ y, y < s.height → significant (s.ctxAt x y) = false →
    s.coefAt x y = { sgn := false, mag := 0 }

/-- Context 18 is in state 46 with most probable symbol 0 (R108). -/
abbrev EquiprobableOk (s : State) : Prop := s.mq.ctx[(18 : Fin 19)] = { idx := 46, mps := false }

/-- The four memories are in canonical form. -/
abbrev MemoriesWf (s : State) : Prop :=
  Memory.wf blankByte s.segmem = true ∧ Memory.wf blankSlot s.segtab = true ∧
  Memory.wf blankCell s.ctxmap = true ∧ Memory.wf blankCoef s.coef = true

/-- Every cell the memories list is one that exists (R36, R38, R39, R40). -/
abbrev AddressesOk (s : State) : Prop :=
  (∀ p ∈ s.segmem, p.1 < s.cfg.segsize) ∧ (∀ p ∈ s.segtab, p.1 < s.cfg.nslot) ∧
  (∀ p ∈ s.ctxmap, p.1 < s.cfg.maxw * s.cfg.maxh) ∧ (∀ p ∈ s.coef, p.1 < s.cfg.maxw * s.cfg.maxh)

/-- The registers of `LW` bits hold `LW`-bit values, and magnitudes have `MAGW` bits (R25, R26, R29, R30, R38,
R39). -/
abbrev WidthsOk (s : State) : Prop :=
  (s.mq.base < 2 ^ Params.lw s.cfg ∧ s.mq.len < 2 ^ Params.lw s.cfg ∧ s.mq.l < 2 ^ Params.lw s.cfg) ∧
  (s.raw.base < 2 ^ Params.lw s.cfg ∧ s.raw.len < 2 ^ Params.lw s.cfg ∧ s.raw.rl < 2 ^ Params.lw s.cfg) ∧
  (∀ p ∈ s.segtab, p.2.base < 2 ^ Params.lw s.cfg ∧ p.2.len < 2 ^ Params.lw s.cfg) ∧
  (∀ p ∈ s.coef, p.2.mag.toNat < 2 ^ s.cfg.magw)

/-- Slot `i` is in the table and usable: valid and inside segment memory (R39, R83). -/
abbrev State.Usable (s : State) (i : Nat) : Prop :=
  i < s.cfg.nslot ∧ (s.slotAt i).valid = true ∧ (s.slotAt i).base + (s.slotAt i).len ≤ s.cfg.segsize

/-- `Skip(idx)`: pass `idx` has no segment (R157). -/
abbrev State.Absent (s : State) (idx : Nat) : Prop :=
  s.lat.npass.toNat ≤ idx ∨ s.cfg.nslot ≤ idx ∨ (s.slotAt idx).valid = false

/-- The slot of pass `idx` is present and does not fit segment memory (R156, R215). -/
abbrev State.IllFormed (s : State) (idx : Nat) : Prop :=
  ¬ s.Absent idx ∧ s.cfg.segsize < (s.slotAt idx).base + (s.slotAt idx).len

/-- The four conditions of R152 that make a descriptor invalid. -/
abbrev DescBad (p : Params) (d : Desc) : Prop :=
  d.msb.toInt < 0 ∨ d.msb.toInt + 1 < ((d.npass.toNat + 4) / 3 : Nat) ∨
  (d.w = 0 ∨ p.maxw < d.w.toNat ∨ d.h = 0 ∨ p.maxh < d.h.toNat) ∨ (p.magw : Int) ≤ d.msb.toInt

/-- The unit of a command: `W[15:12]`, 0 for MQD, 1 for RAWD, 2 for the BPD (R80). -/
def commandUnit (i : Instr) : Nat := i.opcode.toNat / 16

/-- The code of a response, `RSP[6:4]` (R42). -/
def rspCode (r : BitVec 7) : BitVec 3 := r.extractLsb' 4 3

/-- The data of a response, `RSP[1:0]` (R42). -/
def rspData (r : BitVec 7) : BitVec 2 := r.extractLsb' 0 2

/-- Every cell of the latched block holds a legal value, whatever `CB_STAT` is (R37). -/
abbrev LegalBlock (s : State) : Prop := ∀ x, x < s.width → ∀ y, y < s.height → LegalCell (s.ctxAt x y)

/-- `Contribution(nx, ny)` of R174, by coordinates: 0 where the neighbour is absent or not significant, else -1 for a
negative coefficient and +1 for a positive one. -/
def State.contributionAt (s : State) (nx ny : Int) : Int :=
  if 0 ≤ nx ∧ nx < s.width ∧ 0 ≤ ny ∧ ny < s.height then
    if (s.ctxAt nx.toNat ny.toNat).natAbs ≤ 8 then 0
    else if (s.coefAt nx.toNat ny.toNat).sgn then -1 else 1
  else 0

/-- The positions that `MRP` refines, in scan order: the positive significant cells (R171). -/
def State.refined (s : State) : List (Nat × Nat) :=
  (scan s.width s.height).filter fun p => decide (15 ≤ s.ctxAt p.1 p.2)

/-- One decode for the cell at position `p`, with its context (R171). -/
def State.refineDecode (s : State) (m : Mqd) (p : Nat × Nat) : Bool × Mqd :=
  mqDecode s.segmem (Fin.ofNat 19 (s.ctxAt p.1 p.2).natAbs) m

/-- MQD after one decode for each of the positions `ps`, in their order (R171). -/
def State.refineDecodes (s : State) (ps : List (Nat × Nat)) : Mqd :=
  ps.foldl (fun m p => (s.refineDecode m p).2) s.mq

/-- The number of significant neighbours of `(x, y)` in class `k`: `ΣH`, `ΣV`, `ΣD` of R187. -/
def State.sigCount (s : State) (k : DirClass) (x y : Nat) : Nat :=
  (allDirs.filter fun d => decide (d.cls = k) &&
    match s.neighbour d x y with
    | some (nx, ny) => significant (s.ctxAt nx ny)
    | none => false).length

/-- The host's next action, where it is a write, names a cell that exists (R39, R40). -/
abbrev NextWriteOk (s : State) : Prop :=
  match s.pending with
  | .write (.segmem a) _ :: _ => a < s.cfg.segsize
  | .write (.reg (.segValid i)) _ :: _ => i < s.cfg.nslot
  | .write (.reg (.segBase i)) _ :: _ => i < s.cfg.nslot
  | .write (.reg (.segLen i)) _ :: _ => i < s.cfg.nslot
  | _ => True

/-- All the invariants together: what every state that a run from reset reaches satisfies. -/
structure Inv (s : State) : Prop where
  /-- MQD. -/
  mq : MqOk s
  /-- RAWD. -/
  raw : RawOk s
  /-- The sequencer. -/
  seq : SeqOk s
  /-- The context map. -/
  cells : CellsOk s
  /-- The coefficient buffer. -/
  coef : CoefOk s
  /-- Context 18. -/
  eq18 : EquiprobableOk s
  /-- The canonical form of the memories. -/
  wf : MemoriesWf s
  /-- The addresses of the memories. -/
  addr : AddressesOk s
  /-- The widths of the registers. -/
  widths : WidthsOk s

/-- What two machines must share for the block they decode to be the same (R163): the inputs, the latched
descriptor, the sequencer, the context file, and the cells of the block. -/
structure SameBlock (s1 s2 : State) : Prop where
  /-- The parameters. -/
  cfg : s1.cfg = s2.cfg
  /-- The segment table. -/
  segtab : s1.segtab = s2.segtab
  /-- Segment memory. -/
  segmem : s1.segmem = s2.segmem
  /-- The latched descriptor. -/
  lat : s1.lat = s2.lat
  /-- `CB_BP`. -/
  bp : s1.bp = s2.bp
  /-- `CB_PK`. -/
  pk : s1.pk = s2.pk
  /-- `CB_STAT`. -/
  stat : s1.stat = s2.stat
  /-- The context file. -/
  ctx : s1.mq.ctx = s2.mq.ctx
  /-- The context map of the block. -/
  cells : ∀ x y, s1.InBlock x y → s1.ctxAt x y = s2.ctxAt x y
  /-- The coefficients of the block. -/
  coef : ∀ x y, s1.InBlock x y → s1.coefAt x y = s2.coefAt x y

/-- The responses of `n` commands `i` issued one after the other. -/
def replies (i : Instr) : Nat → State → List (BitVec 7)
  | 0, _ => []
  | n + 1, s =>
    match exec i s with
    | .next t => t.rsp :: replies i n t
    | .fault _ => []
    | .refused _ => []

/-- The state after a list of commands issued one after the other (R89), where none stops the machine. -/
def issueAll : List Instr → State → Option State
  | [], s => some s
  | i :: is, s =>
    match exec i s with
    | .next t => issueAll is t
    | .fault _ => none
    | .refused _ => none

/-- The state after `n` commands `i` issued one after the other, where none stops the machine. -/
def issue (i : Instr) (n : Nat) (s : State) : Option State := issueAll (List.replicate n i) s

/-- The bytes of the segment `(base, len)`, in increasing address order (R62). -/
def segBytes (mem : Memory Byte) (base len : Nat) : List Byte := (List.range len).map fun i => segByte mem (base + i)

/-- The low `n` bits of a byte, most significant first (R62). -/
def byteBits (n : Nat) (b : Byte) : List Bool := (List.range n).map fun i => b.getLsbD (n - 1 - i)

/-- The bits of a raw segment (R95): most significant first, 8 of each byte, but 7 of a byte that directly follows
a `0xFF` byte; `after` says that the first byte does. -/
def rawBits (after : Bool) : List Byte → List Bool
  | [] => []
  | b :: bs => byteBits (if after then 7 else 8) b ++ rawBits (decide (b = 0xFF)) bs

/-- How many bytes directly follow a `0xFF` byte (R137). -/
def stuffed (after : Bool) : List Byte → Nat
  | [] => 0
  | b :: bs => after.toNat + stuffed (decide (b = 0xFF)) bs

/-- Position `p` is earlier than position `q` in the scan: `(y div 4, x, y mod 4)` is lexicographically smaller
(R160). -/
abbrev Earlier (p q : Nat × Nat) : Prop :=
  p.2 / 4 < q.2 / 4 ∨ (p.2 / 4 = q.2 / 4 ∧ (p.1 < q.1 ∨ (p.1 = q.1 ∧ p.2 % 4 < q.2 % 4)))

/-- The first table of R187: `LABEL` for group 0, by the numbers of significant neighbours of class H, V, D. -/
def labelBand (h v d : Nat) : Nat :=
  if h = 2 then 8
  else if h = 1 then (if 1 ≤ v then 7 else if 1 ≤ d then 6 else 5)
  else if v = 2 then 4
  else if v = 1 then 3
  else if 2 ≤ d then 2
  else d

/-- The second table of R187: `LABEL` for group 2. -/
def labelDiag (hv d : Nat) : Nat :=
  if 3 ≤ d then 8
  else if d = 2 then (if 1 ≤ hv then 7 else 6)
  else if d = 1 then (if 2 ≤ hv then 5 else if hv = 1 then 4 else 3)
  else if 2 ≤ hv then 2
  else hv

/-- `LABEL(g, ΣH, ΣV, ΣD)` (R187). -/
def label (g : Group) (h v d : Nat) : Nat :=
  match g with
  | .g0 => labelBand h v d
  | .g1 => labelBand v h d
  | .g2 => labelDiag (h + v) d

/-- The meaning of the magnitude of a cell that is not significant: the label of its neighbourhood (R187). -/
abbrev LabelsOk (s : State) : Prop :=
  s.Attached → ∀ x, x < s.width → ∀ y, y < s.height → significant (s.ctxAt x y) = false →
    (s.ctxAt x y).natAbs = label (groupOf s.lat.sb) (s.sigCount .horizontal x y) (s.sigCount .vertical x y)
      (s.sigCount .diagonal x y)

end Sys2Proof.Machine
end

