-- ==== Sys2Proof/Certificates/Slice0/Obligations.lean ====
section
/-! DEFINITION. The statements for the provers. Each docstring names the rules of spec/ the statement says. -/

set_option autoImplicit false

open Sys2Proof Sys2Proof.Machine

/-! ### Command words -/

/-- Decoding the word of a well-formed command gives the command back, with every operand at every value `OPD` admits
(R80, R82, R83, R84, R85). -/
def Obligations.DecodeEncodeRoundTrip : Prop :=
  ∀ i : Instr, i.WellFormed = true → decode (encode i) = .ok i

/-- What a legal command word decodes to is well-formed, has the opcode of the word, and has `OPD` as its operand where
it has one (R80, R82, R83, R85). -/
def Obligations.DecodedWordFields : Prop :=
  ∀ (w : CmdWord) (i : Instr), decode w = .ok i →
    i.WellFormed = true ∧ i.opcode = w.extractLsb' 8 8 ∧
    (i.opcode ∈ ([0x02, 0x04, 0x12, 0x14] : List (BitVec 8)) → i.operand = (w.extractLsb' 0 8).toNat)

/-- A command word whose opcode is none of the thirteen is refused with `ERR_OPC`: `FLT[0] <- 1`, `RSP <- 0x10`, and
nothing else changes (R212). -/
def Obligations.IllegalOpcodeRefused : Prop :=
  ∀ (s : State) (w : CmdWord) (rest : List HostAction), s.pending = .command w :: rest →
    w.extractLsb' 8 8 ∉ ([0x01, 0x02, 0x03, 0x04, 0x05, 0x11, 0x12, 0x13, 0x14, 0x15, 0x20, 0x21, 0x22] :
      List (BitVec 8)) →
    step s = .next { s with pending := rest, flt := s.flt ||| 0b00001, rsp := 0x10 }

/-- Where a command has no operand, two words that differ in `OPD` only select the same command with the same effect,
and the encoder emits 0 (R84). -/
def Obligations.UnusedOperandIgnored : Prop :=
  (∀ (w v : CmdWord) (s : State), w.extractLsb' 8 8 = v.extractLsb' 8 8 →
    w.extractLsb' 8 8 ∉ ([0x02, 0x04, 0x12, 0x14] : List (BitVec 8)) →
    decode w = decode v ∧ step (present w s) = step (present v s)) ∧
  (∀ i : Instr, i.opcode ∉ ([0x02, 0x04, 0x12, 0x14] : List (BitVec 8)) → (encode i).extractLsb' 0 8 = 0)

/-- A few words written out from the opcode table decode to the commands they stand for (R85, R89). -/
def Obligations.DecodeSampleWords : Prop :=
  decode 0x0409 = .ok (.mqDecode 9) ∧ decode 0x0203 = .ok (.mqAttach 3) ∧ decode 0x1201 = .ok (.rawAttach 1) ∧
  decode 0x2000 = .ok .cbAttach ∧ decode 0x21FF = .ok .cbStep ∧ decode 0x0600 = .error (.illegalOpcode 0x06)

/-- A step runs the command whose word the host presents: decoded, and with the word taken from the host's list
(R80, R89); `withFetchWord` presents such a word. With no action of the host the core holds its state (R229). The
list of pending actions is the model's own (log entry 3). -/
def Obligations.StepRunsDecodedCommand : Prop :=
  (∀ (s : State) (w : CmdWord) (rest : List HostAction) (i : Instr), s.pending = .command w :: rest →
    decode w = .ok i → step s = exec i { s with pending := rest }) ∧
  (∀ (s : State) (w : CmdWord) (i : Instr), decode w = .ok i → step (s.withFetchWord 16 w.toNat) = exec i s) ∧
  (∀ s : State, s.pending = [] → step s = .next s)

/-! ### Reset and the host -/

/-- Hardware reset, and the reset state: the status registers, `FLT`, `RSP` and every `VALID` bit are 0 and the context
file holds the startup states (R45, R240). -/
def Obligations.HardwareResetValues : Prop :=
  ∀ (s : State) (rest : List HostAction), s.pending = .hardReset :: rest → ∃ t, step s = .next t ∧
    ∀ u : State, u = t ∨ u = State.reset →
      u.mq.statWord = 0 ∧ u.raw.statWord = 0 ∧ u.stat = .idle ∧ u.flt = 0 ∧ u.rsp = 0 ∧
      (∀ i, (u.slotAt i).valid = false) ∧
      ∀ cx : Fin 19, u.mq.ctx[cx] =
        { idx := if cx = 0 then 4 else if cx = 9 then 3 else if cx = 18 then 46 else 0, mps := false }

/-- The reset state of every parameter choice satisfies the invariants of Safety.lean (R26, R27, R30, R35, R37, R38,
R109, R137). -/
def Obligations.ResetSatisfiesInvariants : Prop :=
  (∀ p : Params, Inv (State.resetWith p) ∧ LabelsOk (State.resetWith p)) ∧
  State.reset = State.resetWith Params.suggested ∧ Params.suggested.Legal

/-- The host's access to what is read-only. A write to a read-only register, by its number, or to `CTX` or `COEF`, is
ignored (R46, R48). A read of `CTX` or `COEF` at flat index `y * LWID + x` gives the cell of coefficient `(x, y)` of
the attached block, whose value is `(-1)^SGN * MAG`; the indices of distinct coefficients differ (R38, R65). That a
read beyond the block answers nothing is the model's choice (log entry 13). -/
def Obligations.HostReadOnlyAccess : Prop :=
  (∀ (s : State) (v : Nat) (rest : List HostAction),
    (∀ r : Reg, s.pending = .write (.reg r) v :: rest →
      (r.number < 0x40 ∨ (0x44 < r.number ∧ r.number < 0x100)) → step s = .next { s with pending := rest }) ∧
    (∀ a, s.pending = .write (.ctx a) v :: rest → step s = .next { s with pending := rest }) ∧
    (∀ a, s.pending = .write (.coef a) v :: rest → step s = .next { s with pending := rest })) ∧
  (∀ (s : State) (x y : Nat), x < s.lat.wid.toNat → y < s.lat.hgt.toNat →
    s.readCtx (y * s.lat.wid.toNat + x) = some (s.ctxAt x y) ∧
    s.readCoef (y * s.lat.wid.toNat + x) = some (s.coefAt x y) ∧
    (s.coefAt x y).value = (-1) ^ (s.coefAt x y).sgn.toNat * ((s.coefAt x y).mag.toNat : Int) ∧
    ∀ u v, u < s.lat.wid.toNat → v < s.lat.hgt.toNat →
      y * s.lat.wid.toNat + x = v * s.lat.wid.toNat + u → x = u ∧ y = v) ∧
  (∀ (s : State) (a : Nat), s.lat.wid.toNat * s.lat.hgt.toNat ≤ a → s.readCtx a = none ∧ s.readCoef a = none)

/-- A host write to a read-write register or a byte of segment memory is read back, cut to the width of R48, and changes
nothing else (R46, R48, R62). That the low bits are kept is the model's choice (log entry 7). -/
def Obligations.HostWritesReadBack : Prop :=
  ∀ (s : State) (v : Nat) (rest : List HostAction), MemoriesWf s →
    (∀ r : Reg, s.pending = .write (.reg r) v :: rest →
      ((0x40 ≤ r.number ∧ r.number ≤ 0x44) ∨
        ∃ i, i < s.cfg.nslot ∧ (r = .segValid i ∨ r = .segBase i ∨ r = .segLen i)) →
      ∃ t, step s = .next t ∧ t.readReg r = v % 2 ^ r.bits s.cfg ∧
        (∀ q : Reg, q ≠ r → t.readReg q = s.readReg q) ∧
        t = { s with pending := rest, desc := t.desc, segtab := t.segtab }) ∧
    (∀ a, s.pending = .write (.segmem a) v :: rest → a < s.cfg.segsize →
      ∃ t, step s = .next t ∧ segByte t.segmem a = BitVec.ofNat 8 v ∧
        (∀ b, b ≠ a → segByte t.segmem b = segByte s.segmem b) ∧
        t = { s with pending := rest, segmem := t.segmem })

/-! ### What commands write, and refusals -/

/-- What a command may write, by unit: no command writes the parameters, `DESC_*`, `SEGTAB` or `SEGMEM`; only `CB.ATTACH`
writes the latched descriptor; only BPD commands write the cells and the sequencer; only RAWD commands write RAWD and
they do not write MQD; `CB.ATTACH` writes of MQD the context file only (R33, R39, R40, R46, R130, R138, R153). -/
def Obligations.CommandFrames : Prop :=
  ∀ (i : Instr) (s t : State), exec i s = .next t →
    (t.cfg = s.cfg ∧ t.desc = s.desc ∧ t.segtab = s.segtab ∧ t.segmem = s.segmem ∧ t.pending = s.pending) ∧
    (i ≠ .cbAttach → t.lat = s.lat) ∧
    (commandUnit i ≠ 2 → t.ctxmap = s.ctxmap ∧ t.coef = s.coef ∧ t.bp = s.bp ∧ t.pk = s.pk ∧ t.stat = s.stat) ∧
    (commandUnit i ≠ 1 → t.raw = s.raw) ∧ (commandUnit i = 1 → t.mq = s.mq) ∧
    (i = .cbAttach → t.mq = { s.mq with ctx := t.mq.ctx })

/-- `FLT` is sticky and no command reads it, nor `RSP`: a command adds the bit of its refusal, or none when it completes,
and with any other `FLT` and `RSP` before, it does the same (R41, R42, R211, R222). -/
def Obligations.FaultRecordNeverRead : Prop :=
  ∀ (i : Instr) (s t : State), exec i s = .next t → ∃ m : BitVec 5,
    ((m = 0 ∧ rspCode t.rsp = 0) ∨ ∃ e : ErrCode, m = e.mask ∧ t.rsp = packRsp e.code 0) ∧
    ∀ (f : BitVec 5) (r : BitVec 7), exec i { s with flt := f, rsp := r } = .next { t with flt := f ||| m }

/-- What a refused command changes: one bit of `FLT`, `RSP`, and for `ERR_DESC` also `CB_STAT <- FAULT`; nothing else
(R10, R210, R221). -/
def Obligations.RefusalChangesNothing : Prop :=
  ∀ (s t : State) (w : CmdWord) (rest : List HostAction), s.pending = .command w :: rest → step s = .next t →
    rspCode t.rsp ≠ 0 → ∃ e : ErrCode,
      t = { s with pending := rest, flt := s.flt ||| e.mask, rsp := packRsp e.code 0,
                   stat := if e = .desc then .fault else s.stat }

/-- The response of every command: bits 3..2 are 0, the codes 6 and 7 are never produced, a refusal has no data, and the
data of a completed command is a bit for the four decodes, at most 2 for `CB.STEP`, and 0 for the others (R42, R87). -/
def Obligations.ResponseFormat : Prop :=
  ∀ (s t : State) (w : CmdWord) (rest : List HostAction), s.pending = .command w :: rest → step s = .next t →
    t.rsp.extractLsb' 2 2 = 0 ∧ rspCode t.rsp ≤ 5 ∧ (rspCode t.rsp ≠ 0 → rspData t.rsp = 0) ∧
    (w.extractLsb' 8 8 ∈ ([0x04, 0x05, 0x14, 0x15] : List (BitVec 8)) → rspData t.rsp ≤ 1) ∧
    (w.extractLsb' 8 8 = 0x21 → rspData t.rsp ≤ 2) ∧
    (w.extractLsb' 8 8 ∉ ([0x04, 0x05, 0x14, 0x15, 0x21] : List (BitVec 8)) → rspData t.rsp = 0)

/-! ### MQD -/

/-- The properties of the probability table that R101 lists. -/
def Obligations.MqTableProperties : Prop :=
  mqTab.length = 47 ∧
  ∀ i : Fin 47, (mqRow (BitVec.ofNat 6 i)).nmps ≤ 46 ∧ (mqRow (BitVec.ofNat 6 i)).nlps ≤ 46 ∧
    ((mqRow (BitVec.ofNat 6 i)).switch = true ↔ i = 0 ∨ i = 6 ∨ i = 14) ∧
    1 ≤ (mqRow (BitVec.ofNat 6 i)).qe ∧ (mqRow (BitVec.ofNat 6 i)).qe ≤ 0x5601 ∧
    (i = 46 → (mqRow (BitVec.ofNat 6 i)).nmps = 46 ∧ (mqRow (BitVec.ofNat 6 i)).nlps = 46) ∧
    (i = 45 → (mqRow (BitVec.ofNat 6 i)).nmps = 45)

/-- `MQ.RESET` always completes and writes the startup states and `RSP`, nothing else (R102). -/
def Obligations.MqResetResult : Prop :=
  ∀ s : State, ∃ t, exec .mqReset s = .next t ∧ t = { s with rsp := 0, mq := { s.mq with ctx := t.mq.ctx } } ∧
    ∀ cx : Fin 19, t.mq.ctx[cx] =
      { idx := if cx = 0 then 4 else if cx = 9 then 3 else if cx = 18 then 46 else 0, mps := false }

/-- `MQ.ATTACH s`: with a usable slot `MQ_BASE`, `MQ_LEN`, `ATT`, `RDY`; else `ERR_SLOT` and nothing else (R103). -/
def Obligations.MqAttachResult : Prop :=
  ∀ (slot : Nat) (s : State),
    (s.Usable slot → exec (.mqAttach slot) s = .next { s with
      rsp := 0
      mq := { s.mq with base := (s.slotAt slot).base, len := (s.slotAt slot).len, att := true, rdy := false } }) ∧
    (¬ s.Usable slot → exec (.mqAttach slot) s = .next { s with flt := s.flt ||| 0b01000, rsp := 0x40 })

/-- `FillLSB()`: the synthesized byte past the end, the synthesized byte at a marker with the diagnostic, the 7-bit byte
after a `0xFF`, and the ordinary byte (R104). -/
def Obligations.FillByteRule : Prop :=
  ∀ (mem : Memory Byte) (m : Mqd) (b : Byte), segByte mem (m.base + m.l) = b →
    (m.len ≤ m.l → fillLSB mem m = { m with c := m.c + 0xFF, t := 8 }) ∧
    (m.l < m.len → m.tr = 0xFF → 0x8F < b → fillLSB mem m = { m with c := m.c + 0xFF, t := 8, mrk := true }) ∧
    (m.l < m.len → m.tr = 0xFF → b ≤ 0x8F →
      fillLSB mem m = { m with c := m.c + b.setWidth 32 <<< 1, t := 7, tr := b, l := m.l + 1 }) ∧
    (m.l < m.len → m.tr ≠ 0xFF → fillLSB mem m = { m with c := m.c + b.setWidth 32, t := 8, tr := b, l := m.l + 1 })

/-- `MQ.RESTART` without a segment is refused with `ERR_SEQ`; with one, the registers after it, for the empty segment, the
one-byte segment, two ordinary bytes, a stuffed second byte, and a marker (R105). -/
def Obligations.MqRestartResult : Prop :=
  ∀ (s : State) (b0 b1 : Byte), segByte s.segmem s.mq.base = b0 → segByte s.segmem (s.mq.base + 1) = b1 →
    (s.mq.att = false → exec .mqRestart s = .next { s with flt := s.flt ||| 0b00100, rsp := 0x30 }) ∧
    (s.mq.att = true → s.mq.base + s.mq.len ≤ s.cfg.segsize →
      (s.mq.len = 0 → exec .mqRestart s = .next { s with
        rsp := 0
        mq := { s.mq with a := 0x8000, c := 0x007FFF80, t := 1, tr := 0, l := 0, mrk := false, rdy := true } }) ∧
      (s.mq.len = 1 → exec .mqRestart s = .next { s with
        rsp := 0
        mq := { s.mq with a := 0x8000, c := (b0.setWidth 32 <<< 8 + 0xFF) <<< 7, t := 1, tr := b0, l := 1,
                          mrk := false, rdy := true } }) ∧
      (2 ≤ s.mq.len → b0 ≠ 0xFF → exec .mqRestart s = .next { s with
        rsp := 0
        mq := { s.mq with a := 0x8000, c := (b0.setWidth 32 <<< 8 + b1.setWidth 32) <<< 7, t := 1, tr := b1, l := 2,
                          mrk := false, rdy := true } }) ∧
      (2 ≤ s.mq.len → b0 = 0xFF → b1 ≤ 0x8F → exec .mqRestart s = .next { s with
        rsp := 0
        mq := { s.mq with a := 0x8000, c := (0xFF00 + b1.setWidth 32 <<< 1) <<< 7, t := 0, tr := b1, l := 2,
                          mrk := false, rdy := true } }) ∧
      (2 ≤ s.mq.len → b0 = 0xFF → 0x8F < b1 → exec .mqRestart s = .next { s with
        rsp := 0
        mq := { s.mq with a := 0x8000, c := 0x007FFF80, t := 1, tr := 0xFF, l := 1, mrk := true, rdy := true } }))

/-- `RenormOnce()`: a fill exactly when `t = 0` and before the shift, then `A` and `C` shifted left by one and `t`
decremented. `Renorm()`, on the values it is called with, is `RenormOnce` between 1 and 15 times, until `A ≥ 0x8000`
and no further, and it ends with `A ≤ 0xFFFE` (R106). -/
def Obligations.RenormRule : Prop :=
  ∀ (mem : Memory Byte) (m : Mqd),
    (m.t ≠ 0 → renormOnce mem m = { m with a := m.a <<< 1, c := m.c <<< 1, t := m.t - 1 }) ∧
    (m.t = 0 → renormOnce mem m = { fillLSB mem m with
      a := m.a <<< 1, c := (fillLSB mem m).c <<< 1, t := (fillLSB mem m).t - 1 }) ∧
    (1 ≤ m.a → m.a < 0x8000 →
      ∃ k, 1 ≤ k ∧ k ≤ 15 ∧ renorm mem m = (renormOnce mem)^[k] m ∧
        (∀ j, j < k → ((renormOnce mem)^[j] m).a < 0x8000) ∧
        0x8000 ≤ (renorm mem m).a ∧ (renorm mem m).a ≤ 0xFFFE)

/-- `MQ.DECODE cx`: the refusals in their order, and the decoded bit, the context and the registers after it, computed
from the interval, the active slice and the row of the context's state (R107). -/
def Obligations.MqDecodeResult : Prop :=
  ∀ (cx : Nat) (s : State), MqOk s →
    (18 < cx → exec (.mqDecode cx) s = .next { s with flt := s.flt ||| 0b00010, rsp := 0x20 }) ∧
    (cx ≤ 18 → s.mq.rdy = false → exec (.mqDecode cx) s = .next { s with flt := s.flt ||| 0b00100, rsp := 0x30 }) ∧
    (∀ h : cx < 19, s.mq.rdy = true →
      let e := s.mq.ctx[cx]
      let row := mqRow e.idx
      let q := row.qe.toNat
      let a := s.mq.a.toNat - q
      let lower : Bool := decide (s.mq.c.extractLsb' 8 16 < row.qe)
      let lps : Bool := if lower then decide (q ≤ a) else decide (a < q)
      let moved : Bool := lower || decide (a < 0x8000)
      let entry : CtxEntry :=
        if lps then { idx := row.nlps, mps := Bool.xor e.mps row.switch }
        else if moved then { idx := row.nmps, mps := e.mps } else e
      let a1 := if lower then q else a
      let c1 := if lower then s.mq.c else s.mq.c - row.qe.setWidth 32 <<< 8
      ∃ k, k ≤ 15 ∧ 0x8000 ≤ a1 * 2 ^ k ∧ (∀ j, j < k → a1 * 2 ^ j < 0x8000) ∧
        exec (.mqDecode cx) s = .next { s with
          rsp := if Bool.xor e.mps lps then 1 else 0
          mq := (renormOnce s.segmem)^[k]
            { s.mq with a := BitVec.ofNat 32 a1, c := c1, ctx := s.mq.ctx.set cx entry } })

/-- `MQ.DECODEU` equals `MQ.DECODE 18`; with context 18 in its fixed state it decodes with `Qe = 0x5601` and the most
probable symbol 0 and leaves the whole context file as it was (R108). -/
def Obligations.MqDecodeuResult : Prop :=
  ∀ s : State, exec .mqDecodeu s = exec (.mqDecode 18) s ∧
    (s.mq.rdy = false → exec .mqDecodeu s = .next { s with flt := s.flt ||| 0b00100, rsp := 0x30 }) ∧
    (MqOk s → EquiprobableOk s → s.mq.rdy = true →
      let a := s.mq.a.toNat - 0x5601
      let lower : Bool := decide (s.mq.c.extractLsb' 8 16 < 0x5601#16)
      let bit : Bool := if lower then decide (0x5601 ≤ a) else decide (a < 0x5601)
      let a1 := if lower then 0x5601 else a
      let c1 := if lower then s.mq.c else s.mq.c - 0x560100
      ∃ k, k ≤ 15 ∧ 0x8000 ≤ a1 * 2 ^ k ∧ (∀ j, j < k → a1 * 2 ^ j < 0x8000) ∧
        exec .mqDecodeu s = .next { s with
          rsp := if bit then 1 else 0
          mq := (renormOnce s.segmem)^[k] { s.mq with a := BitVec.ofNat 32 a1, c := c1 } })

/-- The five operations act on disjoint parts of MQD, and on nothing outside it but `RSP` and, refused, `FLT`; a decode
writes one context only (R27, R100, R113). -/
def Obligations.MqOperationsDisjoint : Prop :=
  ∀ s t : State,
    (exec .mqReset s = .next t → t = { s with rsp := t.rsp, flt := t.flt, mq := { s.mq with ctx := t.mq.ctx } }) ∧
    (∀ slot, exec (.mqAttach slot) s = .next t → t = { s with
      rsp := t.rsp
      flt := t.flt
      mq := { s.mq with base := t.mq.base, len := t.mq.len, att := t.mq.att, rdy := t.mq.rdy } }) ∧
    (exec .mqRestart s = .next t → t = { s with
      rsp := t.rsp
      flt := t.flt
      mq := { s.mq with a := t.mq.a, c := t.mq.c, t := t.mq.t, tr := t.mq.tr, l := t.mq.l, rdy := t.mq.rdy,
                        mrk := t.mq.mrk } }) ∧
    (∀ cx, exec (.mqDecode cx) s = .next t ∨ (cx = 18 ∧ exec .mqDecodeu s = .next t) →
      t = { s with
        rsp := t.rsp
        flt := t.flt
        mq := { s.mq with a := t.mq.a, c := t.mq.c, t := t.mq.t, tr := t.mq.tr, l := t.mq.l, mrk := t.mq.mrk,
                          ctx := t.mq.ctx } } ∧
      ∀ k : Fin 19, k.val ≠ cx → t.mq.ctx[k] = s.mq.ctx[k])

/-- Any number of decodes can be issued once `RDY`, each on any context, and `MQ.DECODEU` among them: each completes and
none sets a `FLT` bit; past the end the cursor, the last byte and the diagnostic stay as they are (R110, R111). -/
def Obligations.PaddingNeverFaults : Prop :=
  ∀ (s : State) (is : List Instr), (∀ i ∈ is, i = .mqDecodeu ∨ ∃ cx, cx < 19 ∧ i = .mqDecode cx) → MqOk s →
    s.mq.rdy = true → ∃ t, issueAll is s = some t ∧ t.flt = s.flt ∧ t.mq.l ≤ t.mq.len ∧
      (is ≠ [] → rspCode t.rsp = 0) ∧
      (s.mq.len ≤ s.mq.l → t.mq.l = s.mq.l ∧ t.mq.tr = s.mq.tr ∧ t.mq.mrk = s.mq.mrk)

/-- No command depends on a byte of segment memory outside the segments: with any other memory that agrees on the segment
of MQD, on that of RAWD and on those of the valid slots, it does the same (R61, R75). -/
def Obligations.NoReadOutsideSegment : Prop :=
  ∀ (i : Instr) (s t : State) (m : Memory Byte), exec i s = .next t →
    (∀ k, k < s.mq.len → segByte m (s.mq.base + k) = segByte s.segmem (s.mq.base + k)) →
    (∀ k, k < s.raw.len → segByte m (s.raw.base + k) = segByte s.segmem (s.raw.base + k)) →
    (∀ p k, p < s.cfg.nslot → (s.slotAt p).valid = true → k < (s.slotAt p).len →
      segByte m ((s.slotAt p).base + k) = segByte s.segmem ((s.slotAt p).base + k)) →
    exec i { s with segmem := m } = .next { t with segmem := m }

/-- Bits 31..24 of `C` are never read: with two code registers that agree modulo 2^24, a decode gives the same bit and the
same registers, and code registers that agree modulo 2^24 (R22). -/
def Obligations.CodeRegisterHighBitsUnused : Prop :=
  ∀ (mem : Memory Byte) (cx : Fin 19) (m : Mqd) (c : Reg32), c.extractLsb' 0 24 = m.c.extractLsb' 0 24 →
    (mqDecode mem cx { m with c := c }).1 = (mqDecode mem cx m).1 ∧
    (mqDecode mem cx { m with c := c }).2 =
      { (mqDecode mem cx m).2 with c := (mqDecode mem cx { m with c := c }).2.c } ∧
    (mqDecode mem cx { m with c := c }).2.c.extractLsb' 0 24 = (mqDecode mem cx m).2.c.extractLsb' 0 24

/-- Every step keeps the invariants of MQD: `0x8000 ≤ A ≤ 0xFFFF`, `t ≤ 8`, `L ≤ MQ_LEN` once `RDY`; every `I[cx] ≤ 46`;
an attached segment lies inside segment memory (R26, R27, R109). -/
def Obligations.MqInvariantKept : Prop :=
  ∀ s t : State, MqOk s → step s = .next t → MqOk t

/-- Context 18 stays in state 46 with most probable symbol 0 under every step (R101, R108). -/
def Obligations.EquiprobableContextFixed : Prop :=
  ∀ s t : State, EquiprobableOk s → step s = .next t → EquiprobableOk t

/-! ### RAWD -/

/-- `RAW.RESET` always completes and changes nothing but `RSP` (R131). -/
def Obligations.RawResetResult : Prop :=
  ∀ s : State, exec .rawReset s = .next { s with rsp := 0 }

/-- `RAW.ATTACH s`: with a usable slot `RAW_BASE`, `RAW_LEN`, `ATT`, `RDY`; else `ERR_SLOT` and nothing else (R132). -/
def Obligations.RawAttachResult : Prop :=
  ∀ (slot : Nat) (s : State),
    (s.Usable slot → exec (.rawAttach slot) s = .next { s with
      rsp := 0
      raw := { s.raw with base := (s.slotAt slot).base, len := (s.slotAt slot).len, att := true, rdy := false } }) ∧
    (¬ s.Usable slot → exec (.rawAttach slot) s = .next { s with flt := s.flt ||| 0b01000, rsp := 0x40 })

/-- `RAW.RESTART`: refused without a segment, else the bit cursor at the start and no byte read (R133). -/
def Obligations.RawRestartResult : Prop :=
  ∀ s : State,
    (s.raw.att = false → exec .rawRestart s = .next { s with flt := s.flt ||| 0b00100, rsp := 0x30 }) ∧
    (s.raw.att = true → exec .rawRestart s = .next { s with
      rsp := 0, raw := { s.raw with rt := 0, bits := 0, rl := 0, rdy := true } })

/-- `RAW.DECODE cx`, for every `cx`, and `RAW.DECODEU`: refused without `RDY`; else a bit of the current byte, a bit 1 of
a synthesized byte past the end, or the first bit of the next byte, with 7 bits after a `0xFF` (R134, R135). -/
def Obligations.RawDecodeResult : Prop :=
  ∀ (s : State) (i : Instr) (b : Byte), RawOk s → (i = .rawDecodeu ∨ ∃ cx, i = .rawDecode cx) →
    segByte s.segmem (s.raw.base + s.raw.rl) = b →
    (s.raw.rdy = false → exec i s = .next { s with flt := s.flt ||| 0b00100, rsp := 0x30 }) ∧
    (s.raw.rdy = true →
      (0 < s.raw.bits → exec i s = .next { s with
        rsp := if s.raw.rt.getLsbD (s.raw.bits.toNat - 1) then 1 else 0
        raw := { s.raw with bits := s.raw.bits - 1 } }) ∧
      (s.raw.bits = 0 → s.raw.len ≤ s.raw.rl → exec i s = .next { s with
        rsp := 1, raw := { s.raw with rt := 0xFF, bits := 7 } }) ∧
      (s.raw.bits = 0 → s.raw.rl < s.raw.len → s.raw.rt = 0xFF → exec i s = .next { s with
        rsp := if b.getLsbD 6 then 1 else 0, raw := { s.raw with rt := b, bits := 6, rl := s.raw.rl + 1 } }) ∧
      (s.raw.bits = 0 → s.raw.rl < s.raw.len → s.raw.rt ≠ 0xFF → exec i s = .next { s with
        rsp := if b.getLsbD 7 then 1 else 0, raw := { s.raw with rt := b, bits := 7, rl := s.raw.rl + 1 } }))

/-- After `RAW.RESTART` any number of `RAW.DECODEU` answer the bits of the segment, most significant first, 7 of a byte
that directly follows a `0xFF`, and then 1 for ever; a segment of `n` bytes with `k` such bytes has `8n - k` bits
(R95, R134, R136, R137). -/
def Obligations.RawSegmentBits : Prop :=
  ∀ s : State, RawOk s → s.raw.att = true → ∃ t, exec .rawRestart s = .next t ∧
    (∀ n : Nat, replies .rawDecodeu n t =
      ((rawBits false (segBytes s.segmem s.raw.base s.raw.len) ++ List.replicate n true).take n).map
        fun b => if b then 1 else 0) ∧
    (rawBits false (segBytes s.segmem s.raw.base s.raw.len)).length +
      stuffed false (segBytes s.segmem s.raw.base s.raw.len) = 8 * s.raw.len

/-- Every step keeps the invariants of RAWD: `Rt ≤ 7` and `RL ≤ RAW_LEN` once `RDY`; an attached segment lies inside
segment memory (R30, R137). -/
def Obligations.RawInvariantKept : Prop :=
  ∀ s t : State, RawOk s → step s = .next t → RawOk t

/-- RAWD and the rest do not read each other, and `DESC_*` is read by `CB.ATTACH` only: a command of MQD or the BPD does
the same with any other RAWD, a command of RAWD with any other MQD, and every command but `CB.ATTACH` with any other
descriptor registers (R33, R130, R138, R249). Nothing is said of MQD and the BPD, which share MQD and its context
file (R112, R244). -/
def Obligations.RawdAndDescriptorIndependent : Prop :=
  ∀ (i : Instr) (s t : State), exec i s = .next t →
    (commandUnit i ≠ 1 → ∀ r : Rawd, exec i { s with raw := r } = .next { t with raw := r }) ∧
    (commandUnit i = 1 → ∀ m : Mqd, exec i { s with mq := m } = .next { t with mq := m }) ∧
    (i ≠ .cbAttach → ∀ d : Desc, exec i { s with desc := d } = .next { t with desc := d })

/-! ### The sequencer -/

/-- `numberOfBitPlanes = ceil((numCodingPasses + 2) / 3)`, at least 1, and it fits the 16 bits of `LNBP` (R151). -/
def Obligations.NumberOfBitPlanes : Prop :=
  (∀ n : Nat, n + 2 ≤ 3 * nbpOf n ∧ 3 * nbpOf n < n + 5 ∧ 1 ≤ nbpOf n) ∧
  (∀ d : Desc, nbpOf d.npass.toNat ≤ 21846 ∧ (latch d).nbp.toNat = nbpOf d.npass.toNat)

/-- `CB.ATTACH`: with an invalid descriptor `ERR_DESC`, `CB_STAT <- FAULT` and nothing else; with a valid one the latched
descriptor, every cell of the block 0, which a host read right after it returns, the startup contexts, the first state
`(LMSB, CUP)`, `CB_STAT = ACTIVE`, and nothing else: MQD's registers, RAWD and the host's state stay (R152, R153, R216,
R246). The last clause, that the cells outside the block keep their stored content, is the MODEL'S CHOICE (log entry
13): R65 and R153 call that content unspecified. -/
def Obligations.CbAttachResult : Prop :=
  ∀ s : State, MemoriesWf s →
    (DescBad s.cfg s.desc →
      exec .cbAttach s = .next { s with stat := .fault, flt := s.flt ||| 0b10000, rsp := 0x50 }) ∧
    (¬ DescBad s.cfg s.desc → ∃ t, exec .cbAttach s = .next t ∧
      t = { s with
        lat := { wid := s.desc.w, hgt := s.desc.h, sb := s.desc.sb, msb := s.desc.msb, npass := s.desc.npass,
                 nbp := BitVec.ofNat 16 ((s.desc.npass.toNat + 4) / 3) }
        mq := { s.mq with ctx := startupContexts }
        bp := s.desc.msb, pk := .cup, stat := .active, rsp := 0, ctxmap := t.ctxmap, coef := t.coef } ∧
      (∀ x, x < s.desc.w.toNat → ∀ y, y < s.desc.h.toNat →
        t.ctxAt x y = 0 ∧ t.coefAt x y = { sgn := false, mag := 0 } ∧
        t.readCtx (y * s.desc.w.toNat + x) = some 0 ∧
        t.readCoef (y * s.desc.w.toNat + x) = some { sgn := false, mag := 0 }) ∧
      (∀ a, s.desc.w.toNat * s.desc.h.toNat ≤ a →
        Memory.read blankCell t.ctxmap a = Memory.read blankCell s.ctxmap a ∧
        Memory.read blankCoef t.coef a = Memory.read blankCoef s.coef a))

/-- `CB.STEP`: refused in IDLE and FAULT; no step in DONE; an absent pass is skipped, and nothing but the sequencer moves;
an ill-formed slot is refused without an advance; else the pass runs on the freshly attached and restarted MQD and the
sequencer advances (R156, R157, R158). -/
def Obligations.CbStepResult : Prop :=
  ∀ s : State, SeqOk s →
    let idx := ((s.lat.msb.toInt - s.bp.toInt) * 3 + s.pk.ordinal - 2).toNat
    let bp := if s.pk = .cup then s.bp - 1 else s.bp
    let pk := match s.pk with
      | .cup => PassKind.spp
      | .spp => PassKind.mrp
      | .mrp => PassKind.cup
    let stat := if (s.lat.nbp.toNat : Int) ≤ s.lat.msb.toInt - bp.toInt then CbStat.done else CbStat.active
    (s.stat = .idle ∨ s.stat = .fault → exec .cbStep s = .next { s with flt := s.flt ||| 0b00100, rsp := 0x30 }) ∧
    (s.stat = .done → exec .cbStep s = .next { s with rsp := 2 }) ∧
    (s.stat = .active → s.Absent idx →
      exec .cbStep s = .next { s with bp := bp, pk := pk, stat := stat, rsp := 0 }) ∧
    (s.stat = .active → s.IllFormed idx →
      exec .cbStep s = .next { s with flt := s.flt ||| 0b01000, rsp := 0x40 }) ∧
    (s.stat = .active → ¬ s.Absent idx → ¬ s.IllFormed idx →
      exec .cbStep s = .next { runPass s.pk s.bp.toInt.toNat { s with
        mq := mqRestart s.segmem
          { s.mq with base := (s.slotAt idx).base, len := (s.slotAt idx).len, att := true } } with
        bp := bp, pk := pk, stat := stat, rsp := 1 })

/-- The pass index is 0 right after a completing `CB.ATTACH`, never negative, and each transition adds one; the block is
DONE exactly when it has passed `3 * LNBP - 3` (R154, R155). -/
def Obligations.PassIndexAdvancesByOne : Prop :=
  ∀ s t : State,
    (exec .cbAttach s = .next t → t.stat = .active → t.passIdx = 0) ∧
    (SeqOk s → s.stat = .active → 0 ≤ s.passIdx ∧
      (exec .cbStep s = .next t → rspCode t.rsp = 0 →
        t.passIdx = s.passIdx + 1 ∧ (t.stat = .done ↔ t.passIdx = 3 * (s.lat.nbp.toNat : Int) - 2)))

/-- From the initial state of a block, `CB.STEP` visits the pass indices 0, 1, 2, … without gaps and reaches the terminal
state `(LMSB - LNBP, SPP)` after exactly `3 * LNBP - 2` transitions; the indices visited contain all the passes of the
descriptor (R155). -/
def Obligations.CbTerminalAfterAllPasses : Prop :=
  ∀ s : State, SeqOk s → s.stat = .active → s.passIdx = 0 →
    (∀ p, p + 3 ≤ 3 * s.lat.nbp.toNat → ¬ s.IllFormed p) →
    s.lat.npass.toNat ≤ 3 * s.lat.nbp.toNat - 2 ∧ ∀ n : Nat, ∃ u, issue .cbStep n s = some u ∧ (u.stat = .done ↔ 3 * s.lat.nbp.toNat - 2 ≤ n) ∧
      (n ≤ 3 * s.lat.nbp.toNat - 2 → u.passIdx = n) ∧
      (u.stat = .done → u.bp.toInt = s.lat.msb.toInt - s.lat.nbp.toNat ∧ -1 ≤ u.bp.toInt ∧ u.pk = .spp)

/-- `CB.RUN`: refused in IDLE and FAULT, nothing in DONE, refused before it does anything where a remaining pass has an
ill-formed slot; else its effect on all state except `RSP` is that of `CB.STEP` until DONE, in at most `3 * LNBP - 2`
transitions (R159). -/
def Obligations.CbRunResult : Prop :=
  ∀ s : State, SeqOk s →
    let idx := ((s.lat.msb.toInt - s.bp.toInt) * 3 + s.pk.ordinal - 2).toNat
    (s.stat = .idle ∨ s.stat = .fault → exec .cbRun s = .next { s with flt := s.flt ||| 0b00100, rsp := 0x30 }) ∧
    (s.stat = .done → exec .cbRun s = .next { s with rsp := 0 }) ∧
    (s.stat = .active → (∃ p, idx ≤ p ∧ p + 3 ≤ 3 * s.lat.nbp.toNat ∧ s.IllFormed p) →
      exec .cbRun s = .next { s with flt := s.flt ||| 0b01000, rsp := 0x40 }) ∧
    (s.stat = .active → (∀ p, idx ≤ p → p + 3 ≤ 3 * s.lat.nbp.toNat → ¬ s.IllFormed p) →
      ∃ (n : Nat) (u : State), n ≤ 3 * s.lat.nbp.toNat - 2 ∧ issue .cbStep n s = some u ∧ u.stat = .done ∧
        u.flt = s.flt ∧ exec .cbRun s = .next { u with rsp := 0 })

/-- Every step keeps the sequencer at one of the passes of a valid latched descriptor, or, DONE, at the terminal state
(R33, R34, R154, R155). -/
def Obligations.SequencerInvariantKept : Prop :=
  ∀ s t : State, SeqOk s → step s = .next t → SeqOk t

/-! ### The whole machine -/

/-- Every cell of the attached block holds one of the enumerated values after every step (R37). -/
def Obligations.CellValuesInvariantKept : Prop :=
  ∀ s t : State, MemoriesWf s → CellsOk s → step s = .next t → CellsOk t

/-- A coefficient of the attached block that is not significant has `MAG = 0` and `SGN = 0` after every step (R38). -/
def Obligations.CoefInvariantKept : Prop :=
  ∀ s t : State, MemoriesWf s → CellsOk s → CoefOk s → step s = .next t → CoefOk t

/-- After every step the magnitude of a cell that is not significant is the label of its neighbourhood: the incremental
tables compute the labels (R187). -/
def Obligations.LabelInvariantKept : Prop :=
  ∀ s t : State, MemoriesWf s → CellsOk s → LabelsOk s → step s = .next t → LabelsOk t

/-- Every step keeps the canonical form of the memories, which is the model's own, and every listed cell at an address that
exists and of the width the spec gives it (R25, R26, R29, R30, R36, R38, R39, R40). -/
def Obligations.MemoryInvariantsKept : Prop :=
  ∀ s t : State, step s = .next t → (MemoriesWf s → MemoriesWf t) ∧ (Inv s → AddressesOk t ∧ WidthsOk t)

/-- Every command completes or is refused, and neither stops the machine: in a state with the invariants of the units, and
with no host write to a cell that does not exist, a step answers a next state (R10, R210, R248). -/
def Obligations.CommandsNeverStop : Prop :=
  ∀ s : State, MqOk s → RawOk s → SeqOk s → NextWriteOk s → ∃ t, step s = .next t

/-! ### The pass engines -/

/-- `SIGNCTX` and what it is looked up with: the nine cells; the sign context of a coefficient is the cell at the
horizontal and the vertical sum of the contributions of its direct neighbours, each clamped to its sign; and every sign
context lies in the value set, so that every sign is decoded with a context 10..14 (R94, R174, R175, R188). -/
def Obligations.SignContextTable : Prop :=
  (signCtx 1 (-1) = 12 ∧ signCtx 1 0 = 13 ∧ signCtx 1 1 = 14 ∧ signCtx 0 (-1) = -11 ∧ signCtx 0 0 = 10 ∧
    signCtx 0 1 = 11 ∧ signCtx (-1) (-1) = -14 ∧ signCtx (-1) 0 = -13 ∧ signCtx (-1) 1 = -12) ∧
  ∀ (s : State) (x y : Nat),
    s.signContext x y = signCtx (Int.sign (s.contributionAt (x - 1) y + s.contributionAt (x + 1) y))
      (Int.sign (s.contributionAt x (y - 1) + s.contributionAt x (y + 1))) ∧
    s.signContext x y ∈ ([-14, -13, -12, -11, 10, 11, 12, 13, 14] : List Int)

/-- The neighbour-update tables are the maps from a label to the label with one more significant neighbour of the class;
they never lower a magnitude and stay within 8 (R187, R191). -/
def Obligations.NextTablesFollowLabels : Prop :=
  ∀ g : Group,
    (∀ h, h ≤ 2 → ∀ v, v ≤ 2 → ∀ d, d ≤ 4 →
      (h < 2 → nextMag g .horizontal (label g h v d) = label g (h + 1) v d) ∧
      (v < 2 → nextMag g .vertical (label g h v d) = label g h (v + 1) d) ∧
      (d < 4 → nextMag g .diagonal (label g h v d) = label g h v (d + 1))) ∧
    ∀ (k : DirClass) (m : Nat), m ≤ 8 → m ≤ nextMag g k m ∧ nextMag g k m ≤ 8

/-- A neighbour is the adjacent coefficient where that lies in the block, absent elsewhere, and `Later(d, y)` holds exactly
where it comes later in the scan order (R66, R179, R180). -/
def Obligations.LaterIsScanOrder : Prop :=
  ∀ (s : State) (d : Dir) (x y nx ny : Nat),
    (s.neighbour d x y = some (nx, ny) ↔ (nx : Int) = x + d.dx ∧ (ny : Int) = y + d.dy ∧ s.InBlock nx ny) ∧
    (s.neighbour d x y = some (nx, ny) → (later d y = true ↔ Earlier (x, y) (nx, ny)))

/-- `NeighborUpdate(x, y, origin)`: the own context, the promotion of `±15`, the table and the sign rule for each neighbour,
and nothing else (R176, R177, R178, R181). -/
def Obligations.NeighbourUpdateCells : Prop :=
  ∀ (s : State) (x y : Nat) (o : Origin), MemoriesWf s → s.InBlock x y →
    let t := neighborUpdate x y o s
    t = { s with ctxmap := t.ctxmap } ∧
    ((∃ d nx ny, s.neighbour d x y = some (nx, ny) ∧ 15 ≤ (s.ctxAt nx ny).natAbs) →
      t.ctxAt x y = if o = .cleanup then 16 else -16) ∧
    ((∀ d nx ny, s.neighbour d x y = some (nx, ny) → (s.ctxAt nx ny).natAbs < 15) →
      t.ctxAt x y = if o = .cleanup then 15 else -15) ∧
    (∀ d nx ny, s.neighbour d x y = some (nx, ny) →
      ((s.ctxAt nx ny).natAbs = 15 → t.ctxAt nx ny = if 0 < s.ctxAt nx ny then 16 else -16) ∧
      ((s.ctxAt nx ny).natAbs ≤ 8 → t.ctxAt nx ny =
        if s.ctxAt nx ny ≤ 0 ∧ (later d y = true ↔ o = .cleanup) then
          -(nextMag (groupOf s.lat.sb) d.cls (s.ctxAt nx ny).natAbs : Int)
        else nextMag (groupOf s.lat.sb) d.cls (s.ctxAt nx ny).natAbs) ∧
      (8 < (s.ctxAt nx ny).natAbs → (s.ctxAt nx ny).natAbs ≠ 15 → t.ctxAt nx ny = s.ctxAt nx ny)) ∧
    (∀ u v, s.InBlock u v → ¬ (u = x ∧ v = y) → (∀ d, s.neighbour d x y ≠ some (u, v)) →
      t.ctxAt u v = s.ctxAt u v)

/-- `Signify(x, y, b, origin)` on a coefficient that is not significant: the magnitude has the bits `b` and `b - 1`, the
sign is negative exactly where the decoded bit and the sign context say so, the neighbours are updated, and no other
coefficient changes (R173, R174). -/
def Obligations.SignifyResult : Prop :=
  ∀ (s : State) (x y b : Nat) (o : Origin), MemoriesWf s → s.InBlock x y → b < 128 →
    significant (s.ctxAt x y) = false → s.coefAt x y = { sgn := false, mag := 0 } →
    let t := signify x y b o s
    let sc := s.signContext x y
    let r := mqDecode s.segmem (Fin.ofNat 19 sc.natAbs) s.mq
    t = { s with mq := r.2, ctxmap := (neighborUpdate x y o s).ctxmap, coef := t.coef } ∧
    ((t.coefAt x y).sgn = true ↔ (0 < sc ∧ r.1 = true) ∨ (sc < 0 ∧ r.1 = false)) ∧
    (∀ j, (t.coefAt x y).mag.getLsbD j = true ↔ j = b ∨ j + 1 = b) ∧
    (∀ u v, s.InBlock u v → ¬ (u = x ∧ v = y) → t.coefAt u v = s.coefAt u v)

/-- `MRP(b)`: a positive significant cell is refined, bit `b` replaced by the decoded bit and the half-bit set below it,
and marked 17; a negative one is flipped; any other is left. The decoded bit of a cell is the one that MQD gives for the
cell's context after one decode for each positive significant cell earlier in the scan, and after the pass MQD has made
one decode for each of them (R171). -/
def Obligations.MrpResult : Prop :=
  ∀ (s : State) (b : Nat), MemoriesWf s → LegalBlock s → b < 128 →
    (mrp b s).mq = s.refineDecodes s.refined ∧
    mrp b s = { s with mq := (mrp b s).mq, ctxmap := (mrp b s).ctxmap, coef := (mrp b s).coef } ∧
    ∀ x y, s.InBlock x y →
      ((s.ctxAt x y).natAbs < 15 → (mrp b s).ctxAt x y = s.ctxAt x y ∧ (mrp b s).coefAt x y = s.coefAt x y) ∧
      (s.ctxAt x y ≤ -15 → (mrp b s).ctxAt x y = -s.ctxAt x y ∧ (mrp b s).coefAt x y = s.coefAt x y) ∧
      (15 ≤ s.ctxAt x y → (mrp b s).ctxAt x y = 17 ∧ ((mrp b s).coefAt x y).sgn = (s.coefAt x y).sgn ∧
        ∀ j, ((mrp b s).coefAt x y).mag.getLsbD j =
          if j = b then
            (s.refineDecode (s.refineDecodes (s.refined.filter fun p => decide (Earlier p (x, y)))) (x, y)).1
          else if j + 1 = b then true else (s.coefAt x y).mag.getLsbD j)

/-- What `SPP` and `CUP` do at each cell, in scan order, on the state the earlier cells left. `SPP`, at a cell 1..8: a decode
with that context, and `Signify` with origin `PROP` on a 1. `CUP`, at a cell -8..0: the cell negated, a decode with its
magnitude, and `Signify` with origin `CLEANUP` on a 1. `CUP`, at a column of four rows that are all 0: a decode with
context 9; on a 1 two decodes with context 18, the first the more significant bit of the row found, that row made
significant, and the rows after it one by one; at any other column, its rows one by one. No pass touches a cell that is
not its own, and with none of its own it changes nothing (R160, R170, R171, R172). -/
def Obligations.PassCellRules : Prop :=
  ∀ (s : State) (b : Nat),
    (spp b s = (scan s.width s.height).foldl (sppCell b) s ∧
      cup b s = (scanColumns s.width s.height).foldl (cupColumn b) s ∧
      ((scanColumns s.width s.height).flatMap fun col => (List.range' col.top col.rows).map fun y => (col.x, y)) =
        scan s.width s.height ∧
      ∀ col ∈ scanColumns s.width s.height,
        col.x < s.width ∧ col.top % 4 = 0 ∧ col.top < s.height ∧ col.rows = min 4 (s.height - col.top)) ∧
    (∀ x y c : Nat,
      (1 ≤ c → c ≤ 8 → s.ctxAt x y = c →
        let r := mqDecode s.segmem (Fin.ofNat 19 c) s.mq
        sppCell b s (x, y) =
          if r.1 = true then signify x y b .prop { s with mq := r.2 } else { s with mq := r.2 }) ∧
      (s.ctxAt x y < 1 ∨ 8 < s.ctxAt x y → sppCell b s (x, y) = s) ∧
      (c ≤ 8 → s.ctxAt x y = -c →
        let r := mqDecode s.segmem (Fin.ofNat 19 c) s.mq
        cupCell b s (x, y) =
          if r.1 = true then signify x y b .cleanup { s.setCtx x y c with mq := r.2 }
          else { s.setCtx x y c with mq := r.2 }) ∧
      (s.ctxAt x y < -8 ∨ 0 < s.ctxAt x y → cupCell b s (x, y) = s)) ∧
    (∀ x top rows : Nat,
      let zeroRun := rows = 4 ∧ ∀ y, top ≤ y → y < top + 4 → s.ctxAt x y = 0
      let run := mqDecode s.segmem 9 s.mq
      let k1 := mqDecode s.segmem 18 run.2
      let k0 := mqDecode s.segmem 18 k1.2
      let k := 2 * k1.1.toNat + k0.1.toNat
      (zeroRun → run.1 = false → cupColumn b s { top := top, rows := rows, x := x } = { s with mq := run.2 }) ∧
      (zeroRun → run.1 = true → cupColumn b s { top := top, rows := rows, x := x } =
        ((List.range' (top + k + 1) (3 - k)).map fun y => (x, y)).foldl (cupCell b)
          (signify x (top + k) b .cleanup { s with mq := k0.2 })) ∧
      (¬ zeroRun → cupColumn b s { top := top, rows := rows, x := x } =
        ((List.range' top rows).map fun y => (x, y)).foldl (cupCell b) s)) ∧
    ((∀ x y, s.InBlock x y → ¬ (1 ≤ s.ctxAt x y ∧ s.ctxAt x y ≤ 8)) → spp b s = s) ∧
    ((∀ x y, s.InBlock x y → (s.ctxAt x y).natAbs < 15) → mrp b s = s) ∧
    ((∀ x y, s.InBlock x y → ¬ (-8 ≤ s.ctxAt x y ∧ s.ctxAt x y ≤ 0)) → cup b s = s)

/-- A significant coefficient stays significant through every pass; no pass changes its sign or a magnitude bit above its
own bit-plane, and only a magnitude refinement changes its magnitude at all (R38). -/
def Obligations.SignificantCoefficientsKept : Prop :=
  ∀ (s : State) (k : PassKind) (b x y : Nat), MemoriesWf s → LegalBlock s → b < 128 → s.InBlock x y →
    significant (s.ctxAt x y) = true →
    significant ((runPass k b s).ctxAt x y) = true ∧
    ((runPass k b s).coefAt x y).sgn = (s.coefAt x y).sgn ∧
    (∀ j, b < j → ((runPass k b s).coefAt x y).mag.getLsbD j = (s.coefAt x y).mag.getLsbD j) ∧
    (k ≠ .mrp → (runPass k b s).coefAt x y = s.coefAt x y)

/-- After a cleanup pass no cell of the block is in -8..-1, and where no significant cell was negative before it, no cell
is negative at all (R172, R181, R186). -/
def Obligations.CleanupLeavesNoNegative : Prop :=
  ∀ (s : State) (b : Nat), MemoriesWf s → LegalBlock s →
    (∀ x y, s.InBlock x y → (cup b s).ctxAt x y < 0 → (cup b s).ctxAt x y ≤ -15) ∧
    ((∀ x y, s.InBlock x y → -15 < s.ctxAt x y) → ∀ x y, s.InBlock x y → 0 ≤ (cup b s).ctxAt x y)

/-- The scan visits every position of the block, each once, in the order `(y div 4, x, y mod 4)` (R160). -/
def Obligations.ScanOrder : Prop :=
  ∀ w h : Nat, (scan w h).Pairwise Earlier ∧ ∀ p : Nat × Nat, p ∈ scan w h ↔ p.1 < w ∧ p.2 < h

/-! ### The code-block -/

/-- Idempotence of emptiness: where no pass has a segment, `CB.ATTACH` and `CB.RUN` leave every cell of the block 0, MQD's
registers untouched and the context file at the startup states (R162). -/
def Obligations.EmptyBlockStaysZero : Prop :=
  ∀ s : State, MemoriesWf s → ¬ DescBad s.cfg s.desc →
    (∀ p, p < s.desc.npass.toNat → p < s.cfg.nslot → (s.slotAt p).valid = false) →
    ∃ t u, exec .cbAttach s = .next t ∧ exec .cbRun t = .next u ∧ u.stat = .done ∧ u.rsp = 0 ∧ u.flt = s.flt ∧
      u.mq = { s.mq with ctx := startupContexts } ∧
      ∀ x, x < s.desc.w.toNat → ∀ y, y < s.desc.h.toNat →
        u.ctxAt x y = 0 ∧ u.coefAt x y = { sgn := false, mag := 0 }

/-- What a completing `CB.ATTACH` leaves is a function of the descriptor registers: two machines that share them, the
parameters, the segment table and segment memory agree on the block right after it, whatever each decoded before
(R163, R246). -/
def Obligations.AttachForgetsOldBlock : Prop :=
  ∀ s1 s2 : State, MemoriesWf s1 → MemoriesWf s2 → s1.cfg = s2.cfg → s1.desc = s2.desc → s1.segtab = s2.segtab →
    s1.segmem = s2.segmem → ¬ DescBad s1.cfg s1.desc →
    ∃ t1 t2, exec .cbAttach s1 = .next t1 ∧ exec .cbAttach s2 = .next t2 ∧ t1.rsp = t2.rsp ∧ SameBlock t1 t2 ∧
      MemoriesWf t1 ∧ MemoriesWf t2

/-- Zero state bleed: two machines that agree on the block and its inputs, and differ in anything else (MQD's registers,
the cells outside the block, RAWD, the descriptor registers, `FLT`), give the same response to `CB.STEP` and to
`CB.RUN` and agree on the block after it (R163). -/
def Obligations.NoStateBleed : Prop :=
  ∀ (s1 s2 t1 : State) (i : Instr), MemoriesWf s1 → MemoriesWf s2 → SameBlock s1 s2 → (i = .cbStep ∨ i = .cbRun) →
    exec i s1 = .next t1 →
    ∃ t2, exec i s2 = .next t2 ∧ t2.rsp = t1.rsp ∧ SameBlock t1 t2 ∧ MemoriesWf t1 ∧ MemoriesWf t2
end

