-- ==== Sys2Proof/Laws/Memory.lean ====
section
/-! SUPPORT. The laws of the sparse memory: a read after a write, and that every memory operation keeps the
canonical form. -/

namespace Sys2Proof.Machine

variable {α : Type} [DecidableEq α] {d : α}

theorem Memory.wfFrom_mono {lo lo' : Nat} {m : Memory α} (h : lo' ≤ lo)
    (hm : Memory.wfFrom d lo m = true) : Memory.wfFrom d lo' m = true := by
  cases m with
  | nil => rfl
  | cons p m =>
    obtain ⟨k, v⟩ := p
    simp only [Memory.wfFrom, Bool.and_eq_true, decide_eq_true_eq] at hm ⊢
    exact ⟨⟨by omega, hm.1.2⟩, hm.2⟩

theorem Memory.wfFrom_cons {lo k : Nat} {v : α} {m : Memory α} :
    Memory.wfFrom d lo ((k, v) :: m) = true ↔ lo ≤ k ∧ v ≠ d ∧ Memory.wfFrom d (k + 1) m = true := by
  simp [Memory.wfFrom, and_assoc]

/-- Below its first address a memory reads as nothing written. -/
theorem Memory.read_below {lo a : Nat} {m : Memory α} (hm : Memory.wfFrom d lo m = true) (h : a < lo) :
    Memory.read d m a = d := by
  cases m with
  | nil => rfl
  | cons p m =>
    obtain ⟨k, v⟩ := p
    have := (Memory.wfFrom_cons.mp hm).1
    rw [Memory.read, if_neg (by omega), if_pos (by omega)]

theorem Memory.wfFrom_write {lo a : Nat} {v : α} {m : Memory α} (hm : Memory.wfFrom d lo m = true)
    (h : lo ≤ a) : Memory.wfFrom d lo (Memory.write d m a v) = true := by
  induction m generalizing lo with
  | nil =>
    by_cases hv : v = d
    · simp [Memory.write, hv, Memory.wfFrom]
    · simp [Memory.write, hv, Memory.wfFrom, h]
  | cons p m ih =>
    obtain ⟨k, w⟩ := p
    obtain ⟨hk, hw, hrest⟩ := Memory.wfFrom_cons.mp hm
    rw [Memory.write]
    split_ifs with h1 h2 h3 h4
    · exact hm
    · exact Memory.wfFrom_cons.mpr ⟨h, h2, Memory.wfFrom_cons.mpr ⟨by omega, hw, hrest⟩⟩
    · exact Memory.wfFrom_mono (by omega) hrest
    · exact Memory.wfFrom_cons.mpr ⟨h, h4, Memory.wfFrom_mono (by omega) hrest⟩
    · exact Memory.wfFrom_cons.mpr ⟨hk, hw, ih hrest (by omega)⟩

/-- A write keeps the canonical form. -/
theorem Memory.wf_write {m : Memory α} (hm : Memory.wf d m = true) (a : Nat) (v : α) :
    Memory.wf d (Memory.write d m a v) = true :=
  Memory.wfFrom_write hm (Nat.zero_le a)

/-- A read after a write to the same address gives the value written. -/
theorem Memory.read_write_same {lo : Nat} {m : Memory α} (hm : Memory.wfFrom d lo m = true) (a : Nat)
    (v : α) : Memory.read d (Memory.write d m a v) a = v := by
  induction m generalizing lo with
  | nil =>
    by_cases hv : v = d
    · simp [Memory.write, Memory.read, hv]
    · simp [Memory.write, Memory.read, hv]
  | cons p m ih =>
    obtain ⟨k, w⟩ := p
    obtain ⟨_, _, hrest⟩ := Memory.wfFrom_cons.mp hm
    rw [Memory.write]
    split_ifs with h1 h2 h3 h4
    · rw [h2, Memory.read, if_neg (by omega), if_pos h1]
    · rw [Memory.read, if_pos rfl]
    · rw [h4, Memory.read_below hrest (by omega)]
    · rw [Memory.read, if_pos rfl]
    · rw [Memory.read, if_neg h3, if_neg h1]
      exact ih hrest

/-- A write leaves every other address alone. -/
theorem Memory.read_write_other {lo : Nat} {m : Memory α} (hm : Memory.wfFrom d lo m = true) {a b : Nat}
    (h : b ≠ a) (v : α) : Memory.read d (Memory.write d m a v) b = Memory.read d m b := by
  induction m generalizing lo with
  | nil =>
    by_cases hv : v = d
    · simp [Memory.write, hv]
    · simp [Memory.write, Memory.read, hv, h]
  | cons p m ih =>
    obtain ⟨k, w⟩ := p
    obtain ⟨_, _, hrest⟩ := Memory.wfFrom_cons.mp hm
    rw [Memory.write]
    split_ifs with h1 h2 h3 h4
    · rfl
    · simp only [Memory.read]
      split_ifs <;> first | rfl | omega
    · subst h3
      rw [Memory.read, if_neg h]
      split_ifs with hb
      · exact Memory.read_below hrest (by omega)
      · rfl
    · subst h3
      simp only [Memory.read, if_neg h]
    · simp only [Memory.read]
      rw [ih hrest]

theorem Memory.wfFrom_clearBelow {n lo : Nat} {m : Memory α} (hm : Memory.wfFrom d lo m = true) :
    Memory.wfFrom d lo (Memory.clearBelow n m) = true := by
  induction m generalizing lo with
  | nil => rfl
  | cons p m ih =>
    obtain ⟨k, w⟩ := p
    obtain ⟨hk, hw, hrest⟩ := Memory.wfFrom_cons.mp hm
    by_cases h : n ≤ k
    · simp only [Memory.clearBelow, List.filter, h, decide_true]
      exact Memory.wfFrom_cons.mpr ⟨hk, hw, ih hrest⟩
    · simp only [Memory.clearBelow, List.filter, h, decide_false]
      exact Memory.wfFrom_mono (by omega) (ih hrest)

/-- Clearing keeps the canonical form. -/
theorem Memory.wf_clearBelow {m : Memory α} (hm : Memory.wf d m = true) (n : Nat) :
    Memory.wf d (Memory.clearBelow n m) = true :=
  Memory.wfFrom_clearBelow hm

/-- After clearing, an address below `n` reads as nothing written and any other as before. -/
theorem Memory.read_clearBelow {n lo : Nat} {m : Memory α} (hm : Memory.wfFrom d lo m = true) (a : Nat) :
    Memory.read d (Memory.clearBelow n m) a = if a < n then d else Memory.read d m a := by
  induction m generalizing lo with
  | nil => simp [Memory.clearBelow, Memory.read]
  | cons p m ih =>
    obtain ⟨k, w⟩ := p
    obtain ⟨_, _, hrest⟩ := Memory.wfFrom_cons.mp hm
    by_cases h : n ≤ k
    · have hcut : Memory.clearBelow n ((k, w) :: m) = (k, w) :: Memory.clearBelow n m := by
        simp [Memory.clearBelow, h]
      rw [hcut, Memory.read, Memory.read, ih hrest]
      split_ifs <;> first | rfl | omega
    · have hcut : Memory.clearBelow n ((k, w) :: m) = Memory.clearBelow n m := by
        simp [Memory.clearBelow, h]
      rw [hcut, ih hrest]
      split_ifs with ha
      · rfl
      · rw [Memory.read, if_neg (by omega), if_neg (by omega)]

/-- The addresses a write can list are the old ones and the one written. -/
theorem Memory.mem_write {m : Memory α} {a : Nat} {v : α} {p : Nat × α}
    (h : p ∈ Memory.write d m a v) : p ∈ m ∨ p = (a, v) := by
  induction m with
  | nil =>
    rw [Memory.write] at h
    split_ifs at h
    · simp at h
    · exact .inr (by simpa using h)
  | cons q m ih =>
    obtain ⟨k, w⟩ := q
    rw [Memory.write] at h
    split_ifs at h with h1 h2 h3 h4
    · exact .inl h
    · exact (List.mem_cons.mp h).elim .inr .inl
    · exact .inl (List.mem_cons_of_mem _ h)
    · exact (List.mem_cons.mp h).elim .inr fun h => .inl (List.mem_cons_of_mem _ h)
    · refine (List.mem_cons.mp h).elim (fun h => .inl (h ▸ List.mem_cons_self)) fun h => ?_
      exact (ih h).imp_left (List.mem_cons_of_mem _)

omit [DecidableEq α] in
/-- Clearing lists no new address. -/
theorem Memory.mem_clearBelow {m : Memory α} {n : Nat} {p : Nat × α} (h : p ∈ Memory.clearBelow n m) :
    p ∈ m :=
  (List.mem_filter.mp h).1

omit [DecidableEq α] in
/-- What a memory reads as is what an unlisted address reads as, or a cell it lists at that address. -/
theorem Memory.read_eq_or_mem (m : Memory α) (a : Nat) : Memory.read d m a = d ∨ (a, Memory.read d m a) ∈ m := by
  induction m with
  | nil => exact .inl rfl
  | cons p m ih =>
    obtain ⟨k, w⟩ := p
    rw [Memory.read]
    split_ifs with h1 h2
    · exact .inr (h1 ▸ List.mem_cons_self)
    · exact .inl rfl
    · exact ih.imp_right (List.mem_cons_of_mem _)

/-- The canonical form: memories that read alike everywhere are the same list. -/
theorem Memory.ext_read {lo : Nat} {m m' : Memory α} (hm : Memory.wfFrom d lo m = true)
    (hm' : Memory.wfFrom d lo m' = true) (h : ∀ a, Memory.read d m a = Memory.read d m' a) : m = m' := by
  induction m generalizing lo m' with
  | nil =>
    cases m' with
    | nil => rfl
    | cons q m' =>
      obtain ⟨k, w⟩ := q
      have hk := h k
      rw [Memory.read, Memory.read, if_pos rfl] at hk
      exact absurd hk.symm (Memory.wfFrom_cons.mp hm').2.1
  | cons p m ih =>
    obtain ⟨k, w⟩ := p
    obtain ⟨hlo, hw, hrest⟩ := Memory.wfFrom_cons.mp hm
    cases m' with
    | nil =>
      exact absurd (by simpa [Memory.read] using h k) hw
    | cons q m' =>
      obtain ⟨k', w'⟩ := q
      obtain ⟨hlo', hw', hrest'⟩ := Memory.wfFrom_cons.mp hm'
      have hkk : k = k' := by
        rcases Nat.lt_trichotomy k k' with hlt | heq | hgt
        · have hk := h k
          rw [Memory.read, if_pos rfl, Memory.read, if_neg (by omega), if_pos hlt] at hk
          exact absurd hk hw
        · exact heq
        · have hk := h k'
          rw [Memory.read, if_neg (by omega), if_pos hgt, Memory.read, if_pos rfl] at hk
          exact absurd hk.symm hw'
      subst hkk
      have hww : w = w' := by simpa [Memory.read] using h k
      subst hww
      congr 1
      refine ih hrest hrest' fun a => ?_
      by_cases ha : a < k + 1
      · rw [Memory.read_below hrest ha, Memory.read_below hrest' ha]
      · have hk := h a
        rwa [Memory.read, if_neg (by omega), if_neg (by omega), Memory.read, if_neg (by omega),
          if_neg (by omega)] at hk

end Sys2Proof.Machine
end

