-- ==== Sys2Proof/Laws/State.lean ====
section
/-! SUPPORT. One lemma for each field and each update of the state, true by rfl. -/

namespace Sys2Proof.Machine

variable (s : State)

/-! `respond` and `refuse` write `RSP` and `FLT` only (R87, R210). -/

@[simp] theorem respond_cfg (data : BitVec 2) : (respond data s).cfg = s.cfg := rfl
@[simp] theorem respond_mq (data : BitVec 2) : (respond data s).mq = s.mq := rfl
@[simp] theorem respond_raw (data : BitVec 2) : (respond data s).raw = s.raw := rfl
@[simp] theorem respond_desc (data : BitVec 2) : (respond data s).desc = s.desc := rfl
@[simp] theorem respond_lat (data : BitVec 2) : (respond data s).lat = s.lat := rfl
@[simp] theorem respond_bp (data : BitVec 2) : (respond data s).bp = s.bp := rfl
@[simp] theorem respond_pk (data : BitVec 2) : (respond data s).pk = s.pk := rfl
@[simp] theorem respond_stat (data : BitVec 2) : (respond data s).stat = s.stat := rfl
@[simp] theorem respond_ctxmap (data : BitVec 2) : (respond data s).ctxmap = s.ctxmap := rfl
@[simp] theorem respond_coef (data : BitVec 2) : (respond data s).coef = s.coef := rfl
@[simp] theorem respond_segtab (data : BitVec 2) : (respond data s).segtab = s.segtab := rfl
@[simp] theorem respond_segmem (data : BitVec 2) : (respond data s).segmem = s.segmem := rfl
@[simp] theorem respond_flt (data : BitVec 2) : (respond data s).flt = s.flt := rfl
@[simp] theorem respond_rsp (data : BitVec 2) : (respond data s).rsp = packRsp 0 data := rfl
@[simp] theorem respond_pending (data : BitVec 2) : (respond data s).pending = s.pending := rfl

@[simp] theorem refuse_cfg (e : ErrCode) : (refuse e s).cfg = s.cfg := rfl
@[simp] theorem refuse_mq (e : ErrCode) : (refuse e s).mq = s.mq := rfl
@[simp] theorem refuse_raw (e : ErrCode) : (refuse e s).raw = s.raw := rfl
@[simp] theorem refuse_desc (e : ErrCode) : (refuse e s).desc = s.desc := rfl
@[simp] theorem refuse_lat (e : ErrCode) : (refuse e s).lat = s.lat := rfl
@[simp] theorem refuse_bp (e : ErrCode) : (refuse e s).bp = s.bp := rfl
@[simp] theorem refuse_pk (e : ErrCode) : (refuse e s).pk = s.pk := rfl
@[simp] theorem refuse_stat (e : ErrCode) : (refuse e s).stat = s.stat := rfl
@[simp] theorem refuse_ctxmap (e : ErrCode) : (refuse e s).ctxmap = s.ctxmap := rfl
@[simp] theorem refuse_coef (e : ErrCode) : (refuse e s).coef = s.coef := rfl
@[simp] theorem refuse_segtab (e : ErrCode) : (refuse e s).segtab = s.segtab := rfl
@[simp] theorem refuse_segmem (e : ErrCode) : (refuse e s).segmem = s.segmem := rfl
@[simp] theorem refuse_flt (e : ErrCode) : (refuse e s).flt = s.flt ||| e.mask := rfl
@[simp] theorem refuse_rsp (e : ErrCode) : (refuse e s).rsp = packRsp e.code 0 := rfl
@[simp] theorem refuse_pending (e : ErrCode) : (refuse e s).pending = s.pending := rfl

/-! The writes of one cell. -/

@[simp] theorem setCtx_cfg (x y : Nat) (v : Int) : (s.setCtx x y v).cfg = s.cfg := rfl
@[simp] theorem setCtx_mq (x y : Nat) (v : Int) : (s.setCtx x y v).mq = s.mq := rfl
@[simp] theorem setCtx_raw (x y : Nat) (v : Int) : (s.setCtx x y v).raw = s.raw := rfl
@[simp] theorem setCtx_desc (x y : Nat) (v : Int) : (s.setCtx x y v).desc = s.desc := rfl
@[simp] theorem setCtx_lat (x y : Nat) (v : Int) : (s.setCtx x y v).lat = s.lat := rfl
@[simp] theorem setCtx_bp (x y : Nat) (v : Int) : (s.setCtx x y v).bp = s.bp := rfl
@[simp] theorem setCtx_pk (x y : Nat) (v : Int) : (s.setCtx x y v).pk = s.pk := rfl
@[simp] theorem setCtx_stat (x y : Nat) (v : Int) : (s.setCtx x y v).stat = s.stat := rfl
@[simp] theorem setCtx_ctxmap (x y : Nat) (v : Int) : (s.setCtx x y v).ctxmap = Memory.write blankCell s.ctxmap (s.flat x y) (BitVec.ofInt 6 v) := rfl
@[simp] theorem setCtx_coef (x y : Nat) (v : Int) : (s.setCtx x y v).coef = s.coef := rfl
@[simp] theorem setCtx_segtab (x y : Nat) (v : Int) : (s.setCtx x y v).segtab = s.segtab := rfl
@[simp] theorem setCtx_segmem (x y : Nat) (v : Int) : (s.setCtx x y v).segmem = s.segmem := rfl
@[simp] theorem setCtx_flt (x y : Nat) (v : Int) : (s.setCtx x y v).flt = s.flt := rfl
@[simp] theorem setCtx_rsp (x y : Nat) (v : Int) : (s.setCtx x y v).rsp = s.rsp := rfl
@[simp] theorem setCtx_pending (x y : Nat) (v : Int) : (s.setCtx x y v).pending = s.pending := rfl

@[simp] theorem setCoef_cfg (x y : Nat) (v : Coef) : (s.setCoef x y v).cfg = s.cfg := rfl
@[simp] theorem setCoef_mq (x y : Nat) (v : Coef) : (s.setCoef x y v).mq = s.mq := rfl
@[simp] theorem setCoef_raw (x y : Nat) (v : Coef) : (s.setCoef x y v).raw = s.raw := rfl
@[simp] theorem setCoef_desc (x y : Nat) (v : Coef) : (s.setCoef x y v).desc = s.desc := rfl
@[simp] theorem setCoef_lat (x y : Nat) (v : Coef) : (s.setCoef x y v).lat = s.lat := rfl
@[simp] theorem setCoef_bp (x y : Nat) (v : Coef) : (s.setCoef x y v).bp = s.bp := rfl
@[simp] theorem setCoef_pk (x y : Nat) (v : Coef) : (s.setCoef x y v).pk = s.pk := rfl
@[simp] theorem setCoef_stat (x y : Nat) (v : Coef) : (s.setCoef x y v).stat = s.stat := rfl
@[simp] theorem setCoef_ctxmap (x y : Nat) (v : Coef) : (s.setCoef x y v).ctxmap = s.ctxmap := rfl
@[simp] theorem setCoef_coef (x y : Nat) (v : Coef) : (s.setCoef x y v).coef = Memory.write blankCoef s.coef (s.flat x y) v := rfl
@[simp] theorem setCoef_segtab (x y : Nat) (v : Coef) : (s.setCoef x y v).segtab = s.segtab := rfl
@[simp] theorem setCoef_segmem (x y : Nat) (v : Coef) : (s.setCoef x y v).segmem = s.segmem := rfl
@[simp] theorem setCoef_flt (x y : Nat) (v : Coef) : (s.setCoef x y v).flt = s.flt := rfl
@[simp] theorem setCoef_rsp (x y : Nat) (v : Coef) : (s.setCoef x y v).rsp = s.rsp := rfl
@[simp] theorem setCoef_pending (x y : Nat) (v : Coef) : (s.setCoef x y v).pending = s.pending := rfl

/-! A decode of the pass engines writes MQD only (R112). -/

@[simp] theorem decodeBit_cfg (n : Nat) : ((decodeBit n s).2).cfg = s.cfg := rfl
@[simp] theorem decodeBit_mq (n : Nat) : ((decodeBit n s).2).mq = (mqDecode s.segmem (Fin.ofNat 19 n) s.mq).2 := rfl
@[simp] theorem decodeBit_raw (n : Nat) : ((decodeBit n s).2).raw = s.raw := rfl
@[simp] theorem decodeBit_desc (n : Nat) : ((decodeBit n s).2).desc = s.desc := rfl
@[simp] theorem decodeBit_lat (n : Nat) : ((decodeBit n s).2).lat = s.lat := rfl
@[simp] theorem decodeBit_bp (n : Nat) : ((decodeBit n s).2).bp = s.bp := rfl
@[simp] theorem decodeBit_pk (n : Nat) : ((decodeBit n s).2).pk = s.pk := rfl
@[simp] theorem decodeBit_stat (n : Nat) : ((decodeBit n s).2).stat = s.stat := rfl
@[simp] theorem decodeBit_ctxmap (n : Nat) : ((decodeBit n s).2).ctxmap = s.ctxmap := rfl
@[simp] theorem decodeBit_coef (n : Nat) : ((decodeBit n s).2).coef = s.coef := rfl
@[simp] theorem decodeBit_segtab (n : Nat) : ((decodeBit n s).2).segtab = s.segtab := rfl
@[simp] theorem decodeBit_segmem (n : Nat) : ((decodeBit n s).2).segmem = s.segmem := rfl
@[simp] theorem decodeBit_flt (n : Nat) : ((decodeBit n s).2).flt = s.flt := rfl
@[simp] theorem decodeBit_rsp (n : Nat) : ((decodeBit n s).2).rsp = s.rsp := rfl
@[simp] theorem decodeBit_pending (n : Nat) : ((decodeBit n s).2).pending = s.pending := rfl
@[simp] theorem decodeBit_fst (n : Nat) : (decodeBit n s).1 = (mqDecode s.segmem (Fin.ofNat 19 n) s.mq).1 := rfl

/-! The sequencer's updates (R153, R156, R158). -/

@[simp] theorem advance_cfg  : (advance s).cfg = s.cfg := rfl
@[simp] theorem advance_mq  : (advance s).mq = s.mq := rfl
@[simp] theorem advance_raw  : (advance s).raw = s.raw := rfl
@[simp] theorem advance_desc  : (advance s).desc = s.desc := rfl
@[simp] theorem advance_lat  : (advance s).lat = s.lat := rfl
@[simp] theorem advance_bp  : (advance s).bp = if s.pk = .cup then s.bp - 1 else s.bp := rfl
@[simp] theorem advance_ctxmap  : (advance s).ctxmap = s.ctxmap := rfl
@[simp] theorem advance_coef  : (advance s).coef = s.coef := rfl
@[simp] theorem advance_segtab  : (advance s).segtab = s.segtab := rfl
@[simp] theorem advance_segmem  : (advance s).segmem = s.segmem := rfl
@[simp] theorem advance_flt  : (advance s).flt = s.flt := rfl
@[simp] theorem advance_rsp  : (advance s).rsp = s.rsp := rfl
@[simp] theorem advance_pending  : (advance s).pending = s.pending := rfl

@[simp] theorem attachPass_cfg (idx : Nat) : (attachPass idx s).cfg = s.cfg := rfl
@[simp] theorem attachPass_raw (idx : Nat) : (attachPass idx s).raw = s.raw := rfl
@[simp] theorem attachPass_desc (idx : Nat) : (attachPass idx s).desc = s.desc := rfl
@[simp] theorem attachPass_lat (idx : Nat) : (attachPass idx s).lat = s.lat := rfl
@[simp] theorem attachPass_bp (idx : Nat) : (attachPass idx s).bp = s.bp := rfl
@[simp] theorem attachPass_pk (idx : Nat) : (attachPass idx s).pk = s.pk := rfl
@[simp] theorem attachPass_stat (idx : Nat) : (attachPass idx s).stat = s.stat := rfl
@[simp] theorem attachPass_ctxmap (idx : Nat) : (attachPass idx s).ctxmap = s.ctxmap := rfl
@[simp] theorem attachPass_coef (idx : Nat) : (attachPass idx s).coef = s.coef := rfl
@[simp] theorem attachPass_segtab (idx : Nat) : (attachPass idx s).segtab = s.segtab := rfl
@[simp] theorem attachPass_segmem (idx : Nat) : (attachPass idx s).segmem = s.segmem := rfl
@[simp] theorem attachPass_flt (idx : Nat) : (attachPass idx s).flt = s.flt := rfl
@[simp] theorem attachPass_rsp (idx : Nat) : (attachPass idx s).rsp = s.rsp := rfl
@[simp] theorem attachPass_pending (idx : Nat) : (attachPass idx s).pending = s.pending := rfl

@[simp] theorem attachBlock_cfg  : (attachBlock s).cfg = s.cfg := rfl
@[simp] theorem attachBlock_mq  : (attachBlock s).mq = { s.mq with ctx := startupContexts } := rfl
@[simp] theorem attachBlock_raw  : (attachBlock s).raw = s.raw := rfl
@[simp] theorem attachBlock_desc  : (attachBlock s).desc = s.desc := rfl
@[simp] theorem attachBlock_lat  : (attachBlock s).lat = latch s.desc := rfl
@[simp] theorem attachBlock_bp  : (attachBlock s).bp = s.desc.msb := rfl
@[simp] theorem attachBlock_pk  : (attachBlock s).pk = .cup := rfl
@[simp] theorem attachBlock_stat  : (attachBlock s).stat = .active := rfl
@[simp] theorem attachBlock_segtab  : (attachBlock s).segtab = s.segtab := rfl
@[simp] theorem attachBlock_segmem  : (attachBlock s).segmem = s.segmem := rfl
@[simp] theorem attachBlock_flt  : (attachBlock s).flt = s.flt := rfl
@[simp] theorem attachBlock_rsp  : (attachBlock s).rsp = s.rsp := rfl
@[simp] theorem attachBlock_pending  : (attachBlock s).pending = s.pending := rfl

/-! What a cell write leaves alone. -/

@[simp] theorem setCtx_width (x y : Nat) (v : Int) : (s.setCtx x y v).width = s.width := rfl
@[simp] theorem setCtx_height (x y : Nat) (v : Int) : (s.setCtx x y v).height = s.height := rfl
@[simp] theorem setCtx_flat (x y : Nat) (v : Int) (u w : Nat) : (s.setCtx x y v).flat u w = s.flat u w := rfl
@[simp] theorem setCtx_neighbour (x y : Nat) (v : Int) (d : Dir) (u w : Nat) : (s.setCtx x y v).neighbour d u w = s.neighbour d u w := rfl
@[simp] theorem setCtx_coefAt (x y : Nat) (v : Int) (u w : Nat) : (s.setCtx x y v).coefAt u w = s.coefAt u w := rfl
@[simp] theorem setCoef_width (x y : Nat) (v : Coef) : (s.setCoef x y v).width = s.width := rfl
@[simp] theorem setCoef_height (x y : Nat) (v : Coef) : (s.setCoef x y v).height = s.height := rfl
@[simp] theorem setCoef_flat (x y : Nat) (v : Coef) (u w : Nat) : (s.setCoef x y v).flat u w = s.flat u w := rfl
@[simp] theorem setCoef_neighbour (x y : Nat) (v : Coef) (d : Dir) (u w : Nat) : (s.setCoef x y v).neighbour d u w = s.neighbour d u w := rfl
@[simp] theorem setCoef_ctxAt (x y : Nat) (v : Coef) (u w : Nat) : (s.setCoef x y v).ctxAt u w = s.ctxAt u w := rfl
@[simp] theorem decodeBit_width (n : Nat) : ((decodeBit n s).2).width = s.width := rfl
@[simp] theorem decodeBit_height (n : Nat) : ((decodeBit n s).2).height = s.height := rfl
@[simp] theorem decodeBit_flat (n : Nat) (u w : Nat) : ((decodeBit n s).2).flat u w = s.flat u w := rfl
@[simp] theorem decodeBit_neighbour (n : Nat) (d : Dir) (u w : Nat) : ((decodeBit n s).2).neighbour d u w = s.neighbour d u w := rfl
@[simp] theorem decodeBit_ctxAt (n : Nat) (u w : Nat) : ((decodeBit n s).2).ctxAt u w = s.ctxAt u w := rfl
@[simp] theorem decodeBit_coefAt (n : Nat) (u w : Nat) : ((decodeBit n s).2).coefAt u w = s.coefAt u w := rfl

/-! The host's side. -/

@[simp] theorem present_pending (w : CmdWord) : (present w s).pending = .command w :: s.pending := rfl
@[simp] theorem hardwareReset_cfg : (hardwareReset s).cfg = s.cfg := rfl
@[simp] theorem hardwareReset_pending : (hardwareReset s).pending = s.pending := rfl

theorem nextAction_nil (h : s.pending = []) : nextAction s = none := by simp [nextAction, h]
theorem nextAction_cons {act : HostAction} {rest : List HostAction} (h : s.pending = act :: rest) :
    nextAction s = some (act, { s with pending := rest }) := by simp [nextAction, h]

end Sys2Proof.Machine
end

