-- ==== Sys2Proof/Laws/Mq.lean ====
section
/-! SUPPORT. What the procedures of MQD can do, said once: the byte fill, the renormalisation, the restart and the
decode (R104 to R107). -/

namespace Sys2Proof.Machine

variable (mem : Memory Byte) (m : Mqd)

/-! ### The byte fill (R104) -/

@[simp] theorem fillLSB_a : (fillLSB mem m).a = m.a := by unfold fillLSB fillPad fillByte; split_ifs <;> rfl
@[simp] theorem fillLSB_base : (fillLSB mem m).base = m.base := by unfold fillLSB fillPad fillByte; split_ifs <;> rfl
@[simp] theorem fillLSB_len : (fillLSB mem m).len = m.len := by unfold fillLSB fillPad fillByte; split_ifs <;> rfl
@[simp] theorem fillLSB_att : (fillLSB mem m).att = m.att := by unfold fillLSB fillPad fillByte; split_ifs <;> rfl
@[simp] theorem fillLSB_rdy : (fillLSB mem m).rdy = m.rdy := by unfold fillLSB fillPad fillByte; split_ifs <;> rfl
@[simp] theorem fillLSB_ctx : (fillLSB mem m).ctx = m.ctx := by unfold fillLSB fillPad fillByte; split_ifs <;> rfl

/-- A fill gives 7 or 8 pending bits. -/
theorem fillLSB_t : (fillLSB mem m).t = 7 ∨ (fillLSB mem m).t = 8 := by
  unfold fillLSB fillPad fillByte; split_ifs <;> simp

/-- A fill consumes at most one byte, and only while one is left. -/
theorem fillLSB_l : (fillLSB mem m).l = m.l ∨ (m.l < m.len ∧ (fillLSB mem m).l = m.l + 1) := by
  unfold fillLSB fillPad fillByte; split_ifs <;> simp <;> omega

/-- The cursor stays inside the segment. -/
theorem fillLSB_l_le (h : m.l ≤ m.len) : (fillLSB mem m).l ≤ m.len := by
  rcases fillLSB_l mem m with h' | ⟨h1, h'⟩ <;> omega

/-- At the end of the segment a fill synthesizes a byte and reads none. -/
theorem fillLSB_end (h : m.len ≤ m.l) : fillLSB mem m = { m with c := m.c + 0xFF, t := 8 } := by
  rw [fillLSB, if_pos h, fillPad]

/-! ### Renormalisation (R106) -/

@[simp] theorem renormOnce_a : (renormOnce mem m).a = m.a <<< 1 := by unfold renormOnce; split_ifs <;> simp
@[simp] theorem renormOnce_base : (renormOnce mem m).base = m.base := by unfold renormOnce; split_ifs <;> simp
@[simp] theorem renormOnce_len : (renormOnce mem m).len = m.len := by unfold renormOnce; split_ifs <;> simp
@[simp] theorem renormOnce_att : (renormOnce mem m).att = m.att := by unfold renormOnce; split_ifs <;> simp
@[simp] theorem renormOnce_rdy : (renormOnce mem m).rdy = m.rdy := by unfold renormOnce; split_ifs <;> simp
@[simp] theorem renormOnce_ctx : (renormOnce mem m).ctx = m.ctx := by unfold renormOnce; split_ifs <;> simp

theorem renormOnce_l_le (h : m.l ≤ m.len) : (renormOnce mem m).l ≤ m.len := by
  unfold renormOnce
  split_ifs
  · exact fillLSB_l_le mem m h
  · exact h

theorem renormOnce_t (h : m.t ≤ 8) : (renormOnce mem m).t ≤ 8 := by
  unfold renormOnce
  split_ifs with h0
  · rcases fillLSB_t mem m with h' | h' <;> simp [h']
  · simp only; bv_omega

/-- What every step of the renormalisation keeps, the whole renormalisation keeps. -/
theorem renormLoop_induct {P : Mqd → Prop} (hstep : ∀ m, P m → P (renormOnce mem m)) (n : Nat) :
    ∀ m, P m → P (renormLoop mem n m) := by
  induction n with
  | zero => intro m h; exact h
  | succ n ih =>
    intro m h
    rw [renormLoop]
    split_ifs
    · exact h
    · exact ih _ (hstep _ h)

theorem renorm_induct {P : Mqd → Prop} (hstep : ∀ m, P m → P (renormOnce mem m)) (h : P m) :
    P (renorm mem m) :=
  renormLoop_induct mem hstep 14 _ (hstep _ h)

@[simp] theorem renorm_base : (renorm mem m).base = m.base :=
  renorm_induct mem m (P := fun x => x.base = m.base) (fun x h => by simpa using h) rfl
@[simp] theorem renorm_len : (renorm mem m).len = m.len :=
  renorm_induct mem m (P := fun x => x.len = m.len) (fun x h => by simpa using h) rfl
@[simp] theorem renorm_att : (renorm mem m).att = m.att :=
  renorm_induct mem m (P := fun x => x.att = m.att) (fun x h => by simpa using h) rfl
@[simp] theorem renorm_rdy : (renorm mem m).rdy = m.rdy :=
  renorm_induct mem m (P := fun x => x.rdy = m.rdy) (fun x h => by simpa using h) rfl
@[simp] theorem renorm_ctx : (renorm mem m).ctx = m.ctx :=
  renorm_induct mem m (P := fun x => x.ctx = m.ctx) (fun x h => by simpa using h) rfl

/-- The loop stops once `A ≥ 0x8000`. -/
theorem renormLoop_done (n : Nat) (h : 0x8000 ≤ m.a) : renormLoop mem n m = m := by
  cases n with
  | zero => rfl
  | succ n => rw [renormLoop, if_pos h]

/-- The loop makes `k` steps, the last of which is the first to reach `0x8000`. -/
theorem renormLoop_spec (n : Nat) (m : Mqd) (h : 0x8000 ≤ m.a.toNat * 2 ^ n) (h1 : m.a.toNat ≤ 0xFFFF) :
    ∃ k, k ≤ n ∧ renormLoop mem n m = (renormOnce mem)^[k] m ∧
      0x8000 ≤ (renormLoop mem n m).a.toNat ∧ (renormLoop mem n m).a.toNat ≤ 0xFFFF := by
  induction n generalizing m with
  | zero => exact ⟨0, le_rfl, rfl, by simpa [renormLoop] using h, by simpa [renormLoop] using h1⟩
  | succ n ih =>
    rw [renormLoop]
    split_ifs with ha
    · exact ⟨0, Nat.zero_le _, rfl, by simpa [BitVec.le_def] using ha, h1⟩
    · have hlt : m.a.toNat < 0x8000 := by simpa [BitVec.le_def] using ha
      have ha' : (renormOnce mem m).a.toNat = m.a.toNat * 2 := by
        rw [renormOnce_a, BitVec.toNat_shiftLeft, Nat.shiftLeft_eq]
        omega
      obtain ⟨k, hk, he, hr⟩ := ih (renormOnce mem m)
        (by rw [ha', Nat.mul_assoc, ← Nat.pow_succ']; exact h) (by omega)
      exact ⟨k + 1, by omega, he, hr⟩

/-- `Renorm` on the values it is called with: between 1 and 15 steps, and `0x8000 ≤ A ≤ 0xFFFE` (R106). -/
theorem renorm_spec (h : 1 ≤ m.a) (h1 : m.a < 0x8000) :
    ∃ k, 1 ≤ k ∧ k ≤ 15 ∧ renorm mem m = (renormOnce mem)^[k] m ∧
      0x8000 ≤ (renorm mem m).a.toNat ∧ (renorm mem m).a.toNat ≤ 0xFFFF := by
  have hlo : 1 ≤ m.a.toNat := by simpa [BitVec.le_def] using h
  have hhi : m.a.toNat < 0x8000 := by simpa [BitVec.lt_def] using h1
  have ha' : (renormOnce mem m).a.toNat = m.a.toNat * 2 := by
    rw [renormOnce_a, BitVec.toNat_shiftLeft, Nat.shiftLeft_eq]
    omega
  obtain ⟨k, hk, he, hr⟩ := renormLoop_spec mem 14 (renormOnce mem m) (by omega) (by omega)
  exact ⟨k + 1, by omega, by omega, he, hr⟩

/-! ### The restart (R105) -/

@[simp] theorem restartFirst_base : (restartFirst mem m).base = m.base := by simp [restartFirst, restartClear]
@[simp] theorem restartFirst_len : (restartFirst mem m).len = m.len := by simp [restartFirst, restartClear]
@[simp] theorem restartFirst_att : (restartFirst mem m).att = m.att := by simp [restartFirst, restartClear]
@[simp] theorem restartFirst_ctx : (restartFirst mem m).ctx = m.ctx := by simp [restartFirst, restartClear]

@[simp] theorem mqRestart_base : (mqRestart mem m).base = m.base := by simp [mqRestart]
@[simp] theorem mqRestart_len : (mqRestart mem m).len = m.len := by simp [mqRestart]
@[simp] theorem mqRestart_att : (mqRestart mem m).att = m.att := by simp [mqRestart]
@[simp] theorem mqRestart_ctx : (mqRestart mem m).ctx = m.ctx := by simp [mqRestart]
@[simp] theorem mqRestart_rdy : (mqRestart mem m).rdy = true := by simp [mqRestart]
@[simp] theorem mqRestart_a : (mqRestart mem m).a = 0x8000 := by simp [mqRestart]

theorem restartFirst_l_le : (restartFirst mem m).l ≤ m.len := by
  simpa [restartFirst, restartClear] using fillLSB_l_le mem (restartClear m) (Nat.zero_le _)

/-- A restart leaves the cursor inside the segment. -/
theorem mqRestart_l_le : (mqRestart mem m).l ≤ m.len := by
  have h := fillLSB_l_le mem (restartFirst mem m) (by simpa using restartFirst_l_le mem m)
  simpa [mqRestart] using h

/-- A restart leaves `t` at 0 or 1 (R105). -/
theorem mqRestart_t : (mqRestart mem m).t = 0 ∨ (mqRestart mem m).t = 1 := by
  rcases fillLSB_t mem (restartFirst mem m) with h | h <;> simp [mqRestart, h]

/-- A fill after the clearing reads `MQ_BASE` and `MQ_LEN` only; `A` and `RDY` pass through. -/
theorem fillLSB_pass (x : Mqd) (a : Reg32) (r : Bool) :
    fillLSB mem { x with a := a, rdy := r } = { fillLSB mem x with a := a, rdy := r } := by
  unfold fillLSB fillPad fillByte; split_ifs <;> simp_all

/-- The fill sets `t` whatever it was. -/
theorem fillLSB_t_free (x : Mqd) (t : BitVec 4) : fillLSB mem { x with t := t } = fillLSB mem x := by
  unfold fillLSB fillPad fillByte; split_ifs <;> simp_all

/-- The restart reads nothing of the registers it initialises (R105): only the attached segment, `ATT` and the
context file matter. -/
theorem mqRestart_congr {m1 m2 : Mqd} (hb : m1.base = m2.base) (hl : m1.len = m2.len) (ha : m1.att = m2.att)
    (hc : m1.ctx = m2.ctx) : mqRestart mem m1 = mqRestart mem m2 := by
  have hclear : restartClear m1 = { { restartClear m2 with t := m1.t } with a := m1.a, rdy := m1.rdy } := by
    simp [restartClear, hb, hl, ha, hc]
  have hfirst : restartFirst mem m1 = { restartFirst mem m2 with a := m1.a, rdy := m1.rdy } := by
    simp only [restartFirst]
    rw [hclear, fillLSB_pass, fillLSB_t_free]
  simp only [mqRestart]
  rw [hfirst, fillLSB_pass]

/-! ### The probability table (R101) and the decode (R107) -/

/-- The rows of the table: `1 ≤ Qe ≤ 0x5601`, and the next states are rows again (R101). -/
theorem mqRow_bounds : ∀ i : BitVec 6, i ≤ 46 →
    (1 ≤ (mqRow i).qe ∧ (mqRow i).qe ≤ 0x5601) ∧ (mqRow i).nmps ≤ 46 ∧ (mqRow i).nlps ≤ 46 := by
  have h : ∀ n : Fin 47, (1 ≤ (mqRow (BitVec.ofNat 6 n.val)).qe ∧ (mqRow (BitVec.ofNat 6 n.val)).qe ≤ 0x5601) ∧
      (mqRow (BitVec.ofNat 6 n.val)).nmps ≤ 46 ∧ (mqRow (BitVec.ofNat 6 n.val)).nlps ≤ 46 := by decide +kernel
  intro i hi
  have hi' : i.toNat < 47 := by
    have : i.toNat ≤ 46 := by simpa [BitVec.le_def] using hi
    omega
  have hof : BitVec.ofNat 6 i.toNat = i := by simp
  simpa [hof] using h ⟨i.toNat, hi'⟩

variable (cx : Fin 19)

@[simp] theorem mqDecode_base : (mqDecode mem cx m).2.base = m.base := by
  unfold mqDecode; dsimp only; split_ifs <;> simp
@[simp] theorem mqDecode_len : (mqDecode mem cx m).2.len = m.len := by
  unfold mqDecode; dsimp only; split_ifs <;> simp
@[simp] theorem mqDecode_att : (mqDecode mem cx m).2.att = m.att := by
  unfold mqDecode; dsimp only; split_ifs <;> simp
@[simp] theorem mqDecode_rdy : (mqDecode mem cx m).2.rdy = m.rdy := by
  unfold mqDecode; dsimp only; split_ifs <;> simp

/-- A decode leaves its own context as it was, or in the state of an MPS or an LPS event, and touches no other
context (R27, R107). -/
theorem mqDecode_ctx : (mqDecode mem cx m).2.ctx = m.ctx ∨
    (mqDecode mem cx m).2.ctx = m.ctx.set cx (mpsEntry m.ctx[cx]) ∨
    (mqDecode mem cx m).2.ctx = m.ctx.set cx (lpsEntry m.ctx[cx]) := by
  unfold mqDecode; dsimp only; split_ifs <;> simp

/-- A decode on one context leaves every other context alone (R27). -/
theorem mqDecode_ctx_other {k : Fin 19} (h : k ≠ cx) : (mqDecode mem cx m).2.ctx[k] = m.ctx[k] := by
  have hne : cx.val ≠ k.val := fun e => h (Fin.ext e.symm)
  rcases mqDecode_ctx mem m cx with h' | h' | h' <;> simp [h', hne]

/-- Whatever every renormalisation step keeps, and no change of `A`, `C` and the context file breaks, a decode
keeps. -/
theorem mqDecode_induct {P : Mqd → Prop} (hset : ∀ x a c ctx, P x → P { x with a := a, c := c, ctx := ctx })
    (hstep : ∀ x, P x → P (renormOnce mem x)) (h : P m) : P (mqDecode mem cx m).2 := by
  have hall : ∀ a c ctx, P (renorm mem { m with a := a, c := c, ctx := ctx }) := fun a c ctx =>
    renorm_induct mem _ hstep (hset m a c ctx h)
  unfold mqDecode
  dsimp only
  split_ifs
  · exact hall _ m.c _
  · exact hall _ m.c _
  · exact hall _ _ _
  · exact hall _ _ _
  · exact hset m _ _ m.ctx h

end Sys2Proof.Machine
end

