-- ==== Sys2Proof/Laws/Passes.lean ====
section
/-! SUPPORT. The scan stays inside the block, and the induction over a pass: what every decode and every cell write
of a pass keeps, the pass keeps (R160, R170 to R178). -/

namespace Sys2Proof.Machine

/-! ### The block -/

theorem shiftIn_lt {bound n k : Nat} {d : Int} (h : shiftIn bound n d = some k) : k < bound := by
  unfold shiftIn at h
  split_ifs at h with hb
  have := Option.some.inj h
  omega

/-- A neighbour that is not absent is a coefficient of the block (R66). -/
theorem neighbour_inBlock {s : State} {d : Dir} {x y nx ny : Nat}
    (h : s.neighbour d x y = some (nx, ny)) : s.InBlock nx ny := by
  unfold State.neighbour at h
  split at h
  · rename_i hx hy
    obtain ⟨rfl, rfl⟩ := Prod.mk.inj (Option.some.inj h)
    exact ⟨shiftIn_lt hx, shiftIn_lt hy⟩
  · cases h

/-- Distinct coefficients of the block have distinct flat indices (R65). -/
theorem flat_inj {s : State} {x y u v : Nat} (hx : x < s.width) (hu : u < s.width)
    (h : s.flat x y = s.flat u v) : x = u ∧ y = v := by
  unfold State.flat at h
  have h1 : (y * s.width + x) % s.width = (v * s.width + u) % s.width := by rw [h]
  have h2 : (y * s.width + x) / s.width = (v * s.width + u) / s.width := by rw [h]
  have hw : 0 < s.width := by omega
  rw [Nat.mul_add_mod', Nat.mul_add_mod', Nat.mod_eq_of_lt hx, Nat.mod_eq_of_lt hu] at h1
  rw [Nat.mul_comm y, Nat.mul_comm v, Nat.mul_add_div hw, Nat.mul_add_div hw, Nat.div_eq_of_lt hx,
    Nat.div_eq_of_lt hu] at h2
  exact ⟨h1, by omega⟩

/-- The flat index of a coefficient of the block is below `LWID * LHGT` (R65). -/
theorem flat_lt {s : State} {x y : Nat} (h : s.InBlock x y) : s.flat x y < s.width * s.height := by
  unfold State.flat
  calc y * s.width + x < y * s.width + s.width := by omega
    _ = (y + 1) * s.width := by rw [Nat.add_mul, Nat.one_mul]
    _ ≤ s.height * s.width := Nat.mul_le_mul_right _ h.2
    _ = s.width * s.height := Nat.mul_comm _ _

/-- A cell reads as the value last written to it, where the value fits 6 bits (R36). -/
theorem ctxAt_setCtx_same {s : State} (hwf : Memory.wf blankCell s.ctxmap = true) (x y : Nat) {v : Int}
    (hv : -32 ≤ v ∧ v ≤ 31) : (s.setCtx x y v).ctxAt x y = v := by
  unfold State.ctxAt
  rw [setCtx_ctxmap, setCtx_flat, Memory.read_write_same hwf, BitVec.toInt_ofInt, Int.bmod_def]
  omega

/-- A write to one cell of the context map leaves every other cell of the block alone. -/
theorem ctxAt_setCtx_other {s : State} (hwf : Memory.wf blankCell s.ctxmap = true) {x y u w : Nat}
    (hx : x < s.width) (hu : u < s.width) (h : ¬(u = x ∧ w = y)) (v : Int) :
    (s.setCtx x y v).ctxAt u w = s.ctxAt u w := by
  unfold State.ctxAt
  rw [setCtx_ctxmap, setCtx_flat, Memory.read_write_other hwf fun e => h (flat_inj hu hx e)]

/-- A coefficient cell reads as the value last written to it. -/
theorem coefAt_setCoef_same {s : State} (hwf : Memory.wf blankCoef s.coef = true) (x y : Nat) (v : Coef) :
    (s.setCoef x y v).coefAt x y = v := by
  unfold State.coefAt
  rw [setCoef_coef, setCoef_flat, Memory.read_write_same hwf]

/-- A write to one coefficient leaves every other coefficient of the block alone. -/
theorem coefAt_setCoef_other {s : State} (hwf : Memory.wf blankCoef s.coef = true) {x y u w : Nat}
    (hx : x < s.width) (hu : u < s.width) (h : ¬(u = x ∧ w = y)) (v : Coef) :
    (s.setCoef x y v).coefAt u w = s.coefAt u w := by
  unfold State.coefAt
  rw [setCoef_coef, setCoef_flat, Memory.read_write_other hwf fun e => h (flat_inj hu hx e)]

/-! ### The scan (R160) -/

/-- A column of the scan lies inside the block and has at most four rows. -/
theorem mem_scanColumns {w h : Nat} {col : Column} (hc : col ∈ scanColumns w h) :
    col.x < w ∧ col.top + col.rows ≤ h ∧ col.rows ≤ 4 := by
  simp only [scanColumns, List.mem_flatMap, List.mem_map, List.mem_range] at hc
  obtain ⟨s, hs, x, hx, rfl⟩ := hc
  exact ⟨hx, by simp only; omega, by simp only; omega⟩

theorem mem_cells {col : Column} {p : Nat × Nat} (hp : p ∈ col.cells) :
    p.1 = col.x ∧ col.top ≤ p.2 ∧ p.2 < col.top + col.rows := by
  simp only [Column.cells, List.mem_map, List.mem_range'_1] at hp
  obtain ⟨y, hy, rfl⟩ := hp
  exact ⟨rfl, hy⟩

/-- Every position of the scan is a coefficient of the block. -/
theorem mem_scan {w h : Nat} {p : Nat × Nat} (hp : p ∈ scan w h) : p.1 < w ∧ p.2 < h := by
  simp only [scan, List.mem_flatMap] at hp
  obtain ⟨col, hc, hp⟩ := hp
  have h1 := mem_scanColumns hc
  have h2 := mem_cells hp
  omega

theorem foldl_keeps {β : Type} {f : State → β → State} {P : State → Prop} {l : List β}
    (h : ∀ s, ∀ b ∈ l, P s → P (f s b)) : ∀ s, P s → P (l.foldl f s) := by
  induction l with
  | nil => intro s hs; exact hs
  | cons b l ih =>
    intro s hs
    exact ih (fun s b' hb' => h s b' (List.mem_cons_of_mem _ hb')) _ (h s b List.mem_cons_self hs)

/-! ### The induction over a pass -/

/-- The elementary updates of a pass on bit-plane `b` keep `P`: a decode, a write of a context cell of the block,
a change of the sign, and a magnitude of `Signify` (R173) or of the refinement (R171). -/
structure PassKeeps (b : Nat) (P : State → Prop) : Prop where
  /-- `Decode(n)`. -/
  dec : ∀ n s, P s → P (decodeBit n s).2
  /-- A write of a context cell. -/
  ctx : ∀ s x y v, s.InBlock x y → P s → P (s.setCtx x y v)
  /-- A write of a sign. -/
  sgn : ∀ s x y g, s.InBlock x y → P s → P (s.setCoef x y { s.coefAt x y with sgn := g })
  /-- The magnitude of a newly significant coefficient. -/
  new : ∀ s x y, s.InBlock x y → P s →
    P (s.setCoef x y { s.coefAt x y with mag := planeMask b ||| halfMask b })
  /-- A refined magnitude. -/
  refine : ∀ s x y bit, s.InBlock x y → P s →
    P (s.setCoef x y { s.coefAt x y with mag := refinedMag (s.coefAt x y).mag b bit })

variable {b : Nat} {P : State → Prop}

theorem PassKeeps.withBlock (h : PassKeeps b P) (l : Latched) :
    PassKeeps b fun s => P s ∧ s.lat = l where
  dec n s hs := ⟨h.dec n s hs.1, hs.2⟩
  ctx s x y v hb hs := ⟨h.ctx s x y v hb hs.1, hs.2⟩
  sgn s x y g hb hs := ⟨h.sgn s x y g hb hs.1, hs.2⟩
  new s x y hb hs := ⟨h.new s x y hb hs.1, hs.2⟩
  refine s x y bit hb hs := ⟨h.refine s x y bit hb hs.1, hs.2⟩

theorem PassKeeps.neighborUpdate (h : PassKeeps b P) {x y : Nat} (o : Origin) {s : State}
    (hb : s.InBlock x y) (hs : P s) : P (neighborUpdate x y o s) := by
  unfold Machine.neighborUpdate
  refine foldl_keeps (fun s d _ hs => ?_) _ (h.ctx s x y _ hb hs)
  unfold updateNeighbour
  split
  · rename_i nx ny hn
    exact h.ctx s nx ny _ (neighbour_inBlock hn) hs
  · exact hs

theorem PassKeeps.signDecode (h : PassKeeps b P) {x y : Nat} {s : State} (hb : s.InBlock x y) (hs : P s) :
    P (signDecode x y s) := by
  unfold Machine.signDecode
  dsimp only
  split_ifs
  · exact h.sgn _ x y _ hb (h.dec _ s hs)
  · exact h.dec _ s hs

@[simp] theorem signDecode_lat (x y : Nat) (s : State) : (signDecode x y s).lat = s.lat := by
  unfold signDecode; dsimp only; split_ifs <;> rfl

theorem PassKeeps.signify (h : PassKeeps b P) {x y : Nat} (o : Origin) {s : State} (hb : s.InBlock x y)
    (hs : P s) : P (signify x y b o s) := by
  unfold Machine.signify
  have h1 : State.InBlock (Machine.signDecode x y
      (s.setCoef x y { s.coefAt x y with mag := planeMask b ||| halfMask b })) x y := by
    unfold State.InBlock State.width State.height
    rw [signDecode_lat]
    exact hb
  exact h.neighborUpdate o h1 (h.signDecode (s := s.setCoef x y _) hb (h.new s x y hb hs))

theorem PassKeeps.sppCell (h : PassKeeps b P) {p : Nat × Nat} {s : State} (hb : s.InBlock p.1 p.2)
    (hs : P s) : P (sppCell b s p) := by
  unfold Machine.sppCell
  dsimp only
  split_ifs
  · exact h.signify .prop (s := (decodeBit _ s).2) hb (h.dec _ s hs)
  · exact h.dec _ s hs
  · exact hs

theorem PassKeeps.mrpCell (h : PassKeeps b P) {p : Nat × Nat} {s : State} (hb : s.InBlock p.1 p.2)
    (hs : P s) : P (mrpCell b s p) := by
  unfold Machine.mrpCell
  dsimp only
  split_ifs
  · exact h.ctx _ p.1 p.2 _ hb (h.refine _ p.1 p.2 _ hb (h.dec _ s hs))
  · exact h.ctx s p.1 p.2 _ hb hs
  · exact hs

theorem PassKeeps.cupCell (h : PassKeeps b P) {p : Nat × Nat} {s : State} (hb : s.InBlock p.1 p.2)
    (hs : P s) : P (cupCell b s p) := by
  unfold Machine.cupCell
  dsimp only
  split_ifs
  · exact h.signify .cleanup (s := (decodeBit _ (s.setCtx p.1 p.2 _)).2) hb (h.dec _ _ (h.ctx s p.1 p.2 _ hb hs))
  · exact h.dec _ _ (h.ctx s p.1 p.2 _ hb hs)
  · exact hs

theorem inBlock_of_lat {s t : State} (h : t.lat = s.lat) {x y : Nat} (hb : s.InBlock x y) : t.InBlock x y := by
  unfold State.InBlock State.width State.height at *
  rw [h]; exact hb

/-- What a pass does not write: the latched descriptor in particular. -/
theorem passKeeps_lat (b : Nat) (l : Latched) : PassKeeps b fun s => s.lat = l where
  dec _ _ h := h
  ctx _ _ _ _ _ h := h
  sgn _ _ _ _ _ h := h
  new _ _ _ _ h := h
  refine _ _ _ _ _ h := h

theorem cupRun_keeps (h : PassKeeps b P) {col : Column} {s : State}
    (hcol : col.x < s.width ∧ col.top + col.rows ≤ s.height) (h4 : col.rows = 4) (hs : P s) :
    P (cupRun b s col) := by
  have h1 := h.dec 18 s hs
  have hl1 := decodeBit_lat s 18
  unfold cupRun
  dsimp only
  generalize decodeBit 18 s = r1 at h1 hl1 ⊢
  have h0 := h.dec 18 r1.2 h1
  have hl0 := (decodeBit_lat r1.2 18).trans hl1
  generalize decodeBit 18 r1.2 = r0 at h0 hl0 ⊢
  have hk4 : 2 * r1.1.toNat + r0.1.toNat < 4 := by
    have := Bool.toNat_le r1.1
    have := Bool.toNat_le r0.1
    omega
  generalize 2 * r1.1.toNat + r0.1.toNat = k at hk4 ⊢
  have hb0 : r0.2.InBlock col.x (col.top + k) := inBlock_of_lat hl0 ⟨hcol.1, by omega⟩
  have hsig := (h.withBlock s.lat).signify .cleanup hb0 ⟨h0, hl0⟩
  refine (foldl_keeps (P := fun t => P t ∧ t.lat = s.lat) (fun t p hp ht => ?_) _ hsig).1
  have hp' := mem_cells (List.mem_of_mem_drop hp)
  have hbt : t.InBlock p.1 p.2 := inBlock_of_lat ht.2 ⟨by omega, by omega⟩
  exact (h.withBlock s.lat).cupCell hbt ht

theorem cupColumn_keeps (h : PassKeeps b P) {col : Column} {s : State}
    (hcol : col.x < s.width ∧ col.top + col.rows ≤ s.height) (hs : P s) : P (cupColumn b s col) := by
  unfold cupColumn
  split_ifs with h1
  · dsimp only
    split_ifs
    · refine cupRun_keeps h (s := (decodeBit 9 s).2) hcol ?_ (h.dec _ s hs)
      exact of_decide_eq_true (Bool.and_eq_true_iff.mp h1).1
    · exact h.dec _ s hs
  · refine (foldl_keeps (P := fun t => P t ∧ t.lat = s.lat) (fun t p hp ht => ?_) s ⟨hs, rfl⟩).1
    have hp' := mem_cells hp
    have hbt : t.InBlock p.1 p.2 := by
      refine inBlock_of_lat ht.2 ?_
      constructor <;> omega
    exact (h.withBlock s.lat).cupCell hbt ht

/-- THE INDUCTION OVER A PASS: what its elementary updates keep, the pass keeps. -/
theorem runPass_keeps (h : PassKeeps b P) (k : PassKind) {s : State} (hs : P s) : P (runPass k b s) := by
  cases k with
  | spp =>
    refine (foldl_keeps (P := fun t => P t ∧ t.lat = s.lat) (fun t p hp ht => ?_) s ⟨hs, rfl⟩).1
    exact (h.withBlock s.lat).sppCell (inBlock_of_lat ht.2 (mem_scan hp)) ht
  | mrp =>
    refine (foldl_keeps (P := fun t => P t ∧ t.lat = s.lat) (fun t p hp ht => ?_) s ⟨hs, rfl⟩).1
    exact (h.withBlock s.lat).mrpCell (inBlock_of_lat ht.2 (mem_scan hp)) ht
  | cup =>
    refine (foldl_keeps (P := fun t => P t ∧ t.lat = s.lat) (fun t col hc ht => ?_) s ⟨hs, rfl⟩).1
    have hcol := mem_scanColumns hc
    have hw : t.width = s.width ∧ t.height = s.height := by
      unfold State.width State.height; rw [ht.2]; exact ⟨rfl, rfl⟩
    exact cupColumn_keeps (h.withBlock s.lat) ⟨by omega, by omega⟩ ht

end Sys2Proof.Machine
end

