-- ==== Sys2Proof/Laws/Cb.lean ====
section
/-! SUPPORT. What a transition of the sequencer can do, said once (R153 to R159). -/

namespace Sys2Proof.Machine

/-- What a pass never writes: every field but MQD, the context map and the coefficient buffer. -/
structure PassFrame (s t : State) : Prop where
  cfg : t.cfg = s.cfg
  raw : t.raw = s.raw
  desc : t.desc = s.desc
  lat : t.lat = s.lat
  bp : t.bp = s.bp
  pk : t.pk = s.pk
  stat : t.stat = s.stat
  segtab : t.segtab = s.segtab
  segmem : t.segmem = s.segmem
  flt : t.flt = s.flt
  rsp : t.rsp = s.rsp
  pending : t.pending = s.pending
  base : t.mq.base = s.mq.base
  len : t.mq.len = s.mq.len
  att : t.mq.att = s.mq.att
  rdy : t.mq.rdy = s.mq.rdy

theorem PassFrame.refl (s : State) : PassFrame s s := by constructor <;> rfl

theorem PassFrame.trans {s t u : State} (h1 : PassFrame s t) (h2 : PassFrame t u) : PassFrame s u := by
  constructor
  · exact h2.cfg.trans h1.cfg
  · exact h2.raw.trans h1.raw
  · exact h2.desc.trans h1.desc
  · exact h2.lat.trans h1.lat
  · exact h2.bp.trans h1.bp
  · exact h2.pk.trans h1.pk
  · exact h2.stat.trans h1.stat
  · exact h2.segtab.trans h1.segtab
  · exact h2.segmem.trans h1.segmem
  · exact h2.flt.trans h1.flt
  · exact h2.rsp.trans h1.rsp
  · exact h2.pending.trans h1.pending
  · exact h2.base.trans h1.base
  · exact h2.len.trans h1.len
  · exact h2.att.trans h1.att
  · exact h2.rdy.trans h1.rdy

theorem decodeBit_frame (n : Nat) (s : State) : PassFrame s (decodeBit n s).2 := by
  constructor <;> first | rfl | simp

theorem passKeeps_frame (b : Nat) (s : State) : PassKeeps b (PassFrame s) where
  dec n t h := h.trans (decodeBit_frame n t)
  ctx t x y v _ h := h.trans (by constructor <;> rfl)
  sgn t x y g _ h := h.trans (by constructor <;> rfl)
  new t x y _ h := h.trans (by constructor <;> rfl)
  refine t x y bit _ h := h.trans (by constructor <;> rfl)

/-- A pass changes nothing but `A, C, t, Tr, L, MRK`, the context file, the context map and the coefficient buffer
(R170 to R172, R112). -/
theorem runPass_frame (k : PassKind) (b : Nat) (s : State) : PassFrame s (runPass k b s) :=
  runPass_keeps (passKeeps_frame b s) k (PassFrame.refl s)

/-- Cells at flat indices outside the block are not written by a pass (R65). -/
theorem passKeeps_outside (b : Nat) (s : State) : PassKeeps b fun t =>
    (t.lat = s.lat ∧ Memory.wf blankCell t.ctxmap = true ∧ Memory.wf blankCoef t.coef = true) ∧
    ∀ a, s.width * s.height ≤ a →
      Memory.read blankCell t.ctxmap a = Memory.read blankCell s.ctxmap a ∧
      Memory.read blankCoef t.coef a = Memory.read blankCoef s.coef a where
  dec _ _ h := h
  ctx t x y v hb h := by
    have hw : t.width = s.width ∧ t.height = s.height := by
      unfold State.width State.height; rw [h.1.1]; exact ⟨rfl, rfl⟩
    have hlt := flat_lt hb
    rw [hw.1, hw.2] at hlt
    refine ⟨⟨h.1.1, Memory.wf_write h.1.2.1 _ _, h.1.2.2⟩, fun a ha => ⟨?_, (h.2 a ha).2⟩⟩
    rw [setCtx_ctxmap, Memory.read_write_other h.1.2.1 (by omega)]
    exact (h.2 a ha).1
  sgn t x y g hb h := by
    have hw : t.width = s.width ∧ t.height = s.height := by
      unfold State.width State.height; rw [h.1.1]; exact ⟨rfl, rfl⟩
    have hlt := flat_lt hb
    rw [hw.1, hw.2] at hlt
    refine ⟨⟨h.1.1, h.1.2.1, Memory.wf_write h.1.2.2 _ _⟩, fun a ha => ⟨(h.2 a ha).1, ?_⟩⟩
    rw [setCoef_coef, Memory.read_write_other h.1.2.2 (by omega)]
    exact (h.2 a ha).2
  new t x y hb h := by
    have hw : t.width = s.width ∧ t.height = s.height := by
      unfold State.width State.height; rw [h.1.1]; exact ⟨rfl, rfl⟩
    have hlt := flat_lt hb
    rw [hw.1, hw.2] at hlt
    refine ⟨⟨h.1.1, h.1.2.1, Memory.wf_write h.1.2.2 _ _⟩, fun a ha => ⟨(h.2 a ha).1, ?_⟩⟩
    rw [setCoef_coef, Memory.read_write_other h.1.2.2 (by omega)]
    exact (h.2 a ha).2
  refine t x y bit hb h := by
    have hw : t.width = s.width ∧ t.height = s.height := by
      unfold State.width State.height; rw [h.1.1]; exact ⟨rfl, rfl⟩
    have hlt := flat_lt hb
    rw [hw.1, hw.2] at hlt
    refine ⟨⟨h.1.1, h.1.2.1, Memory.wf_write h.1.2.2 _ _⟩, fun a ha => ⟨(h.2 a ha).1, ?_⟩⟩
    rw [setCoef_coef, Memory.read_write_other h.1.2.2 (by omega)]
    exact (h.2 a ha).2

/-- What the body of a step does: a skipped pass advances only; an executed one attaches, restarts, runs the pass
and advances (R156, R157). -/
theorem stepBody_cases (s : State) :
    (s.skips s.passIdx.toNat = true ∧ stepBody s = advance s) ∨
    (s.skips s.passIdx.toNat = false ∧ stepBody s = advance (execPass s)) := by
  unfold stepBody
  cases h : s.skips s.passIdx.toNat <;> simp

/-- An executed pass leaves the latched descriptor, the sequencer and the inputs alone (R156). -/
theorem execPass_frame (s : State) : PassFrame (attachPass s.passIdx.toNat s) (execPass s) :=
  runPass_frame _ _ _

/-- CB.STEP, once: what it can answer (R156). -/
theorem execCbStep_cases (s : State) :
    ((s.stat = .idle ∨ s.stat = .fault) ∧ execCbStep s = .next (refuse .seq s)) ∨
    (s.stat = .done ∧ execCbStep s = .next (respond 2 s)) ∨
    (s.stat = .active ∧ s.blockInRange = false ∧ execCbStep s = .fault .blockOutsideMemory) ∨
    (s.stat = .active ∧ s.blockInRange = true ∧ s.skips s.passIdx.toNat = true ∧
      execCbStep s = .next (respond 0 (stepBody s))) ∨
    (s.stat = .active ∧ s.blockInRange = true ∧ s.skips s.passIdx.toNat = false ∧
      s.slotBad s.passIdx.toNat = true ∧ execCbStep s = .next (refuse .slot s)) ∨
    (s.stat = .active ∧ s.blockInRange = true ∧ s.skips s.passIdx.toNat = false ∧
      s.slotBad s.passIdx.toNat = false ∧ execCbStep s = .next (respond 1 (stepBody s))) := by
  unfold execCbStep
  cases hst : s.stat <;> simp
  cases hb : s.blockInRange <;> cases hk : s.skips s.passIdx.toNat <;>
    cases hl : s.slotBad s.passIdx.toNat <;> simp

/-- CB.RUN, once: what it can answer (R159). -/
theorem execCbRun_cases (s : State) :
    ((s.stat = .idle ∨ s.stat = .fault) ∧ execCbRun s = .next (refuse .seq s)) ∨
    (s.stat = .done ∧ execCbRun s = .next (respond 0 s)) ∨
    (s.stat = .active ∧ s.blockInRange = false ∧ execCbRun s = .fault .blockOutsideMemory) ∨
    (s.stat = .active ∧ s.blockInRange = true ∧ s.remaining.any s.slotBad = true ∧
      execCbRun s = .next (refuse .slot s)) ∨
    (s.stat = .active ∧ s.blockInRange = true ∧ s.remaining.any s.slotBad = false ∧
      execCbRun s = .next (respond 0 (runLoop (3 * s.lat.nbp.toNat - 2) s))) := by
  unfold execCbRun
  cases hst : s.stat <;> simp
  cases hb : s.blockInRange <;> cases hl : s.remaining.any s.slotBad <;> simp_all

/-- What every step body of an ACTIVE state keeps, the loop of `CB.RUN` keeps. -/
theorem runLoop_induct {P : State → Prop} (h : ∀ s, s.stat = .active → P s → P (stepBody s)) (n : Nat) :
    ∀ s, P s → P (runLoop n s) := by
  induction n with
  | zero => intro s hs; exact hs
  | succ n ih =>
    intro s hs
    rw [runLoop]
    split_ifs with ha
    · exact ih _ (h s ha hs)
    · exact hs

end Sys2Proof.Machine
end

