-- ==== Sys2Proof/Laws/PerInstr.lean ====
section
/-! SUPPORT. The statements made for each command: the word an encoder writes carries the opcode of R85, and the
operand where the command is well-formed (R80, R82, R83). -/

namespace Sys2Proof.Laws.OpcodeOfTable

/-- The word of a command has its opcode in bits 15..8, and a well-formed command's operand in bits 7..0. -/
def Statement (i : Instr) : Prop :=
  opcodeOf (encode i) = i.opcode ∧ (i.WellFormed = true → operandOf (encode i) = i.operand)

theorem opcodeOf_append (o b : BitVec 8) : opcodeOf (o ++ b) = o := by
  apply BitVec.eq_of_toNat_eq
  simp only [opcodeOf, BitVec.extractLsb'_toNat, BitVec.toNat_append, Nat.shiftRight_eq_div_pow]
  rw [Nat.shiftLeft_eq, Nat.mul_comm, ← Nat.two_pow_add_eq_or_of_lt b.isLt]
  have := b.isLt
  have := o.isLt
  omega

theorem operandOf_append (o b : BitVec 8) : operandOf (o ++ b) = b.toNat := by
  simp only [operandOf, BitVec.extractLsb'_toNat, BitVec.toNat_append, Nat.shiftRight_zero]
  rw [Nat.shiftLeft_eq, Nat.mul_comm, ← Nat.two_pow_add_eq_or_of_lt b.isLt]
  have := b.isLt
  omega

theorem statement_of_fits {i : Instr} (h : i.WellFormed = true → i.operand < 256) : Statement i :=
  ⟨opcodeOf_append _ _, fun hw => by
    rw [encode, operandOf_append, BitVec.toNat_ofNat]
    exact Nat.mod_eq_of_lt (h hw)⟩

theorem mqReset : Statement .mqReset := statement_of_fits fun _ => by decide
theorem mqAttach (slot : Nat) : Statement (.mqAttach slot) := statement_of_fits of_decide_eq_true
theorem mqRestart : Statement .mqRestart := statement_of_fits fun _ => by decide
theorem mqDecode (cx : Nat) : Statement (.mqDecode cx) := statement_of_fits of_decide_eq_true
theorem mqDecodeu : Statement .mqDecodeu := statement_of_fits fun _ => by decide
theorem rawReset : Statement .rawReset := statement_of_fits fun _ => by decide
theorem rawAttach (slot : Nat) : Statement (.rawAttach slot) := statement_of_fits of_decide_eq_true
theorem rawRestart : Statement .rawRestart := statement_of_fits fun _ => by decide
theorem rawDecode (cx : Nat) : Statement (.rawDecode cx) := statement_of_fits of_decide_eq_true
theorem rawDecodeu : Statement .rawDecodeu := statement_of_fits fun _ => by decide
theorem cbAttach : Statement .cbAttach := statement_of_fits fun _ => by decide
theorem cbStep : Statement .cbStep := statement_of_fits fun _ => by decide
theorem cbRun : Statement .cbRun := statement_of_fits fun _ => by decide

end Sys2Proof.Laws.OpcodeOfTable
end

