-- ==== Sys2Proof/Laws/Raw.lean ====
section
/-! SUPPORT. What the procedures of RAWD can do, said once (R134, R136, R137). -/

namespace Sys2Proof.Machine

variable (mem : Memory Byte) (r : Rawd)

@[simp] theorem rawFill_base : (rawFill mem r).base = r.base := by unfold rawFill; split_ifs <;> rfl
@[simp] theorem rawFill_len : (rawFill mem r).len = r.len := by unfold rawFill; split_ifs <;> rfl
@[simp] theorem rawFill_att : (rawFill mem r).att = r.att := by unfold rawFill; split_ifs <;> rfl
@[simp] theorem rawFill_rdy : (rawFill mem r).rdy = r.rdy := by unfold rawFill; split_ifs <;> rfl

/-- A fetch gives 7 or 8 bits. -/
theorem rawFill_bits : (rawFill mem r).bits = 7 ∨ (rawFill mem r).bits = 8 := by
  unfold rawFill; split_ifs <;> simp

/-- A fetch consumes at most one byte, and only while one is left. -/
theorem rawFill_rl_le (h : r.rl ≤ r.len) : (rawFill mem r).rl ≤ r.len := by
  unfold rawFill; split_ifs <;> simp <;> omega

@[simp] theorem rawDecode_base : (rawDecode mem r).2.base = r.base := by unfold rawDecode; dsimp only; split_ifs <;> simp
@[simp] theorem rawDecode_len : (rawDecode mem r).2.len = r.len := by unfold rawDecode; dsimp only; split_ifs <;> simp
@[simp] theorem rawDecode_att : (rawDecode mem r).2.att = r.att := by unfold rawDecode; dsimp only; split_ifs <;> simp
@[simp] theorem rawDecode_rdy : (rawDecode mem r).2.rdy = r.rdy := by unfold rawDecode; dsimp only; split_ifs <;> simp

/-- After a decode at most 7 bits of the current byte are left (R137). -/
theorem rawDecode_bits (h : r.bits ≤ 7) : (rawDecode mem r).2.bits ≤ 7 := by
  unfold rawDecode
  dsimp only
  split_ifs with h0
  · rcases rawFill_bits mem r with h' | h' <;> simp [h']
  · bv_omega

/-- A decode keeps the cursor inside the segment (R137). -/
theorem rawDecode_rl_le (h : r.rl ≤ r.len) : (rawDecode mem r).2.rl ≤ r.len := by
  unfold rawDecode
  dsimp only
  split_ifs
  · exact rawFill_rl_le mem r h
  · exact h

/-- Past the end a fetch synthesizes a `0xFF` byte and reads none (R136). -/
theorem rawFill_end (h : r.len ≤ r.rl) : rawFill mem r = { r with rt := 0xFF, bits := 8 } := by
  rw [rawFill, if_pos h]

end Sys2Proof.Machine
end

