-- ==== Sys2Proof/Laws/Step.lean ====
section
/-! SUPPORT. What a step, a host write, an operand and a command of MQD or RAWD can do, said once. -/

namespace Sys2Proof.Machine

/-- The slot operand gives the entry of a usable slot and nothing else (R83, R103). -/
theorem slotOperand_eq_some {slot : Nat} {s : State} {e : Slot} :
    slotOperand slot s = some e ↔ s.Usable slot ∧ e = s.slotAt slot := by
  unfold slotOperand State.Usable segInside
  split_ifs with h1 h2
  · simp only [Bool.and_eq_true, decide_eq_true_eq] at h2
    simp [h1, h2, eq_comm]
  · simp only [Bool.and_eq_true, decide_eq_true_eq, not_and] at h2
    simp only [false_iff, not_and]
    exact fun h => absurd h.2.2 (h2 h.2.1)
  · simp [h1]

theorem slotOperand_eq_none {slot : Nat} {s : State} : slotOperand slot s = none ↔ ¬ s.Usable slot := by
  cases h : slotOperand slot s with
  | none =>
    simp only [true_iff]
    intro hu
    have := slotOperand_eq_some.mpr ⟨hu, rfl⟩
    rw [h] at this
    cases this
  | some e =>
    simp only [reduceCtorEq, false_iff, not_not]
    exact (slotOperand_eq_some.mp h).1

theorem ctxOperand_of_lt {cx : Nat} (h : cx < 19) : ctxOperand cx = some ⟨cx, h⟩ := by
  rw [ctxOperand, dif_pos h]

theorem ctxOperand_of_ge {cx : Nat} (h : 19 ≤ cx) : ctxOperand cx = none := by
  rw [ctxOperand, dif_neg (by omega)]

/-- A decode of MQD by command, once: what it can answer (R107, R108). -/
theorem runMqDecode_cases (cx : Fin 19) (s : State) :
    (s.mq.rdy = false ∧ runMqDecode cx s = .next (refuse .seq s)) ∨
    (s.mq.rdy = true ∧ segInside s.cfg s.mq.base s.mq.len = false ∧
      runMqDecode cx s = .fault .segmentOutsideMemory) ∨
    (s.mq.rdy = true ∧ segInside s.cfg s.mq.base s.mq.len = true ∧
      runMqDecode cx s = .next (respond (bitData (mqDecode s.segmem cx s.mq).1)
        { s with mq := (mqDecode s.segmem cx s.mq).2 })) := by
  unfold runMqDecode
  cases h1 : s.mq.rdy <;> cases h2 : segInside s.cfg s.mq.base s.mq.len <;> simp

/-- A raw decode by command, once: what it can answer (R134, R135). -/
theorem runRawDecode_cases (s : State) :
    (s.raw.rdy = false ∧ runRawDecode s = .next (refuse .seq s)) ∨
    (s.raw.rdy = true ∧ segInside s.cfg s.raw.base s.raw.len = false ∧
      runRawDecode s = .fault .segmentOutsideMemory) ∨
    (s.raw.rdy = true ∧ segInside s.cfg s.raw.base s.raw.len = true ∧
      runRawDecode s = .next (respond (bitData (rawDecode s.segmem s.raw).1)
        { s with raw := (rawDecode s.segmem s.raw).2 })) := by
  unfold runRawDecode
  cases h1 : s.raw.rdy <;> cases h2 : segInside s.cfg s.raw.base s.raw.len <;> simp

/-- A host write, once: it writes the descriptor registers, the segment table or segment memory, or it is ignored
(R46). -/
theorem hostWrite_next {target : HostTarget} {v : Nat} {s t : State} (h : hostWrite target v s = .next t) :
    t = s ∨ (∃ d, t = { s with desc := d }) ∨
    (∃ i e, i < s.cfg.nslot ∧ t = { s with segtab := Memory.write blankSlot s.segtab i e } ∧
      ((e.base = (s.slotAt i).base ∨ e.base < 2 ^ Params.lw s.cfg) ∧
        (e.len = (s.slotAt i).len ∨ e.len < 2 ^ Params.lw s.cfg))) ∨
    (∃ a b, a < s.cfg.segsize ∧ t = { s with segmem := Memory.write blankByte s.segmem a b }) := by
  have hlw : ∀ n : Nat, n % 2 ^ Params.lw s.cfg < 2 ^ Params.lw s.cfg := fun n => Nat.mod_lt _ (by positivity)
  have hslot : ∀ i e, writeSlot i e s = .next t → i < s.cfg.nslot ∧
      t = { s with segtab := Memory.write blankSlot s.segtab i e } := by
    intro i e h
    unfold writeSlot at h
    split_ifs at h with hi
    exact ⟨hi, (Host.Outcome.next.inj h).symm⟩
  cases target with
  | segmem a =>
    simp only [hostWrite] at h
    split_ifs at h with ha
    exact .inr (.inr (.inr ⟨a, _, ha, (Host.Outcome.next.inj h).symm⟩))
  | ctx a => exact .inl (Host.Outcome.next.inj h).symm
  | coef a => exact .inl (Host.Outcome.next.inj h).symm
  | reg r =>
    cases r
    case segValid i =>
      obtain ⟨hi, ht⟩ := hslot _ _ h
      exact .inr (.inr (.inl ⟨_, _, hi, ht, .inl rfl, .inl rfl⟩))
    case segBase i =>
      obtain ⟨hi, ht⟩ := hslot _ _ h
      exact .inr (.inr (.inl ⟨_, _, hi, ht, .inr (hlw _), .inl rfl⟩))
    case segLen i =>
      obtain ⟨hi, ht⟩ := hslot _ _ h
      exact .inr (.inr (.inl ⟨_, _, hi, ht, .inl rfl, .inr (hlw _)⟩))
    case descW => exact .inr (.inl ⟨_, (Host.Outcome.next.inj h).symm⟩)
    case descH => exact .inr (.inl ⟨_, (Host.Outcome.next.inj h).symm⟩)
    case descSb => exact .inr (.inl ⟨_, (Host.Outcome.next.inj h).symm⟩)
    case descMsb => exact .inr (.inl ⟨_, (Host.Outcome.next.inj h).symm⟩)
    case descNpass => exact .inr (.inl ⟨_, (Host.Outcome.next.inj h).symm⟩)
    all_goals exact .inl (Host.Outcome.next.inj h).symm

/-- A step, once: idle, a command, an illegal word, a host write, or hardware reset. -/
theorem step_next {s t : State} (h : step s = .next t) :
    (s.pending = [] ∧ t = s) ∨
    (∃ w rest i, s.pending = .command w :: rest ∧ decode w = .ok i ∧
      exec i { s with pending := rest } = .next t) ∨
    (∃ w rest, s.pending = .command w :: rest ∧ t = refuse .opc { s with pending := rest }) ∨
    (∃ target v rest, s.pending = .write target v :: rest ∧
      hostWrite target v { s with pending := rest } = .next t) ∨
    (∃ rest, s.pending = .hardReset :: rest ∧ t = hardwareReset { s with pending := rest }) := by
  unfold step nextAction at h
  split at h
  · rename_i hn
    refine .inl ⟨?_, (Host.Outcome.next.inj h).symm⟩
    split at hn
    · assumption
    · cases hn
  · rename_i w s1 hn
    split at hn
    · cases hn
    · rename_i rest hp
      obtain ⟨rfl, rfl⟩ := Prod.mk.inj (Option.some.inj hn)
      split at h
      · exact .inr (.inl ⟨w, rest, _, hp, by assumption, h⟩)
      · exact .inr (.inr (.inl ⟨w, rest, hp, (Host.Outcome.next.inj h).symm⟩))
  · rename_i target v s1 hn
    split at hn
    · cases hn
    · rename_i rest hp
      obtain ⟨rfl, rfl⟩ := Prod.mk.inj (Option.some.inj hn)
      exact .inr (.inr (.inr (.inl ⟨target, v, rest, hp, h⟩)))
  · rename_i s1 hn
    split at hn
    · cases hn
    · rename_i rest hp
      obtain ⟨rfl, rfl⟩ := Prod.mk.inj (Option.some.inj hn)
      exact .inr (.inr (.inr (.inr ⟨rest, hp, (Host.Outcome.next.inj h).symm⟩)))

/-! ### Commands issued one after the other (R89) -/

@[simp] theorem issueAll_nil (s : State) : issueAll [] s = some s := rfl

theorem issueAll_cons {i : Instr} {s t : State} (h : exec i s = .next t) (is : List Instr) :
    issueAll (i :: is) s = issueAll is t := by
  rw [issueAll, h]

@[simp] theorem issue_zero (i : Instr) (s : State) : issue i 0 s = some s := rfl

theorem issue_succ {i : Instr} {s t : State} (h : exec i s = .next t) (n : Nat) :
    issue i (n + 1) s = issue i n t :=
  issueAll_cons h _

end Sys2Proof.Machine
end

