-- ==== Sys2Proof/Tests/Slice0.lean ====
section
/-! SUPPORT. The tests: ill-formed commands, words written out from the opcode table (R85), steps on the vectors of
spec/95_test_vectors.md, and one witness for the hypotheses of every statement that has some. -/

set_option autoImplicit false

namespace Sys2Proof.Tests

open Sys2Proof Sys2Proof.Machine

set_option Elab.async false

/-! ### Ill-formed commands -/

theorem test_wellFormed_refuses_mqAttach : (Instr.mqAttach 256).WellFormed = false := by decide
theorem test_wellFormed_refuses_mqDecode : (Instr.mqDecode 256).WellFormed = false := by decide
theorem test_wellFormed_refuses_rawAttach : (Instr.rawAttach 256).WellFormed = false := by decide
theorem test_wellFormed_refuses_rawDecode : (Instr.rawDecode 256).WellFormed = false := by decide

/-! ### Words written out from the table of R85: `{OPC, OPD}` -/

theorem test_decode_mqReset : decode 0b0000000100000000 = .ok .mqReset := by decide
theorem test_decode_mqAttach : decode 0b0000001000000011 = .ok (.mqAttach 3) := by decide
theorem test_decode_mqRestart : decode 0b0000001100000000 = .ok .mqRestart := by decide
theorem test_decode_mqDecode : decode 0b0000010000001001 = .ok (.mqDecode 9) := by decide
theorem test_decode_mqDecodeu : decode 0b0000010100000000 = .ok .mqDecodeu := by decide
theorem test_decode_rawReset : decode 0b0001000100000000 = .ok .rawReset := by decide
theorem test_decode_rawAttach : decode 0b0001001000000001 = .ok (.rawAttach 1) := by decide
theorem test_decode_rawRestart : decode 0b0001001100000000 = .ok .rawRestart := by decide
theorem test_decode_rawDecode : decode 0b0001010011111111 = .ok (.rawDecode 255) := by decide
theorem test_decode_rawDecodeu : decode 0b0001010100000000 = .ok .rawDecodeu := by decide
theorem test_decode_cbAttach : decode 0b0010000000000000 = .ok .cbAttach := by decide
theorem test_decode_cbStep : decode 0b0010000100000000 = .ok .cbStep := by decide
theorem test_decode_cbRun : decode 0b0010001000000000 = .ok .cbRun := by decide
theorem test_decode_illegal : decode 0x1600 = .error (.illegalOpcode 0x16) := by decide
theorem test_decodeTableWord : decodeTableWord 16 0x0413 = some (.mqDecode 19) := by decide

/-! ### Helpers -/

/-- The command answers a next state. -/
def answers (o : Host.Outcome State Fault Refusal) : Bool :=
  match o with
  | .next _ => true
  | .fault _ => false
  | .refused _ => false

/-- The next state of an outcome that has one. -/
def after (o : Host.Outcome State Fault Refusal) : State :=
  match o with
  | .next t => t
  | .fault _ => State.reset
  | .refused _ => State.reset

theorem next_after {o : Host.Outcome State Fault Refusal} (h : answers o = true) : o = .next (after o) := by
  cases o
  · rfl
  · cases h
  · cases h

/-- The reset state with the given bytes from address 0 and slot 0 covering them, slot 1 ill-formed at the top of segment
memory and slot 2 the last two bytes of it. -/
def withSegment (bytes : List Byte) : State :=
  { State.reset with
    segmem := (bytes.zipIdx).foldl (fun m p => Memory.write blankByte m p.2 p.1) []
    segtab := [(0, { valid := true, base := 0, len := bytes.length }), (1, { valid := true, base := 65535, len := 2 }),
      (2, { valid := true, base := 65534, len := 2 })] }

/-- The state with MQD attached to slot 0 and restarted. -/
def mqReady (bytes : List Byte) : State := after (exec .mqRestart (after (exec (.mqAttach 0) (withSegment bytes))))

/-- The state with RAWD attached to slot 0 and restarted. -/
def rawReady (bytes : List Byte) : State := after (exec .rawRestart (after (exec (.rawAttach 0) (withSegment bytes))))

/-- The state with a block attached: `w` by `h`, class `sb`, `msb`, `npass`, the segment in slot 0. -/
def blockReady (bytes : List Byte) (w h : BitVec 16) (sb : Subband) (msb : BitVec 8) (npass : BitVec 16) : State :=
  after (exec .cbAttach { withSegment bytes with desc := { w := w, h := h, sb := sb, msb := msb, npass := npass } })

/-- Scenario B of 95_test_vectors.md 6.2: one coefficient, segment `03`. -/
def scenarioB : State := blockReady [0x03] 1 1 .ll 0 1

/-! ### Steps on the vectors of 95_test_vectors.md -/

/-- 2.1 -/
theorem test_mqReset_startup : ((after (exec .mqReset State.reset)).mq.ctx[(9 : Fin 19)]).word = 0x03 := by
  decide +kernel
/-- 2.6, rows 6 and 8 -/
theorem test_mqAttach_refused : (after (exec (.mqAttach 1) (withSegment []))).rsp = 0x40 ∧
    (after (exec (.mqAttach 5) (withSegment []))).flt = 0x08 := by decide +kernel
/-- R103 -/
theorem test_mqAttach_base : (after (exec (.mqAttach 2) (withSegment []))).mq.base = 65534 := by decide +kernel
/-- R105, the corner cases -/
theorem test_mqRestart_marker : (mqReady [0xFF, 0x90, 0x00]).mq.c = 0x007FFF80 ∧
    (mqReady [0xFF, 0x90, 0x00]).mq.mrk = true := by decide +kernel
/-- R105, the example -/
theorem test_mqRestart_example : (mqReady [0x84, 0xC7]).mq.c = 0x00426380 ∧ (mqReady [0x84, 0xC7]).mq.t = 1 := by
  decide +kernel
/-- 2.3, MG1, n = 0 -/
theorem test_mqDecode_exchange : (after (exec (.mqDecode 1) (mqReady [0xFF, 0x7F]))).mq.c = 0x00A7FBFC ∧
    (after (exec (.mqDecode 1) (mqReady [0xFF, 0x7F]))).rsp = 1 := by decide +kernel
/-- 2.6, row 4 -/
theorem test_mqDecode_context : (after (exec (.mqDecode 19) State.reset)).flt = 0x02 := by decide +kernel
/-- R108, the example: the first bit on `80 00` -/
theorem test_mqDecodeu : (after (exec .mqDecodeu (mqReady [0x80, 0x00]))).rsp = 0 := by decide +kernel
/-- R131 -/
theorem test_rawReset : (after (exec .rawReset { State.reset with rsp := 0x40 })).rsp = 0 := by decide +kernel
/-- R132 -/
theorem test_rawAttach : (after (exec (.rawAttach 2) (withSegment []))).raw.len = 2 := by decide +kernel
/-- Section 3: refused without a segment -/
theorem test_rawRestart_refused : (after (exec .rawRestart State.reset)).rsp = 0x30 := by decide +kernel
/-- Section 3, `A5 FF 7F 80`, n = 0 -/
theorem test_rawDecode_first : (after (exec (.rawDecode 7) (rawReady [0xA5]))).rsp = 1 ∧
    (after (exec (.rawDecode 7) (rawReady [0xA5]))).raw.bits = 7 := by decide +kernel
/-- Section 3, the empty segment -/
theorem test_rawDecodeu_padding : (after (exec .rawDecodeu (rawReady []))).raw.rt = 0xFF := by decide +kernel
/-- 6.1: the largest legal descriptor, and `DESC_MSB = MAGW` -/
theorem test_cbAttach_valid : (blockReady [] 64 64 .ll 30 1).stat = .active ∧
    (blockReady [] 4 4 .ll 31 1).stat = .fault := by decide +kernel
/-- 6.2, Scenario B -/
theorem test_cbStep_magnitude : (after (exec .cbStep scenarioB)).coefAt 0 0 = { sgn := false, mag := 1 } := by
  decide +kernel
theorem test_cbStep_registers : (after (exec .cbStep scenarioB)).mq.c = 0x007FFFE0 ∧
    (after (exec .cbStep scenarioB)).bp = 0xFF := by decide +kernel
/-- 6.2, B3−: the half-bit and the sign -/
theorem test_cbRun_halfBit :
    (after (exec .cbRun (blockReady [0x07] 1 1 .ll 3 1))).coefAt 0 0 = { sgn := true, mag := 12 } := by decide +kernel
/-- 6.1: an ill-formed slot -/
theorem test_cbRun_slot : (after (exec .cbRun { scenarioB with
    segtab := [(0, { valid := true, base := 65536, len := 1 })] })).rsp = 0x40 := by decide +kernel
/-- 2.6, row 9 -/
theorem test_step_illegal : (after (step (State.reset.withFetchWord 16 0x0600))).rsp = 0x10 := by decide +kernel

/-! ### Witnesses: a concrete case for the hypotheses of each statement -/

theorem witness_DecodeEncodeRoundTrip : (Instr.mqAttach 255).WellFormed = true ∧ (Instr.rawDecode 0).WellFormed = true :=
  by decide

theorem witness_DecodedWordFields : decode 0x04FF = .ok (.mqDecode 255) ∧
    (Instr.mqDecode 255).opcode ∈ ([0x02, 0x04, 0x12, 0x14] : List (BitVec 8)) := by decide

theorem witness_IllegalOpcodeRefused : (present 0x2300 State.reset).pending = .command 0x2300 :: [] ∧
    (0x2300 : CmdWord).extractLsb' 8 8 ∉
      ([0x01, 0x02, 0x03, 0x04, 0x05, 0x11, 0x12, 0x13, 0x14, 0x15, 0x20, 0x21, 0x22] : List (BitVec 8)) := by
  decide +kernel

theorem witness_UnusedOperandIgnored : (0x2100 : CmdWord).extractLsb' 8 8 = (0x21FF : CmdWord).extractLsb' 8 8 ∧
    (0x2100 : CmdWord).extractLsb' 8 8 ∉ ([0x02, 0x04, 0x12, 0x14] : List (BitVec 8)) ∧
    Instr.cbStep.opcode ∉ ([0x02, 0x04, 0x12, 0x14] : List (BitVec 8)) := by decide

theorem witness_StepRunsDecodedCommand : (present 0x0100 State.reset).pending = .command 0x0100 :: [] ∧
    decode 0x0100 = .ok .mqReset ∧ State.reset.pending = [] := by decide +kernel

theorem witness_HardwareResetValues : ({ scenarioB with pending := [.hardReset] } : State).pending = .hardReset :: [] :=
  by decide +kernel

theorem witness_HostReadOnlyAccess :
    (∃ s : State, s.pending = .write (.reg (.cx 18)) 5 :: [] ∧ (Reg.cx 18).number < 0x40) ∧
    (∃ s : State, s.pending = .write (.reg .lwid) 5 :: [] ∧ 0x44 < Reg.lwid.number ∧ Reg.lwid.number < 0x100) ∧
    (∃ s : State, s.pending = .write (.ctx 0) 5 :: []) ∧ ∃ s : State, s.pending = .write (.coef 0) 5 :: [] :=
  ⟨⟨{ State.reset with pending := [.write (.reg (.cx 18)) 5] }, rfl, by decide⟩,
    ⟨{ State.reset with pending := [.write (.reg .lwid) 5] }, rfl, by decide, by decide⟩,
    ⟨{ State.reset with pending := [.write (.ctx 0) 5] }, rfl⟩,
    ⟨{ State.reset with pending := [.write (.coef 0) 5] }, rfl⟩⟩

/-- The first and the last coefficient of a block, and the index right after it. -/
theorem witness_HostReadOnlyAccess_reads :
    0 < (blockReady [] 64 64 .ll 30 1).lat.wid.toNat ∧ 63 < (blockReady [] 64 64 .ll 30 1).lat.hgt.toNat ∧
    (blockReady [] 64 64 .ll 30 1).lat.wid.toNat * (blockReady [] 64 64 .ll 30 1).lat.hgt.toNat ≤ 4096 := by
  decide +kernel

theorem witness_HostWritesReadBack :
    MemoriesWf { State.reset with pending := [.write (.reg .descW) 65536] } ∧
    0x40 ≤ Reg.descW.number ∧ Reg.descNpass.number ≤ 0x44 ∧ 255 < State.reset.cfg.nslot ∧
    65535 < State.reset.cfg.segsize := by decide +kernel

theorem witness_CommandFrames : ∃ t, exec .rawReset scenarioB = .next t ∧ Instr.rawReset ≠ .cbAttach ∧
    commandUnit .rawReset ≠ 2 ∧ commandUnit .rawReset = 1 ∧ commandUnit .cbAttach ≠ 1 :=
  ⟨_, next_after (by decide +kernel), by decide, by decide, by decide, by decide⟩

theorem witness_FaultRecordNeverRead : ∃ t, exec .cbStep scenarioB = .next t :=
  ⟨_, next_after (by decide +kernel)⟩

theorem witness_RefusalChangesNothing : ∃ t, (present 0x2000 State.reset).pending = .command 0x2000 :: [] ∧
    step (present 0x2000 State.reset) = .next t ∧ rspCode t.rsp ≠ 0 :=
  ⟨_, rfl, next_after (by decide +kernel), by decide +kernel⟩

theorem witness_ResponseFormat : ∃ t, step (present 0x2100 scenarioB) = .next t ∧ rspCode t.rsp = 0 :=
  ⟨_, next_after (by decide +kernel), by decide +kernel⟩

theorem witness_MqAttachResult : (withSegment []).Usable 0 ∧ (withSegment []).Usable 2 ∧ ¬ (withSegment []).Usable 1 ∧
    ¬ (withSegment []).Usable 255 ∧ ¬ (withSegment []).Usable 256 := by decide +kernel

/-- The four clauses of R104, the bytes `8F` and `90` at the boundary of the marker. -/
theorem witness_FillByteRule :
    (mqReady []).mq.len ≤ (mqReady []).mq.l ∧
    ((withSegment [0x90]).mq.l < 1 ∧ (0x8F : Byte) < 0x90 ∧ segByte (withSegment [0x90]).segmem 0 = 0x90) ∧
    ((withSegment [0x8F]).mq.l < 1 ∧ (0x8F : Byte) ≤ 0x8F ∧ segByte (withSegment [0x8F]).segmem 0 = 0x8F) ∧
    (withSegment [0x8F]).mq.tr ≠ 0xFF := by decide +kernel

/-- The clauses of R105: nothing attached, and the segments empty, `84`, `84 C7`, `FF 8F`, `FF 90`. -/
theorem witness_MqRestartResult :
    State.reset.mq.att = false ∧
    (∀ bytes ∈ ([[], [0x84], [0x84, 0xC7], [0xFF, 0x8F], [0xFF, 0x90]] : List (List Byte)),
      (mqReady bytes).mq.att = true ∧ (mqReady bytes).mq.base + (mqReady bytes).mq.len ≤ (mqReady bytes).cfg.segsize ∧
      (mqReady bytes).mq.len = bytes.length) ∧
    segByte (mqReady [0xFF, 0x8F]).segmem 0 = 0xFF ∧ segByte (mqReady [0xFF, 0x8F]).segmem 1 ≤ 0x8F ∧
    0x8F < segByte (mqReady [0xFF, 0x90]).segmem 1 := by decide +kernel

/-- After `84 C7` one bit is pending, after `FF 8F` none. -/
theorem witness_RenormRule : (mqReady [0x84, 0xC7]).mq.t ≠ 0 ∧ (mqReady [0xFF, 0x8F]).mq.t = 0 ∧ (1 : Reg32) ≤ 1 ∧ (1 : Reg32) < 0x8000 ∧ (0x7FFF : Reg32) < 0x8000 := by
  decide +kernel

theorem witness_MqDecodeResult : MqOk State.reset ∧ State.reset.mq.rdy = false ∧ MqOk (mqReady [0xFF, 0x7F]) ∧
    (mqReady [0xFF, 0x7F]).mq.rdy = true ∧ 18 < 19 := by decide +kernel

theorem witness_MqDecodeuResult : State.reset.mq.rdy = false ∧ MqOk (mqReady []) ∧ EquiprobableOk (mqReady []) ∧
    (mqReady []).mq.rdy = true := by decide +kernel

theorem witness_MqOperationsDisjoint :
    (∃ t, exec .mqReset State.reset = .next t) ∧ (∃ t, exec (.mqAttach 0) (withSegment []) = .next t) ∧
    (∃ t, exec .mqRestart (mqReady []) = .next t) ∧ (∃ t, exec (.mqDecode 0) (mqReady []) = .next t) ∧
    ∃ t, exec .mqDecodeu (mqReady []) = .next t :=
  ⟨⟨_, next_after (by decide +kernel)⟩, ⟨_, next_after (by decide +kernel)⟩, ⟨_, next_after (by decide +kernel)⟩,
    ⟨_, next_after (by decide +kernel)⟩, ⟨_, next_after (by decide +kernel)⟩⟩

theorem witness_PaddingNeverFaults :
    (∀ i ∈ ([.mqDecode 0, .mqDecodeu, .mqDecode 18] : List Instr), i = .mqDecodeu ∨ ∃ cx, cx < 19 ∧ i = .mqDecode cx) ∧
    ([.mqDecode 0, .mqDecodeu, .mqDecode 18] : List Instr) ≠ [] ∧ MqOk (mqReady []) ∧ (mqReady []).mq.rdy = true ∧
    (mqReady []).mq.len ≤ (mqReady []).mq.l := by
  refine ⟨fun i hi => ?_, by decide, by decide +kernel, by decide +kernel, by decide +kernel⟩
  simp only [List.mem_cons, List.not_mem_nil, or_false] at hi
  rcases hi with rfl | rfl | rfl
  · exact .inr ⟨0, by decide, rfl⟩
  · exact .inl rfl
  · exact .inr ⟨18, by decide, rfl⟩

/-- The other memory differs from the segment memory in the byte after the segment. -/
theorem witness_NoReadOutsideSegment : ∃ (t : State) (m : Memory Byte), exec .rawDecodeu (rawReady [0xA5]) = .next t ∧
    m ≠ (rawReady [0xA5]).segmem ∧
    (∀ k, k < (rawReady [0xA5]).mq.len → segByte m ((rawReady [0xA5]).mq.base + k) =
      segByte (rawReady [0xA5]).segmem ((rawReady [0xA5]).mq.base + k)) ∧
    (∀ k, k < (rawReady [0xA5]).raw.len → segByte m ((rawReady [0xA5]).raw.base + k) =
      segByte (rawReady [0xA5]).segmem ((rawReady [0xA5]).raw.base + k)) ∧
    (∀ p, p < (rawReady [0xA5]).cfg.nslot → ((rawReady [0xA5]).slotAt p).valid = true →
      ∀ k, k < ((rawReady [0xA5]).slotAt p).len → segByte m (((rawReady [0xA5]).slotAt p).base + k) =
        segByte (rawReady [0xA5]).segmem (((rawReady [0xA5]).slotAt p).base + k)) :=
  ⟨_, [(0, 0xA5), (1, 0x77)], next_after (by decide +kernel), by decide +kernel, by decide +kernel, by decide +kernel,
    by decide +kernel⟩

theorem witness_CodeRegisterHighBitsUnused :
    (0xFF007FFF : Reg32).extractLsb' 0 24 = (0x00007FFF : Reg32).extractLsb' 0 24 := by decide

theorem witness_MqInvariantKept : MqOk (present 0x0401 (mqReady [0xFF, 0x7F])) ∧
    ∃ t, step (present 0x0401 (mqReady [0xFF, 0x7F])) = .next t :=
  ⟨by decide +kernel, _, next_after (by decide +kernel)⟩

theorem witness_EquiprobableContextFixed : EquiprobableOk (present 0x0500 (mqReady [])) ∧
    ∃ t, step (present 0x0500 (mqReady [])) = .next t :=
  ⟨by decide +kernel, _, next_after (by decide +kernel)⟩

theorem witness_RawAttachResult : (withSegment []).Usable 0 ∧ (withSegment []).Usable 2 ∧ ¬ (withSegment []).Usable 1 ∧
    ¬ (withSegment []).Usable 256 := by decide +kernel

theorem witness_RawRestartResult : State.reset.raw.att = false ∧ (rawReady []).raw.att = true := by decide +kernel

/-- The clauses of R134: not ready, a bit left, past the end, and the next byte after an ordinary and after a `0xFF`. -/
theorem witness_RawDecodeResult :
    (RawOk State.reset ∧ State.reset.raw.rdy = false) ∧
    (RawOk (after (exec .rawDecodeu (rawReady [0xA5]))) ∧ 0 < (after (exec .rawDecodeu (rawReady [0xA5]))).raw.bits) ∧
    (RawOk (rawReady []) ∧ (rawReady []).raw.bits = 0 ∧ (rawReady []).raw.len ≤ (rawReady []).raw.rl) ∧
    (RawOk (rawReady [0xFF, 0x80]) ∧ (rawReady [0xFF, 0x80]).raw.rl < (rawReady [0xFF, 0x80]).raw.len ∧
      (rawReady [0xFF, 0x80]).raw.rt ≠ 0xFF) ∧
    RawOk { rawReady [0xFF, 0x80] with raw := { (rawReady [0xFF, 0x80]).raw with rt := 0xFF, rl := 1 } } := by
  decide +kernel

theorem witness_RawSegmentBits : RawOk (rawReady [0xFF, 0x80]) ∧ (rawReady [0xFF, 0x80]).raw.att = true := by
  decide +kernel

theorem witness_RawInvariantKept : RawOk (present 0x1500 (rawReady [0xA5])) ∧
    ∃ t, step (present 0x1500 (rawReady [0xA5])) = .next t :=
  ⟨by decide +kernel, _, next_after (by decide +kernel)⟩

theorem witness_RawdAndDescriptorIndependent : (∃ t, exec .cbStep scenarioB = .next t) ∧ commandUnit .cbStep ≠ 1 ∧
    Instr.cbStep ≠ .cbAttach ∧ (∃ t, exec .rawDecodeu (rawReady []) = .next t) ∧ commandUnit .rawDecodeu = 1 :=
  ⟨⟨_, next_after (by decide +kernel)⟩, by decide, by decide, ⟨_, next_after (by decide +kernel)⟩, by decide⟩

/-- `DESC_MSB + 1 = NBP` is valid, one less is not (R152, 6.1). -/
theorem witness_CbAttachResult : MemoriesWf scenarioB ∧ ¬ DescBad scenarioB.cfg scenarioB.desc ∧
    DescBad scenarioB.cfg { scenarioB.desc with npass := 2 } ∧
    DescBad scenarioB.cfg { scenarioB.desc with msb := 0xFF } ∧ DescBad scenarioB.cfg { scenarioB.desc with w := 0 } ∧
    DescBad scenarioB.cfg { scenarioB.desc with h := 65 } ∧ DescBad scenarioB.cfg { scenarioB.desc with msb := 31 } := by
  decide +kernel

/-- The clauses of R156: not attached, done, absent, ill-formed, and executed. -/
theorem witness_CbStepResult :
    (SeqOk State.reset ∧ State.reset.stat = .idle) ∧
    (SeqOk (after (exec .cbStep scenarioB)) ∧ (after (exec .cbStep scenarioB)).stat = .done) ∧
    (SeqOk scenarioB ∧ scenarioB.stat = .active ∧ ¬ scenarioB.Absent 0 ∧ ¬ scenarioB.IllFormed 0) ∧
    (SeqOk { scenarioB with segtab := [] } ∧ ({ scenarioB with segtab := [] } : State).Absent 0) ∧
    (SeqOk (blockReady [] 1 1 .ll 1 4) ∧ (blockReady [] 1 1 .ll 1 4).IllFormed 1) :=
  ⟨by decide +kernel, by decide +kernel, by decide +kernel, by decide +kernel, by decide +kernel⟩

theorem witness_PassIndexAdvancesByOne :
    (∃ t, exec .cbAttach scenarioB = .next t ∧ t.stat = .active) ∧ SeqOk scenarioB ∧ scenarioB.stat = .active ∧
    ∃ t, exec .cbStep scenarioB = .next t ∧ rspCode t.rsp = 0 :=
  ⟨⟨_, next_after (by decide +kernel), by decide +kernel⟩, by decide +kernel, by decide +kernel, _,
    next_after (by decide +kernel), by decide +kernel⟩

theorem witness_CbTerminalAfterAllPasses : SeqOk scenarioB ∧ scenarioB.stat = .active ∧ scenarioB.passIdx = 0 ∧
    ∀ p, p + 3 ≤ 3 * scenarioB.lat.nbp.toNat → ¬ scenarioB.IllFormed p := by
  refine ⟨by decide +kernel, by decide +kernel, by decide +kernel, fun p hp => ?_⟩
  have h1 : scenarioB.lat.nbp.toNat = 1 := by decide +kernel
  have h0 : p = 0 := by omega
  subst h0
  decide +kernel

/-- The clauses of R159: not attached, done, an ill-formed remaining slot, and none. -/
theorem witness_CbRunResult :
    (SeqOk State.reset ∧ State.reset.stat = .idle) ∧
    (SeqOk (after (exec .cbStep scenarioB)) ∧ (after (exec .cbStep scenarioB)).stat = .done) ∧
    (SeqOk (blockReady [] 1 1 .ll 1 4) ∧ (blockReady [] 1 1 .ll 1 4).stat = .active ∧
      (blockReady [] 1 1 .ll 1 4).IllFormed 1 ∧ 1 + 3 ≤ 3 * (blockReady [] 1 1 .ll 1 4).lat.nbp.toNat) ∧
    ∀ p, 0 ≤ p → p + 3 ≤ 3 * scenarioB.lat.nbp.toNat → ¬ scenarioB.IllFormed p :=
  ⟨by decide +kernel, by decide +kernel, by decide +kernel, fun p _ hp => witness_CbTerminalAfterAllPasses.2.2.2 p hp⟩

theorem witness_SequencerInvariantKept : SeqOk (present 0x2100 scenarioB) ∧
    ∃ t, step (present 0x2100 scenarioB) = .next t :=
  ⟨by decide +kernel, _, next_after (by decide +kernel)⟩

theorem witness_CellValuesInvariantKept : MemoriesWf (present 0x2100 scenarioB) ∧ CellsOk (present 0x2100 scenarioB) ∧
    ∃ t, step (present 0x2100 scenarioB) = .next t :=
  ⟨by decide +kernel, by decide +kernel, _, next_after (by decide +kernel)⟩

theorem witness_CoefInvariantKept : MemoriesWf (present 0x2100 scenarioB) ∧ CellsOk (present 0x2100 scenarioB) ∧
    CoefOk (present 0x2100 scenarioB) ∧ ∃ t, step (present 0x2100 scenarioB) = .next t :=
  ⟨by decide +kernel, by decide +kernel, by decide +kernel, _, next_after (by decide +kernel)⟩

theorem witness_LabelInvariantKept : MemoriesWf (present 0x2100 scenarioB) ∧ CellsOk (present 0x2100 scenarioB) ∧
    LabelsOk (present 0x2100 scenarioB) ∧ ∃ t, step (present 0x2100 scenarioB) = .next t :=
  ⟨by decide +kernel, by decide +kernel, by decide +kernel, _, next_after (by decide +kernel)⟩

theorem witness_MemoryInvariantsKept : Inv (present 0x2100 scenarioB) ∧
    ∃ t, step (present 0x2100 scenarioB) = .next t :=
  ⟨⟨by decide +kernel, by decide +kernel, by decide +kernel, by decide +kernel, by decide +kernel, by decide +kernel,
    by decide +kernel, by decide +kernel, by decide +kernel⟩, _, next_after (by decide +kernel)⟩

theorem witness_CommandsNeverStop : MqOk (present 0x2100 scenarioB) ∧ RawOk (present 0x2100 scenarioB) ∧
    SeqOk (present 0x2100 scenarioB) ∧ NextWriteOk (present 0x2100 scenarioB) ∧
    NextWriteOk { State.reset with pending := [.write (.segmem 65535) 1] } :=
  ⟨by decide +kernel, by decide +kernel, by decide +kernel, trivial, by decide +kernel⟩

/-- A 3 by 5 block with cells that are not significant, significant by cleanup and by propagation. -/
def cells : State :=
  (((blockReady [0x01, 0x8F, 0x0D] 3 5 .hl 2 7).setCtx 1 1 15).setCtx 0 0 (-16)).setCtx 1 3 2

/-- The sums just below their maxima, and the largest label. -/
theorem witness_NextTablesFollowLabels : 1 < 2 ∧ 3 < 4 ∧ label .g0 1 1 3 = 7 ∧ label .g0 2 1 3 = 8 := by decide

theorem witness_LaterIsScanOrder : cells.neighbour .downLeft 1 3 = some (0, 4) ∧
    cells.neighbour .upRight 1 4 = some (2, 3) ∧ cells.neighbour .upRight 1 1 = some (2, 0) := by decide +kernel

theorem witness_NeighbourUpdateCells : MemoriesWf cells ∧ cells.InBlock 0 1 ∧
    (cells.neighbour .right 0 1 = some (1, 1) ∧ (cells.ctxAt 1 1).natAbs = 15) ∧
    (cells.neighbour .up 0 1 = some (0, 0) ∧ 15 < (cells.ctxAt 0 0).natAbs) ∧
    (cells.neighbour .down 0 1 = some (0, 2) ∧ (cells.ctxAt 0 2).natAbs ≤ 8) ∧ cells.InBlock 2 4 := by decide +kernel

theorem witness_SignifyResult : MemoriesWf cells ∧ cells.InBlock 2 1 ∧ significant (cells.ctxAt 2 1) = false ∧
    cells.coefAt 2 1 = { sgn := false, mag := 0 } := by decide +kernel

theorem witness_MrpResult : MemoriesWf cells ∧ LegalBlock cells ∧ (cells.InBlock 1 1 ∧ 15 ≤ cells.ctxAt 1 1) ∧
    (cells.InBlock 0 0 ∧ cells.ctxAt 0 0 ≤ -15) ∧ cells.InBlock 2 4 ∧ (cells.ctxAt 2 4).natAbs < 15 := by decide +kernel

/-- The cells at the ends of the ranges of R170 and R172. -/
theorem witness_PassCellRules_cells :
    (scenarioB.setCtx 0 0 1).ctxAt 0 0 = (1 : Nat) ∧ (scenarioB.setCtx 0 0 8).ctxAt 0 0 = (8 : Nat) ∧
    scenarioB.ctxAt 0 0 = -(0 : Nat) ∧ (scenarioB.setCtx 0 0 (-8)).ctxAt 0 0 = -(8 : Nat) ∧
    scenarioB.ctxAt 0 0 < 1 ∧ 8 < (scenarioB.setCtx 0 0 15).ctxAt 0 0 ∧
    (scenarioB.setCtx 0 0 (-15)).ctxAt 0 0 < -8 := by decide +kernel

/-- A column of four zeros whose run bit is 0 (6.2, Scenario A), one whose run bit is 1, one that is not all 0, and one
of a shorter stripe. -/
theorem witness_PassCellRules_columns :
    (∀ y, 0 ≤ y → y < 0 + 4 → (mqReady [0xFF, 0x7F]).ctxAt 0 y = 0) ∧
    (mqDecode (mqReady [0xFF, 0x7F]).segmem 9 (mqReady [0xFF, 0x7F]).mq).1 = false ∧
    (∀ y, 0 ≤ y → y < 0 + 4 → (mqReady [0x00]).ctxAt 0 y = 0) ∧
    (mqDecode (mqReady [0x00]).segmem 9 (mqReady [0x00]).mq).1 = true ∧
    cells.ctxAt 1 1 ≠ 0 ∧ scenarioB.height ≠ 4 := by
  refine ⟨fun y _ _ => rfl, by decide +kernel, fun y _ _ => rfl, by decide +kernel, by decide +kernel, by decide +kernel⟩

/-- An attached block has no cell for an SPP or an MRP; a block whose one cell is 17 has none for a CUP. -/
theorem witness_PassCellRules_skip :
    (∀ x, x < scenarioB.width → ∀ y, y < scenarioB.height → ¬ (1 ≤ scenarioB.ctxAt x y ∧ scenarioB.ctxAt x y ≤ 8) ∧
      (scenarioB.ctxAt x y).natAbs < 15) ∧
    (∀ x, x < scenarioB.width → ∀ y, y < scenarioB.height →
      ¬ (-8 ≤ (scenarioB.setCtx 0 0 17).ctxAt x y ∧ (scenarioB.setCtx 0 0 17).ctxAt x y ≤ 0)) := by decide +kernel

theorem witness_SignificantCoefficientsKept : MemoriesWf cells ∧ LegalBlock cells ∧ cells.InBlock 1 1 ∧
    significant (cells.ctxAt 1 1) = true := by decide +kernel

theorem witness_CleanupLeavesNoNegative : MemoriesWf cells ∧ LegalBlock cells ∧ MemoriesWf scenarioB ∧
    LegalBlock scenarioB ∧ ∀ x, x < scenarioB.width → ∀ y, y < scenarioB.height → -15 < scenarioB.ctxAt x y :=
  ⟨by decide +kernel, by decide +kernel, by decide +kernel, by decide +kernel, by decide +kernel⟩

theorem witness_EmptyBlockStaysZero : MemoriesWf { scenarioB with segtab := [] } ∧
    ¬ DescBad scenarioB.cfg scenarioB.desc ∧
    ∀ p, p < scenarioB.desc.npass.toNat → p < scenarioB.cfg.nslot →
      (({ scenarioB with segtab := [] } : State).slotAt p).valid = false := by decide +kernel

/-- Two machines with the same inputs, one of which has decoded the block. -/
theorem witness_AttachForgetsOldBlock : ∃ s1 s2 : State, s1 ≠ s2 ∧ MemoriesWf s1 ∧ MemoriesWf s2 ∧ s1.cfg = s2.cfg ∧
    s1.desc = s2.desc ∧ s1.segtab = s2.segtab ∧ s1.segmem = s2.segmem ∧ ¬ DescBad s1.cfg s1.desc :=
  ⟨scenarioB, after (exec .cbRun scenarioB), by decide +kernel, by decide +kernel, by decide +kernel, by decide +kernel,
    by decide +kernel, by decide +kernel, by decide +kernel, by decide +kernel⟩

/-- The second machine differs in MQD's registers, a cell outside the block, `FLT` and the descriptor registers. -/
def scenarioB2 : State :=
  { scenarioB with
    mq := { scenarioB.mq with a := 5, c := 77, l := 9, rdy := true }
    ctxmap := Memory.write blankCell scenarioB.ctxmap 7 3
    flt := 3
    desc := { scenarioB.desc with w := 9 } }

theorem witness_NoStateBleed : MemoriesWf scenarioB ∧ MemoriesWf scenarioB2 ∧ SameBlock scenarioB scenarioB2 ∧
    scenarioB ≠ scenarioB2 ∧ ∃ t, exec .cbStep scenarioB = .next t := by
  refine ⟨by decide +kernel, by decide +kernel, ⟨rfl, rfl, rfl, rfl, rfl, rfl, rfl, rfl, fun x y h => ?_, fun x y h => ?_⟩,
    by decide +kernel, _, next_after (by decide +kernel)⟩
  · have h0 : x = 0 ∧ y = 0 := by
      have hw : scenarioB.width = 1 ∧ scenarioB.height = 1 := by decide +kernel
      have := h.1
      have := h.2
      omega
    obtain ⟨rfl, rfl⟩ := h0
    decide +kernel
  · rfl

end Sys2Proof.Tests
end

section
/-! PROOF. O47: under the kept invariants of the units every command completes or is refused by the hardware, so no
step stops the machine. The faults of the model are accesses the invariants rule out (log entries 10 and 11). -/

namespace Sys2Proof.Machine

section Commands

variable {s : State}

/-- MQD is restarted on an attached segment only (R28). -/
theorem mq_att_of_rdy (hmq : MqOk s) (hrdy : s.mq.rdy = true) : s.mq.att = true := by
  obtain ⟨_, _, hready⟩ := hmq
  exact (hready hrdy).1

/-- RAWD is restarted on an attached segment only (R31). -/
theorem raw_att_of_rdy (hraw : RawOk s) (hrdy : s.raw.rdy = true) : s.raw.att = true := by
  obtain ⟨_, hready⟩ := hraw
  exact (hready hrdy).1

/-- An attached segment of MQD lies inside segment memory, in the form the commands test it (R26). -/
theorem mq_segInside_of_att (hmq : MqOk s) (hatt : s.mq.att = true) :
    segInside s.cfg s.mq.base s.mq.len = true := by
  obtain ⟨_, hseg, _⟩ := hmq
  exact decide_eq_true (hseg hatt)

/-- An attached segment of RAWD lies inside segment memory, in the form the commands test it (R30). -/
theorem raw_segInside_of_att (hraw : RawOk s) (hatt : s.raw.att = true) :
    segInside s.cfg s.raw.base s.raw.len = true := by
  obtain ⟨hseg, _⟩ := hraw
  exact decide_eq_true (hseg hatt)

/-- The pass index is not negative while a block is ACTIVE: the first bit-plane has its cleanup pass only (R154, R155). -/
theorem passIdx_nonneg_of_active (hseq : SeqOk s) (hact : s.stat = .active) : 0 ≤ s.passIdx := by
  obtain ⟨_, _, hle, hfirst⟩ := hseq.1 hact
  unfold State.passIdx
  by_cases htop : s.bp = s.lat.msb
  · simp [htop, hfirst htop, PassKind.ordinal]
  · have hne : s.bp.toInt ≠ s.lat.msb.toInt := fun h => htop (BitVec.eq_of_toInt_eq h)
    omega

/-- The test of `CB.STEP` and `CB.RUN` on an ACTIVE block never fails under the invariant of the sequencer. -/
theorem blockInRange_of_active (hseq : SeqOk s) (hact : s.stat = .active) : s.blockInRange = true := by
  have hidx := passIdx_nonneg_of_active hseq hact
  obtain ⟨⟨⟨_, hw⟩, ⟨_, hh⟩, ⟨_, hmsb⟩, _, hnbp⟩, hlow, hle, _⟩ := hseq.1 hact
  have hlast : s.lat.msb.toInt - s.bp.toInt < s.lat.nbp.toNat := by omega
  simp only [State.blockInRange, Bool.and_eq_true, decide_eq_true_eq]
  exact ⟨⟨⟨⟨⟨⟨hw, hh⟩, hmsb⟩, hnbp⟩, hle⟩, hlast⟩, hidx⟩

theorem execMqAttach_answers (slot : Nat) (s : State) : ∃ t, execMqAttach slot s = .next t := by
  unfold execMqAttach
  cases slotOperand slot s with
  | none => exact ⟨_, rfl⟩
  | some e => exact ⟨_, rfl⟩

theorem execRawAttach_answers (slot : Nat) (s : State) : ∃ t, execRawAttach slot s = .next t := by
  unfold execRawAttach
  cases slotOperand slot s with
  | none => exact ⟨_, rfl⟩
  | some e => exact ⟨_, rfl⟩

theorem execMqRestart_answers (hmq : MqOk s) : ∃ t, execMqRestart s = .next t := by
  unfold execMqRestart
  by_cases hatt : s.mq.att = true
  · rw [if_pos hatt, if_pos (mq_segInside_of_att hmq hatt)]
    exact ⟨_, rfl⟩
  · rw [if_neg hatt]
    exact ⟨_, rfl⟩

theorem runMqDecode_answers (hmq : MqOk s) (cx : Fin 19) : ∃ t, runMqDecode cx s = .next t := by
  rcases runMqDecode_cases cx s with ⟨_, h⟩ | ⟨hrdy, hout, _⟩ | ⟨_, _, h⟩
  · exact ⟨_, h⟩
  · rw [mq_segInside_of_att hmq (mq_att_of_rdy hmq hrdy)] at hout
    cases hout
  · exact ⟨_, h⟩

theorem execMqDecode_answers (hmq : MqOk s) (cx : Nat) : ∃ t, execMqDecode cx s = .next t := by
  unfold execMqDecode
  cases ctxOperand cx with
  | none => exact ⟨_, rfl⟩
  | some k => exact runMqDecode_answers hmq k

theorem execRawRestart_answers (s : State) : ∃ t, execRawRestart s = .next t := by
  unfold execRawRestart
  split_ifs
  · exact ⟨_, rfl⟩
  · exact ⟨_, rfl⟩

theorem runRawDecode_answers (hraw : RawOk s) : ∃ t, runRawDecode s = .next t := by
  rcases runRawDecode_cases s with ⟨_, h⟩ | ⟨hrdy, hout, _⟩ | ⟨_, _, h⟩
  · exact ⟨_, h⟩
  · rw [raw_segInside_of_att hraw (raw_att_of_rdy hraw hrdy)] at hout
    cases hout
  · exact ⟨_, h⟩

theorem execCbAttach_answers (s : State) : ∃ t, execCbAttach s = .next t := by
  unfold execCbAttach
  split_ifs
  · exact ⟨_, rfl⟩
  · exact ⟨_, rfl⟩

theorem execCbStep_answers (hseq : SeqOk s) : ∃ t, execCbStep s = .next t := by
  rcases execCbStep_cases s with ⟨_, h⟩ | ⟨_, h⟩ | ⟨hact, hout, _⟩ | ⟨_, _, _, h⟩ | ⟨_, _, _, _, h⟩ | ⟨_, _, _, _, h⟩
  case inr.inr.inl =>
    rw [blockInRange_of_active hseq hact] at hout
    cases hout
  all_goals exact ⟨_, h⟩

theorem execCbRun_answers (hseq : SeqOk s) : ∃ t, execCbRun s = .next t := by
  rcases execCbRun_cases s with ⟨_, h⟩ | ⟨_, h⟩ | ⟨hact, hout, _⟩ | ⟨_, _, _, h⟩ | ⟨_, _, _, h⟩
  case inr.inr.inl =>
    rw [blockInRange_of_active hseq hact] at hout
    cases hout
  all_goals exact ⟨_, h⟩

/-- Every command completes or is refused by the hardware, and both are a next state (R10, R210, R248). -/
theorem exec_answers (hmq : MqOk s) (hraw : RawOk s) (hseq : SeqOk s) (i : Instr) : ∃ t, exec i s = .next t := by
  cases i with
  | mqReset => exact ⟨_, rfl⟩
  | mqAttach slot => exact execMqAttach_answers slot s
  | mqRestart => exact execMqRestart_answers hmq
  | mqDecode cx => exact execMqDecode_answers hmq cx
  | mqDecodeu => exact runMqDecode_answers hmq 18
  | rawReset => exact ⟨_, rfl⟩
  | rawAttach slot => exact execRawAttach_answers slot s
  | rawRestart => exact execRawRestart_answers s
  | rawDecode cx => exact runRawDecode_answers hraw
  | rawDecodeu => exact runRawDecode_answers hraw
  | cbAttach => exact execCbAttach_answers s
  | cbStep => exact execCbStep_answers hseq
  | cbRun => exact execCbRun_answers hseq

end Commands

/-- A write of an entry of `SEGTAB` that exists is carried out (R39). -/
theorem writeSlot_of_lt {i : Nat} {s : State} (hi : i < s.cfg.nslot) (e : Slot) :
    writeSlot i e s = .next { s with segtab := Memory.write blankSlot s.segtab i e } := by
  rw [writeSlot, if_pos hi]

/-- A write of a byte of `SEGMEM` that exists is carried out (R40). -/
theorem hostWrite_segmem_of_lt {a : Nat} {s : State} (ha : a < s.cfg.segsize) (v : Nat) :
    hostWrite (.segmem a) v s =
      .next { s with segmem := Memory.write blankByte s.segmem a (BitVec.ofNat 8 v) } := by
  rw [hostWrite, if_pos ha]

/-- The host's next write answers a next state where it names a cell that exists (R39, R40, R46). -/
theorem hostWrite_answers {s : State} {target : HostTarget} {v : Nat} {rest : List HostAction}
    (hpend : s.pending = .write target v :: rest) (hok : NextWriteOk s) :
    ∃ t, hostWrite target v { s with pending := rest } = .next t := by
  rw [NextWriteOk, hpend] at hok
  cases target with
  | segmem a => exact ⟨_, hostWrite_segmem_of_lt (s := { s with pending := rest }) hok v⟩
  | ctx a => exact ⟨_, rfl⟩
  | coef a => exact ⟨_, rfl⟩
  | reg r =>
    cases r
    case segValid i => exact ⟨_, writeSlot_of_lt (s := { s with pending := rest }) hok _⟩
    case segBase i => exact ⟨_, writeSlot_of_lt (s := { s with pending := rest }) hok _⟩
    case segLen i => exact ⟨_, writeSlot_of_lt (s := { s with pending := rest }) hok _⟩
    all_goals exact ⟨_, rfl⟩

/-- Settles O47, along the host's next action: none, a command word, legal or not, a write, or hardware reset. -/
theorem commandsNeverStop : Obligations.CommandsNeverStop := by
  unfold Obligations.CommandsNeverStop
  intro s hmq hraw hseq hok
  cases hpend : s.pending with
  | nil => exact ⟨s, by rw [step, nextAction_nil s hpend]⟩
  | cons act rest =>
    rw [step, nextAction_cons s hpend]
    cases act with
    | command w =>
      dsimp only
      cases decode w with
      | ok i => exact exec_answers (s := { s with pending := rest }) hmq hraw hseq i
      | error e => exact ⟨_, rfl⟩
    | write target v => exact hostWrite_answers hpend hok
    | hardReset => exact ⟨_, rfl⟩

end Sys2Proof.Machine
end

section
/-! PROOF. O48: the sign context by coordinates, and its value set (R94, R174, R175). -/

namespace Sys2Proof.Machine

/-- A shift inside the bounds gives the shifted coordinate, and no other shift gives one (`InBounds`, R9). -/
theorem shiftIn_eq_some {bound n k : Nat} {d : Int} :
    shiftIn bound n d = some k ↔ (k : Int) = n + d ∧ k < bound := by
  unfold shiftIn
  split_ifs with h
  · rw [Option.some.injEq]
    omega
  · simp only [false_iff]
    omega

/-- The neighbour of `(x, y)` is the coefficient of the block at the coordinates of R179, if there is one (R66). -/
theorem neighbour_eq_some {s : State} {d : Dir} {x y nx ny : Nat} :
    s.neighbour d x y = some (nx, ny) ↔ (nx : Int) = x + d.dx ∧ (ny : Int) = y + d.dy ∧ s.InBlock nx ny := by
  have hboth : s.neighbour d x y = some (nx, ny) ↔
      shiftIn s.width x d.dx = some nx ∧ shiftIn s.height y d.dy = some ny := by
    unfold State.neighbour
    cases shiftIn s.width x d.dx <;> cases shiftIn s.height y d.dy <;> simp
  rw [hboth, shiftIn_eq_some, shiftIn_eq_some]
  tauto

/-- `Contribution` of R174 by direction is that by the coordinates of R179. -/
theorem contribution_eq_contributionAt (s : State) (d : Dir) (x y : Nat) :
    s.contribution d x y = s.contributionAt (x + d.dx) (y + d.dy) := by
  unfold State.contribution State.contributionAt
  cases hn : s.neighbour d x y with
  | some p =>
    obtain ⟨nx, ny⟩ := p
    obtain ⟨hx, hy, hxw, hyh⟩ := neighbour_eq_some.mp hn
    rw [← hx, ← hy, if_pos ⟨by omega, by omega, by omega, by omega⟩]
    rfl
  | none =>
    refine (if_neg fun ⟨hx0, hxw, hy0, hyh⟩ => ?_).symm
    have hsome : s.neighbour d x y = some ((x + d.dx).toNat, (y + d.dy).toNat) :=
      neighbour_eq_some.mpr ⟨Int.toNat_of_nonneg hx0, Int.toNat_of_nonneg hy0, by omega, by omega⟩
    rw [hn] at hsome
    cases hsome

/-- `clamp` of R8 is the sign of an integer. -/
theorem clamp_eq_sign (v : Int) : clamp v = Int.sign v := by
  unfold clamp
  split_ifs with hneg hzero
  · exact (Int.sign_eq_neg_one_of_neg hneg).symm
  · rw [hzero, Int.sign_zero]
  · exact (Int.sign_eq_one_of_pos (by omega)).symm

/-- `SIGNCTX` takes its values in the value set of the sign context (R94, R175). -/
theorem signCtx_sign_mem (h v : Int) :
    signCtx (Int.sign h) (Int.sign v) ∈ ([-14, -13, -12, -11, 10, 11, 12, 13, 14] : List Int) := by
  rcases Int.sign_trichotomy h with hh | hh | hh <;> rcases Int.sign_trichotomy v with hv | hv | hv <;>
    rw [hh, hv] <;> decide

/-- The sign context by coordinates (R174). -/
theorem signContext_eq (s : State) (x y : Nat) :
    s.signContext x y = signCtx (Int.sign (s.contributionAt (x - 1) y + s.contributionAt (x + 1) y))
      (Int.sign (s.contributionAt x (y - 1) + s.contributionAt x (y + 1))) := by
  have hleft : s.contribution .left x y = s.contributionAt (x - 1) y := by
    simpa [Dir.dx, Dir.dy, Int.sub_eq_add_neg] using contribution_eq_contributionAt s .left x y
  have hright : s.contribution .right x y = s.contributionAt (x + 1) y := by
    simpa [Dir.dx, Dir.dy] using contribution_eq_contributionAt s .right x y
  have hup : s.contribution .up x y = s.contributionAt x (y - 1) := by
    simpa [Dir.dx, Dir.dy, Int.sub_eq_add_neg] using contribution_eq_contributionAt s .up x y
  have hdown : s.contribution .down x y = s.contributionAt x (y + 1) := by
    simpa [Dir.dx, Dir.dy] using contribution_eq_contributionAt s .down x y
  rw [State.signContext, hleft, hright, hup, hdown, clamp_eq_sign, clamp_eq_sign]

/-- Settles O48: the nine cells by evaluation, the rest from the sign context by coordinates. -/
theorem signContextTable : Obligations.SignContextTable := by
  unfold Obligations.SignContextTable
  refine ⟨by decide, fun s x y => ⟨signContext_eq s x y, ?_⟩⟩
  rw [signContext_eq]
  exact signCtx_sign_mem _ _

end Sys2Proof.Machine
end

section
/-! PROOF. The laws of a command: what it answers and what it does, said once for all thirteen. -/

namespace Sys2Proof.Machine

/-! ### The answer and the effect of a command (R10, R210, R211) -/

/-- What a command answers: it completes with the data of its response (R87), the hardware refuses it (R210), or the
model stops. -/
inductive Verdict where
  /-- `respond(OK, data)`. -/
  | completes (data : BitVec 2)
  /-- `refuse <code>`. -/
  | refused (e : ErrCode)
  /-- A fault of the model. -/
  | stops (r : Fault)
deriving DecidableEq, Repr

/-- The checks of a decode or a restart: refused with `ERR_SEQ` where the unit is not ready (R214). -/
def unitVerdict (ready inside : Bool) (data : BitVec 2) : Verdict :=
  if ready then if inside then .completes data else .stops .segmentOutsideMemory else .refused .seq

/-- The check of `CB.STEP` and `CB.RUN` on `CB_STAT` (R156, R159). -/
def blockVerdict (s : State) (done : BitVec 2) (active : Verdict) : Verdict :=
  match s.stat with
  | .idle => .refused .seq
  | .fault => .refused .seq
  | .done => .completes done
  | .active => if s.blockInRange then active else .stops .blockOutsideMemory

/-- The answer of a command. -/
def verdict : Instr → State → Verdict
  | .mqReset, _ => .completes 0
  | .mqAttach slot, s => if (slotOperand slot s).isSome then .completes 0 else .refused .slot
  | .mqRestart, s => unitVerdict s.mq.att (segInside s.cfg s.mq.base s.mq.len) 0
  | .mqDecode cx, s =>
    if cx < 19 then
      unitVerdict s.mq.rdy (segInside s.cfg s.mq.base s.mq.len) (bitData (decodeBit cx s).1)
    else .refused .ctx
  | .mqDecodeu, s => unitVerdict s.mq.rdy (segInside s.cfg s.mq.base s.mq.len) (bitData (decodeBit 18 s).1)
  | .rawReset, _ => .completes 0
  | .rawAttach slot, s => if (slotOperand slot s).isSome then .completes 0 else .refused .slot
  | .rawRestart, s => unitVerdict s.raw.att true 0
  | .rawDecode _, s =>
    unitVerdict s.raw.rdy (segInside s.cfg s.raw.base s.raw.len) (bitData (rawDecode s.segmem s.raw).1)
  | .rawDecodeu, s =>
    unitVerdict s.raw.rdy (segInside s.cfg s.raw.base s.raw.len) (bitData (rawDecode s.segmem s.raw).1)
  | .cbAttach, s => if descInvalid s.cfg s.desc then .refused .desc else .completes 0
  | .cbStep, s => blockVerdict s 2
      (if s.skips s.passIdx.toNat then .completes 0
        else if s.slotBad s.passIdx.toNat then .refused .slot else .completes 1)
  | .cbRun, s => blockVerdict s 0 (if s.remaining.any s.slotBad then .refused .slot else .completes 0)

/-- What a completing command does before it responds. -/
def effect : Instr → State → State
  | .mqReset, s => { s with mq := { s.mq with ctx := startupContexts } }
  | .mqAttach slot, s => { s with mq := s.mq.attach (s.slotAt slot) }
  | .mqRestart, s => { s with mq := mqRestart s.segmem s.mq }
  | .mqDecode cx, s => (decodeBit cx s).2
  | .mqDecodeu, s => (decodeBit 18 s).2
  | .rawReset, s => s
  | .rawAttach slot, s => { s with raw := s.raw.attach (s.slotAt slot) }
  | .rawRestart, s => { s with raw := { s.raw with rt := 0, bits := 0, rl := 0, rdy := true } }
  | .rawDecode _, s => { s with raw := (rawDecode s.segmem s.raw).2 }
  | .rawDecodeu, s => { s with raw := (rawDecode s.segmem s.raw).2 }
  | .cbAttach, s => attachBlock s
  | .cbStep, s => if s.stat = .active then stepBody s else s
  | .cbRun, s => if s.stat = .active then runLoop (3 * s.lat.nbp.toNat - 2) s else s

/-- What a refusal does before the fault is recorded: `ERR_DESC` puts `CB_STAT` to FAULT (R153, R216). -/
def refusalEffect (e : ErrCode) (s : State) : State := if e = .desc then { s with stat := .fault } else s

/-- The outcome that goes with an answer. -/
def Verdict.outcome (i : Instr) (s : State) : Verdict → Host.Outcome State Fault Refusal
  | .completes data => .next (respond data (effect i s))
  | .refused e => .next (refuse e (refusalEffect e s))
  | .stops r => .fault r

theorem runMqDecode_eq (cx : Nat) (s : State) (h : cx < 19) :
    runMqDecode ⟨cx, h⟩ s = (unitVerdict s.mq.rdy (segInside s.cfg s.mq.base s.mq.len)
      (bitData (decodeBit cx s).1)).outcome (.mqDecode cx) s := by
  have hcx : (⟨cx, h⟩ : Fin 19) = Fin.ofNat 19 cx := Fin.ext (Nat.mod_eq_of_lt h).symm
  unfold runMqDecode unitVerdict
  rw [hcx]
  split_ifs <;> rfl

theorem runRawDecode_eq (i : Instr) (s : State) (h : effect i s = effect .rawDecodeu s) :
    runRawDecode s = (unitVerdict s.raw.rdy (segInside s.cfg s.raw.base s.raw.len)
      (bitData (rawDecode s.segmem s.raw).1)).outcome i s := by
  unfold runRawDecode unitVerdict
  split_ifs
  · rw [Verdict.outcome, h]; rfl
  · rfl
  · rfl

theorem execCbStep_eq (s : State) : execCbStep s = (verdict .cbStep s).outcome .cbStep s := by
  unfold execCbStep verdict blockVerdict
  cases hst : s.stat
  case active => dsimp only; split_ifs <;> simp [Verdict.outcome, effect, refusalEffect, hst]
  all_goals simp [Verdict.outcome, effect, refusalEffect, hst]

theorem execCbRun_eq (s : State) : execCbRun s = (verdict .cbRun s).outcome .cbRun s := by
  unfold execCbRun verdict blockVerdict
  cases hst : s.stat
  case active => dsimp only; split_ifs <;> simp [Verdict.outcome, effect, refusalEffect, hst]
  all_goals simp [Verdict.outcome, effect, refusalEffect, hst]

/-- WHAT A COMMAND DOES, once for all thirteen: its answer, and the outcome that goes with it. -/
theorem exec_eq_outcome (i : Instr) (s : State) : exec i s = (verdict i s).outcome i s := by
  cases i with
  | mqReset => rfl
  | rawReset => rfl
  | mqAttach slot =>
    cases h : slotOperand slot s with
    | none => simp [exec, execMqAttach, verdict, h, Verdict.outcome, refusalEffect]
    | some e => simp [exec, execMqAttach, verdict, h, Verdict.outcome, effect, (slotOperand_eq_some.mp h).2]
  | rawAttach slot =>
    cases h : slotOperand slot s with
    | none => simp [exec, execRawAttach, verdict, h, Verdict.outcome, refusalEffect]
    | some e => simp [exec, execRawAttach, verdict, h, Verdict.outcome, effect, (slotOperand_eq_some.mp h).2]
  | mqRestart =>
    simp only [exec, execMqRestart, verdict, unitVerdict]
    split_ifs <;> rfl
  | rawRestart =>
    simp only [exec, execRawRestart, verdict, unitVerdict]
    split_ifs <;> rfl
  | mqDecode cx =>
    by_cases h : cx < 19
    · simp only [exec, execMqDecode, verdict, ctxOperand_of_lt h, if_pos h, runMqDecode_eq]
    · simp only [exec, execMqDecode, verdict, ctxOperand_of_ge (Nat.le_of_not_lt h), if_neg h]
      rfl
  | mqDecodeu => exact runMqDecode_eq 18 s (by decide)
  | rawDecode cx => exact runRawDecode_eq _ s rfl
  | rawDecodeu => exact runRawDecode_eq _ s rfl
  | cbAttach =>
    simp only [exec, execCbAttach, verdict]
    split_ifs <;> rfl
  | cbStep => exact execCbStep_eq s
  | cbRun => exact execCbRun_eq s

/-- A command that answers a next state completes or is refused. -/
theorem exec_next {i : Instr} {s t : State} (h : exec i s = .next t) :
    (∃ data, verdict i s = .completes data ∧ t = respond data (effect i s)) ∨
    (∃ e, verdict i s = .refused e ∧ t = refuse e (refusalEffect e s)) := by
  rw [exec_eq_outcome] at h
  cases hv : verdict i s with
  | completes data => rw [hv] at h; exact .inl ⟨data, rfl, (Host.Outcome.next.inj h).symm⟩
  | refused e => rw [hv] at h; exact .inr ⟨e, rfl, (Host.Outcome.next.inj h).symm⟩
  | stops r => rw [hv] at h; cases h

/-- Two-run law: where a change `f` of the state alters neither the answer of a command nor its effect, it commutes with
the command. -/
theorem exec_commutes {i : Instr} {s t : State} (f : State → State) (hverdict : verdict i (f s) = verdict i s)
    (heffect : effect i (f s) = f (effect i s)) (hrespond : ∀ data u, respond data (f u) = f (respond data u))
    (hrefuse : ∀ e u, refuse e (refusalEffect e (f u)) = f (refuse e (refusalEffect e u)))
    (h : exec i s = .next t) : exec i (f s) = .next (f t) := by
  rw [exec_eq_outcome, hverdict]
  rcases exec_next h with ⟨data, hv, rfl⟩ | ⟨e, hv, rfl⟩
  · rw [hv, Verdict.outcome, heffect, hrespond]
  · rw [hv, Verdict.outcome, hrefuse]

/-! ### When a command completes -/

theorem unitVerdict_completes {ready inside : Bool} {data data' : BitVec 2} :
    unitVerdict ready inside data = .completes data' ↔ ready = true ∧ inside = true ∧ data = data' := by
  cases ready <;> cases inside <;> simp [unitVerdict]

theorem unitVerdict_refused {ready inside : Bool} {data : BitVec 2} {e : ErrCode} :
    unitVerdict ready inside data = .refused e ↔ ready = false ∧ e = .seq := by
  cases ready <;> cases inside <;> simp [unitVerdict, eq_comm]

theorem blockVerdict_refused {s : State} {done : BitVec 2} {active : Verdict} {e : ErrCode} :
    blockVerdict s done active = .refused e ↔
      ((s.stat = .idle ∨ s.stat = .fault) ∧ e = .seq) ∨
      (s.stat = .active ∧ s.blockInRange = true ∧ active = .refused e) := by
  unfold blockVerdict
  cases s.stat <;> cases s.blockInRange <;> simp [eq_comm]

theorem blockVerdict_completes {s : State} {done data : BitVec 2} {active : Verdict} :
    blockVerdict s done active = .completes data ↔
      (s.stat = .done ∧ done = data) ∨ (s.stat = .active ∧ s.blockInRange = true ∧ active = .completes data) := by
  unfold blockVerdict
  cases s.stat <;> cases s.blockInRange <;> simp

theorem verdict_cbStep_completes {s : State} {data : BitVec 2} (h : verdict .cbStep s = .completes data) :
    (s.stat = .done ∧ data = 2) ∨
    (s.stat = .active ∧ s.blockInRange = true ∧ s.slotBad s.passIdx.toNat = false ∧ data ≤ 1) := by
  rcases blockVerdict_completes.mp h with ⟨hst, rfl⟩ | ⟨hst, hin, hv⟩
  · exact .inl ⟨hst, rfl⟩
  · refine .inr ⟨hst, hin, ?_⟩
    split_ifs at hv with hskip hbad
    · cases hv
      exact ⟨by simp [State.slotBad, hskip], by decide⟩
    · cases hv
      exact ⟨by simpa using hbad, by decide⟩

theorem verdict_cbRun_completes {s : State} {data : BitVec 2} (h : verdict .cbRun s = .completes data) :
    data = 0 ∧ (s.stat = .done ∨ (s.stat = .active ∧ s.blockInRange = true ∧ s.remaining.any s.slotBad = false)) := by
  rcases blockVerdict_completes.mp h with ⟨hst, rfl⟩ | ⟨hst, hin, hv⟩
  · exact ⟨rfl, .inl hst⟩
  · split_ifs at hv with hbad
    cases hv
    exact ⟨rfl, .inr ⟨hst, hin, by simpa using hbad⟩⟩

end Sys2Proof.Machine
end

section
/-! PROOF. O14: the format of the response of every command word (R42, R87). -/

namespace Sys2Proof.Machine

/-! ### The data of a response (R87) -/

/-- The largest data of a command's response (R87). -/
def dataBound : Instr → BitVec 2
  | .mqDecode _ | .mqDecodeu | .rawDecode _ | .rawDecodeu => 1
  | .cbStep => 2
  | _ => 0

theorem bitData_le_one (d : Bool) : bitData d ≤ 1 := by cases d <;> decide

theorem verdict_data_le {i : Instr} {s : State} {data : BitVec 2} (h : verdict i s = .completes data) :
    data ≤ dataBound i := by
  cases i with
  | mqReset => cases h; decide
  | rawReset => cases h; decide
  | mqAttach slot => simp only [verdict] at h; split_ifs at h; cases h; exact BitVec.le_refl _
  | rawAttach slot => simp only [verdict] at h; split_ifs at h; cases h; exact BitVec.le_refl _
  | cbAttach => simp only [verdict] at h; split_ifs at h; cases h; decide
  | mqRestart => obtain ⟨_, _, rfl⟩ := unitVerdict_completes.mp h; decide
  | rawRestart => obtain ⟨_, _, rfl⟩ := unitVerdict_completes.mp h; decide
  | mqDecode cx =>
    simp only [verdict] at h
    split_ifs at h
    obtain ⟨_, _, rfl⟩ := unitVerdict_completes.mp h
    exact bitData_le_one _
  | mqDecodeu => obtain ⟨_, _, rfl⟩ := unitVerdict_completes.mp h; exact bitData_le_one _
  | rawDecode cx => obtain ⟨_, _, rfl⟩ := unitVerdict_completes.mp h; exact bitData_le_one _
  | rawDecodeu => obtain ⟨_, _, rfl⟩ := unitVerdict_completes.mp h; exact bitData_le_one _
  | cbStep =>
    rcases verdict_cbStep_completes h with ⟨_, rfl⟩ | ⟨_, _, _, hle⟩
    · decide
    · exact BitVec.le_trans hle (by decide)
  | cbRun => obtain ⟨rfl, _⟩ := verdict_cbRun_completes h; decide

/-! ### The fields of a response (R42) -/

@[simp] theorem rspCode_packRsp : ∀ (code : BitVec 3) (data : BitVec 2), rspCode (packRsp code data) = code := by
  decide

@[simp] theorem rspData_packRsp : ∀ (code : BitVec 3) (data : BitVec 2), rspData (packRsp code data) = data := by
  decide

theorem packRsp_reserved : ∀ (code : BitVec 3) (data : BitVec 2), (packRsp code data).extractLsb' 2 2 = 0 := by
  decide

theorem code_le_five (e : ErrCode) : e.code ≤ 5 := by cases e <;> decide

/-- The command a word decodes to has the opcode of the word (R80, R85). -/
theorem opcode_of_decode {w : CmdWord} {i : Instr} (h : decode w = .ok i) : i.opcode = w.extractLsb' 8 8 := by
  have hinstr : instrOf (opcodeOf w) (operandOf w) = some i := by
    unfold decode at h
    cases hi : instrOf (opcodeOf w) (operandOf w) with
    | none => rw [hi] at h; cases h
    | some j => rw [hi] at h; cases h; rfl
  have hop : i.opcode = opcodeOf w := by
    generalize opcodeOf w = opc at hinstr ⊢
    unfold instrOf at hinstr
    split at hinstr <;> cases hinstr <;> rfl
  exact hop

theorem dataBound_decode {i : Instr} (h : i.opcode ∈ ([0x04, 0x05, 0x14, 0x15] : List (BitVec 8))) :
    dataBound i = 1 := by
  cases i <;> simp_all [dataBound, Instr.opcode]

theorem dataBound_other {i : Instr} (h : i.opcode ∉ ([0x04, 0x05, 0x14, 0x15, 0x21] : List (BitVec 8))) :
    dataBound i = 0 := by
  cases i <;> simp_all [dataBound, Instr.opcode]

theorem dataBound_le_two (i : Instr) : dataBound i ≤ 2 := by cases i <;> simp [dataBound]

/-- What the response of a command can be: a refusal's code without data, or code 0 with data within the bound of the
command (R42, R87). -/
theorem rsp_of_exec {i : Instr} {s t : State} (h : exec i s = .next t) :
    (∃ e : ErrCode, t.rsp = packRsp e.code 0) ∨ ∃ data, data ≤ dataBound i ∧ t.rsp = packRsp 0 data := by
  rcases exec_next h with ⟨data, hv, rfl⟩ | ⟨e, hv, rfl⟩
  · exact .inr ⟨data, verdict_data_le hv, rfl⟩
  · exact .inl ⟨e, rfl⟩

/-- Settles O14, by what a response can be: that of an illegal word, of a refusal, or of a completed command. -/
theorem responseFormat : Obligations.ResponseFormat := by
  unfold Obligations.ResponseFormat
  intro s t w rest hpend hstep
  have hrefused : ∀ (e : ErrCode), t.rsp = packRsp e.code 0 →
      t.rsp.extractLsb' 2 2 = 0 ∧ rspCode t.rsp ≤ 5 ∧ rspData t.rsp = 0 := fun e he => by
    rw [he, rspCode_packRsp, rspData_packRsp]
    exact ⟨packRsp_reserved _ _, code_le_five e, rfl⟩
  rw [step, nextAction_cons s hpend] at hstep
  dsimp only at hstep
  cases hd : decode w with
  | error err =>
    rw [hd] at hstep
    cases hstep
    obtain ⟨hres, hcode, hdata⟩ := hrefused .opc rfl
    rw [hdata]
    exact ⟨hres, hcode, fun _ => rfl, fun _ => by decide, fun _ => by decide, fun _ => rfl⟩
  | ok i =>
    rw [hd] at hstep
    rw [← opcode_of_decode hd]
    rcases rsp_of_exec hstep with ⟨e, he⟩ | ⟨data, hle, hr⟩
    · obtain ⟨hres, hcode, hdata⟩ := hrefused e he
      rw [hdata]
      exact ⟨hres, hcode, fun _ => rfl, fun _ => by decide, fun _ => by decide, fun _ => rfl⟩
    · rw [hr, rspCode_packRsp, rspData_packRsp]
      refine ⟨packRsp_reserved _ _, by decide, fun h => absurd rfl h, fun h => dataBound_decode h ▸ hle,
        fun _ => BitVec.le_trans hle (dataBound_le_two i), fun h => ?_⟩
      have hzero := dataBound_other h ▸ hle
      exact BitVec.le_zero_iff.mp hzero

end Sys2Proof.Machine
end

section
/-! PROOF. O11, O12 and O35: what a command may write, and what it does not read. -/

namespace Sys2Proof.Machine

/-! ### What the sequencer may write -/

/-- What `CB.STEP` and `CB.RUN` never write: every field but MQD, the cells and the sequencer (R156, R158, R159). -/
structure BlockFrame (s t : State) : Prop where
  cfg : t.cfg = s.cfg
  raw : t.raw = s.raw
  desc : t.desc = s.desc
  lat : t.lat = s.lat
  segtab : t.segtab = s.segtab
  segmem : t.segmem = s.segmem
  flt : t.flt = s.flt
  rsp : t.rsp = s.rsp
  pending : t.pending = s.pending

theorem BlockFrame.refl (s : State) : BlockFrame s s := by constructor <;> rfl

/-- A body of `CB.STEP`, skipped or executed, stays within the frame. -/
theorem stepBody_frame (s : State) : BlockFrame s (stepBody s) := by
  rcases stepBody_cases s with ⟨_, h⟩ | ⟨_, h⟩ <;> rw [h]
  · constructor <;> rfl
  · obtain ⟨hcfg, hraw, hdesc, hlat, _, _, _, hsegtab, hsegmem, hflt, hrsp, hpending, _⟩ := execPass_frame s
    exact ⟨hcfg, hraw, hdesc, hlat, hsegtab, hsegmem, hflt, hrsp, hpending⟩

theorem BlockFrame.trans {s t u : State} (h1 : BlockFrame s t) (h2 : BlockFrame t u) : BlockFrame s u where
  cfg := h2.cfg.trans h1.cfg
  raw := h2.raw.trans h1.raw
  desc := h2.desc.trans h1.desc
  lat := h2.lat.trans h1.lat
  segtab := h2.segtab.trans h1.segtab
  segmem := h2.segmem.trans h1.segmem
  flt := h2.flt.trans h1.flt
  rsp := h2.rsp.trans h1.rsp
  pending := h2.pending.trans h1.pending

theorem runLoop_frame (n : Nat) (s : State) : BlockFrame s (runLoop n s) :=
  runLoop_induct (P := BlockFrame s) (fun t _ h => h.trans (stepBody_frame t)) n s (BlockFrame.refl s)

theorem effect_cb_frame {i : Instr} (h : i = .cbStep ∨ i = .cbRun) (s : State) : BlockFrame s (effect i s) := by
  rcases h with rfl | rfl <;> simp only [effect] <;> split_ifs
  · exact stepBody_frame s
  · exact BlockFrame.refl s
  · exact runLoop_frame _ s
  · exact BlockFrame.refl s

/-! ### What a command may write (O11) -/

/-- The five conditions of O11 on the state after a command. -/
structure CommandFrame (i : Instr) (s t : State) : Prop where
  /-- No command writes the parameters or the host's state. -/
  host : t.cfg = s.cfg ∧ t.desc = s.desc ∧ t.segtab = s.segtab ∧ t.segmem = s.segmem ∧ t.pending = s.pending
  /-- Only `CB.ATTACH` writes the latched descriptor. -/
  lat : i ≠ .cbAttach → t.lat = s.lat
  /-- Only BPD commands write the cells and the sequencer. -/
  block : commandUnit i ≠ 2 →
    t.ctxmap = s.ctxmap ∧ t.coef = s.coef ∧ t.bp = s.bp ∧ t.pk = s.pk ∧ t.stat = s.stat
  /-- Only RAWD commands write RAWD, and they do not write MQD. -/
  raw : commandUnit i ≠ 1 → t.raw = s.raw
  mq : commandUnit i = 1 → t.mq = s.mq
  /-- `CB.ATTACH` writes of MQD the context file only. -/
  attach : i = .cbAttach → t.mq = { s.mq with ctx := t.mq.ctx }

@[simp] theorem commandUnit_mqAttach (slot : Nat) : commandUnit (.mqAttach slot) = 0 := by
  simp [commandUnit, Instr.opcode]
@[simp] theorem commandUnit_mqDecode (cx : Nat) : commandUnit (.mqDecode cx) = 0 := by
  simp [commandUnit, Instr.opcode]
@[simp] theorem commandUnit_rawAttach (slot : Nat) : commandUnit (.rawAttach slot) = 1 := by
  simp [commandUnit, Instr.opcode]
@[simp] theorem commandUnit_rawDecode (cx : Nat) : commandUnit (.rawDecode cx) = 1 := by
  simp [commandUnit, Instr.opcode]

theorem CommandFrame.of_mq {i : Instr} (h : commandUnit i = 0) (s : State) (m : Mqd) :
    CommandFrame i s { s with mq := m } where
  host := ⟨rfl, rfl, rfl, rfl, rfl⟩
  lat _ := rfl
  block _ := ⟨rfl, rfl, rfl, rfl, rfl⟩
  raw _ := rfl
  mq h1 := by rw [h] at h1; cases h1
  attach ha := by subst ha; cases h

theorem CommandFrame.of_raw {i : Instr} (h : commandUnit i = 1) (s : State) (r : Rawd) :
    CommandFrame i s { s with raw := r } where
  host := ⟨rfl, rfl, rfl, rfl, rfl⟩
  lat _ := rfl
  block _ := ⟨rfl, rfl, rfl, rfl, rfl⟩
  raw h1 := absurd h h1
  mq _ := rfl
  attach ha := by subst ha; cases h

theorem CommandFrame.of_block {i : Instr} (h : i = .cbStep ∨ i = .cbRun) {s t : State} (hf : BlockFrame s t) :
    CommandFrame i s t where
  host := ⟨hf.cfg, hf.desc, hf.segtab, hf.segmem, hf.pending⟩
  lat _ := hf.lat
  block h2 := by rcases h with rfl | rfl <;> exact absurd rfl h2
  raw _ := hf.raw
  mq h1 := by rcases h with rfl | rfl <;> cases h1
  attach ha := by rcases h with rfl | rfl <;> cases ha

theorem effect_cbAttach_commandFrame (s : State) : CommandFrame .cbAttach s (attachBlock s) where
  host := ⟨rfl, rfl, rfl, rfl, rfl⟩
  lat h := absurd rfl h
  block h := absurd rfl h
  raw _ := rfl
  mq h := by cases h
  attach _ := rfl

theorem effect_commandFrame (i : Instr) (s : State) : CommandFrame i s (effect i s) := by
  cases i with
  | mqReset => exact .of_mq rfl s _
  | mqAttach slot => exact .of_mq (commandUnit_mqAttach _) s _
  | mqRestart => exact .of_mq rfl s _
  | mqDecode cx => exact .of_mq (commandUnit_mqDecode _) s _
  | mqDecodeu => exact .of_mq rfl s _
  | rawReset => exact .of_raw rfl s s.raw
  | rawAttach slot => exact .of_raw (commandUnit_rawAttach _) s _
  | rawRestart => exact .of_raw rfl s _
  | rawDecode cx => exact .of_raw (commandUnit_rawDecode _) s _
  | rawDecodeu => exact .of_raw rfl s _
  | cbAttach => exact effect_cbAttach_commandFrame s
  | cbStep => exact .of_block (.inl rfl) (effect_cb_frame (.inl rfl) s)
  | cbRun => exact .of_block (.inr rfl) (effect_cb_frame (.inr rfl) s)

/-- Only `CB.ATTACH` is refused with `ERR_DESC` (R216). -/
theorem verdict_desc {i : Instr} {s : State} (h : verdict i s = .refused .desc) : i = .cbAttach := by
  cases i with
  | cbAttach => rfl
  | mqReset => cases h
  | rawReset => cases h
  | mqAttach slot => simp only [verdict] at h; split_ifs at h; cases h
  | rawAttach slot => simp only [verdict] at h; split_ifs at h; cases h
  | mqRestart => cases (unitVerdict_refused.mp h).2
  | rawRestart => cases (unitVerdict_refused.mp h).2
  | mqDecode cx =>
    simp only [verdict] at h
    split_ifs at h
    · cases (unitVerdict_refused.mp h).2
    · cases h
  | mqDecodeu => cases (unitVerdict_refused.mp h).2
  | rawDecode cx => cases (unitVerdict_refused.mp h).2
  | rawDecodeu => cases (unitVerdict_refused.mp h).2
  | cbStep =>
    rcases blockVerdict_refused.mp h with ⟨_, he⟩ | ⟨_, _, hv⟩
    · cases he
    · split_ifs at hv; cases hv
  | cbRun =>
    rcases blockVerdict_refused.mp h with ⟨_, he⟩ | ⟨_, _, hv⟩
    · cases he
    · split_ifs at hv; cases hv

theorem refusalEffect_commandFrame {i : Instr} {e : ErrCode} {s : State} (h : verdict i s = .refused e) :
    CommandFrame i s (refusalEffect e s) := by
  unfold refusalEffect
  split_ifs with he
  · subst he
    cases verdict_desc h
    exact ⟨⟨rfl, rfl, rfl, rfl, rfl⟩, fun _ => rfl, fun h2 => absurd rfl h2, fun _ => rfl, fun _ => rfl, fun _ => rfl⟩
  · exact ⟨⟨rfl, rfl, rfl, rfl, rfl⟩, fun _ => rfl, fun _ => ⟨rfl, rfl, rfl, rfl, rfl⟩, fun _ => rfl, fun _ => rfl,
      fun _ => rfl⟩

/-- Settles O11: the frame of the effect where the command completes, that of a refusal otherwise. -/
theorem commandFrames : Obligations.CommandFrames := by
  unfold Obligations.CommandFrames
  intro i s t h
  rcases exec_next h with ⟨data, _, rfl⟩ | ⟨e, hv, rfl⟩
  · obtain ⟨hhost, hlat, hblock, hraw, hmq, hattach⟩ := effect_commandFrame i s
    exact ⟨hhost, hlat, hblock, hraw, hmq, hattach⟩
  · obtain ⟨hhost, hlat, hblock, hraw, hmq, hattach⟩ := refusalEffect_commandFrame hv
    exact ⟨hhost, hlat, hblock, hraw, hmq, hattach⟩

/-! ### The fields no pass reads

`s.graft u` is `s` with RAWD, the descriptor registers, `FLT` and `RSP` of `u`. Every operation of the pass engines and
of the sequencer commutes with it, so none of them reads these fields (R33, R41, R138, R222). -/

/-- `s` with RAWD, the descriptor registers, `FLT` and `RSP` of `u`. -/
def State.graft (s u : State) : State := { s with raw := u.raw, desc := u.desc, flt := u.flt, rsp := u.rsp }

section Graft

variable (s u : State)

@[simp] theorem graft_stat : (s.graft u).stat = s.stat := rfl
@[simp] theorem graft_pk : (s.graft u).pk = s.pk := rfl
@[simp] theorem graft_bp : (s.graft u).bp = s.bp := rfl
@[simp] theorem graft_ctxAt (x y : Nat) : (s.graft u).ctxAt x y = s.ctxAt x y := rfl
@[simp] theorem graft_neighbour (d : Dir) (x y : Nat) : (s.graft u).neighbour d x y = s.neighbour d x y := rfl
@[simp] theorem graft_runLength (col : Column) : (s.graft u).runLength col = s.runLength col := rfl
@[simp] theorem graft_skips (idx : Nat) : (s.graft u).skips idx = s.skips idx := rfl
@[simp] theorem graft_passIdx : (s.graft u).passIdx = s.passIdx := rfl

theorem setCtx_graft (x y : Nat) (v : Int) : (s.graft u).setCtx x y v = (s.setCtx x y v).graft u := rfl
theorem decodeBit_graft (n : Nat) : decodeBit n (s.graft u) = ((decodeBit n s).1, (decodeBit n s).2.graft u) := rfl
theorem advance_graft : advance (s.graft u) = (advance s).graft u := rfl
theorem attachPass_graft (idx : Nat) : attachPass idx (s.graft u) = (attachPass idx s).graft u := rfl

theorem foldl_graft {β : Type} {f : State → β → State} (h : ∀ s b, f (s.graft u) b = (f s b).graft u) (l : List β) :
    l.foldl f (s.graft u) = (l.foldl f s).graft u :=
  List.foldl_hom (fun t : State => t.graft u) h

theorem updateNeighbour_graft (x y : Nat) (o : Origin) (d : Dir) :
    updateNeighbour x y o (s.graft u) d = (updateNeighbour x y o s d).graft u := by
  unfold updateNeighbour
  rw [graft_neighbour]
  cases s.neighbour d x y <;> rfl

theorem neighborUpdate_graft (x y : Nat) (o : Origin) :
    neighborUpdate x y o (s.graft u) = (neighborUpdate x y o s).graft u :=
  foldl_graft (s.setCtx x y _) u (fun s d => updateNeighbour_graft s u x y o d) allDirs

theorem signDecode_graft (x y : Nat) : signDecode x y (s.graft u) = (signDecode x y s).graft u := by
  simp only [signDecode, apply_ite (fun t : State => t.graft u)]
  rfl

theorem signify_graft (x y b : Nat) (o : Origin) : signify x y b o (s.graft u) = (signify x y b o s).graft u := by
  unfold signify
  rw [← neighborUpdate_graft, ← signDecode_graft]
  rfl

theorem sppCell_graft (b : Nat) (p : Nat × Nat) : sppCell b (s.graft u) p = (sppCell b s p).graft u := by
  simp only [sppCell, graft_ctxAt, decodeBit_graft, signify_graft]
  split_ifs <;> rfl

theorem mrpCell_graft (b : Nat) (p : Nat × Nat) : mrpCell b (s.graft u) p = (mrpCell b s p).graft u := by
  simp only [mrpCell, apply_ite (fun t : State => t.graft u)]
  rfl

theorem cupCell_graft (b : Nat) (p : Nat × Nat) : cupCell b (s.graft u) p = (cupCell b s p).graft u := by
  simp only [cupCell, graft_ctxAt, setCtx_graft, decodeBit_graft, signify_graft]
  split_ifs <;> rfl

theorem cupRun_graft (b : Nat) (col : Column) : cupRun b (s.graft u) col = (cupRun b s col).graft u := by
  simp only [cupRun, decodeBit_graft, signify_graft]
  exact foldl_graft _ u (fun s p => cupCell_graft s u b p) _

theorem cupColumn_graft (b : Nat) (col : Column) : cupColumn b (s.graft u) col = (cupColumn b s col).graft u := by
  simp only [cupColumn, graft_runLength, decodeBit_graft, cupRun_graft]
  split_ifs
  · rfl
  · rfl
  · exact foldl_graft s u (fun s p => cupCell_graft s u b p) _

theorem runPass_graft (k : PassKind) (b : Nat) : runPass k b (s.graft u) = (runPass k b s).graft u := by
  cases k with
  | spp => exact foldl_graft s u (fun s p => sppCell_graft s u b p) _
  | mrp => exact foldl_graft s u (fun s p => mrpCell_graft s u b p) _
  | cup => exact foldl_graft s u (fun s col => cupColumn_graft s u b col) _

theorem stepBody_graft : stepBody (s.graft u) = (stepBody s).graft u := by
  simp only [stepBody, execPass, graft_skips, graft_passIdx, graft_pk, graft_bp, attachPass_graft, runPass_graft,
    advance_graft]
  split_ifs <;> rfl

theorem runLoop_graft (n : Nat) : ∀ s : State, runLoop n (s.graft u) = (runLoop n s).graft u := by
  induction n with
  | zero => exact fun _ => rfl
  | succ n ih =>
    intro s
    rw [runLoop, runLoop, graft_stat, stepBody_graft, ih]
    split_ifs <;> rfl

/-- No command of the sequencer but `CB.ATTACH` reads the fields of `graft`. -/
theorem effect_cb_graft {i : Instr} (h : i = .cbStep ∨ i = .cbRun) : effect i (s.graft u) = (effect i s).graft u := by
  rcases h with rfl | rfl
  · simp only [effect, graft_stat, stepBody_graft]
    split_ifs <;> rfl
  · have hlat : (s.graft u).lat = s.lat := rfl
    simp only [effect, graft_stat, hlat, runLoop_graft]
    split_ifs <;> rfl

theorem BlockFrame.graft_faultRecord {s t : State} (h : BlockFrame s t) (f : BitVec 5) (r : BitVec 7) :
    t.graft { s with flt := f, rsp := r } = { t with flt := f, rsp := r } := by
  rw [State.graft, ← h.raw, ← h.desc]

theorem BlockFrame.graft_raw {s t : State} (h : BlockFrame s t) (r : Rawd) :
    t.graft { s with raw := r } = { t with raw := r } := by
  rw [State.graft, ← h.desc, ← h.flt, ← h.rsp]

theorem BlockFrame.graft_desc {s t : State} (h : BlockFrame s t) (d : Desc) :
    t.graft { s with desc := d } = { t with desc := d } := by
  rw [State.graft, ← h.raw, ← h.flt, ← h.rsp]

end Graft

/-! ### No command reads `FLT` or `RSP` (O12) -/

theorem effect_faultRecord (i : Instr) (s : State) (f : BitVec 5) (r : BitVec 7) :
    effect i { s with flt := f, rsp := r } = { effect i s with flt := f, rsp := r } := by
  have hcb : i = .cbStep ∨ i = .cbRun →
      effect i { s with flt := f, rsp := r } = { effect i s with flt := f, rsp := r } := fun h => by
    rw [← (effect_cb_frame h s).graft_faultRecord]
    exact effect_cb_graft s { s with flt := f, rsp := r } h
  cases i
  case cbStep => exact hcb (.inl rfl)
  case cbRun => exact hcb (.inr rfl)
  all_goals rfl

theorem verdict_faultRecord (i : Instr) (s : State) (f : BitVec 5) (r : BitVec 7) :
    verdict i { s with flt := f, rsp := r } = verdict i s := by
  cases i <;> rfl

/-- Settles O12: a completing command adds no bit, a refused one adds the bit of its code, and neither the answer nor
the effect depends on `FLT` and `RSP`. -/
theorem faultRecordNeverRead : Obligations.FaultRecordNeverRead := by
  unfold Obligations.FaultRecordNeverRead
  intro i s t h
  rcases exec_next h with ⟨data, hv, rfl⟩ | ⟨e, hv, rfl⟩
  · refine ⟨0, .inl ⟨rfl, rspCode_packRsp 0 data⟩, fun f r => ?_⟩
    have hzero : f ||| (0 : BitVec 5) = f := BitVec.or_zero
    rw [exec_eq_outcome, verdict_faultRecord, hv, Verdict.outcome, effect_faultRecord, hzero]
    rfl
  · refine ⟨e.mask, .inr ⟨e, rfl, rfl⟩, fun f r => ?_⟩
    rw [exec_eq_outcome, verdict_faultRecord, hv, Verdict.outcome, refusalEffect, refusalEffect]
    split_ifs <;> rfl

/-! ### RAWD and the descriptor registers (O35) -/

theorem effect_raw {i : Instr} (h : commandUnit i ≠ 1) (s : State) (r : Rawd) :
    effect i { s with raw := r } = { effect i s with raw := r } := by
  have hcb : i = .cbStep ∨ i = .cbRun → effect i { s with raw := r } = { effect i s with raw := r } := fun h => by
    rw [← (effect_cb_frame h s).graft_raw]
    exact effect_cb_graft s { s with raw := r } h
  cases i
  case cbStep => exact hcb (.inl rfl)
  case cbRun => exact hcb (.inr rfl)
  case rawReset | rawAttach | rawRestart | rawDecode | rawDecodeu => simp [commandUnit, Instr.opcode] at h
  all_goals rfl

theorem verdict_raw {i : Instr} (h : commandUnit i ≠ 1) (s : State) (r : Rawd) :
    verdict i { s with raw := r } = verdict i s := by
  cases i
  case rawReset | rawAttach | rawRestart | rawDecode | rawDecodeu => simp [commandUnit, Instr.opcode] at h
  all_goals rfl

theorem effect_desc {i : Instr} (h : i ≠ .cbAttach) (s : State) (d : Desc) :
    effect i { s with desc := d } = { effect i s with desc := d } := by
  have hcb : i = .cbStep ∨ i = .cbRun → effect i { s with desc := d } = { effect i s with desc := d } := fun h => by
    rw [← (effect_cb_frame h s).graft_desc]
    exact effect_cb_graft s { s with desc := d } h
  cases i
  case cbStep => exact hcb (.inl rfl)
  case cbRun => exact hcb (.inr rfl)
  case cbAttach => exact absurd rfl h
  all_goals rfl

theorem verdict_descRegisters {i : Instr} (h : i ≠ .cbAttach) (s : State) (d : Desc) :
    verdict i { s with desc := d } = verdict i s := by
  cases i
  case cbAttach => exact absurd rfl h
  all_goals rfl

theorem effect_mq {i : Instr} (h : commandUnit i = 1) (s : State) (m : Mqd) :
    effect i { s with mq := m } = { effect i s with mq := m } := by
  cases i
  case rawReset | rawAttach | rawRestart | rawDecode | rawDecodeu => rfl
  all_goals simp [commandUnit, Instr.opcode] at h

theorem verdict_mq {i : Instr} (h : commandUnit i = 1) (s : State) (m : Mqd) :
    verdict i { s with mq := m } = verdict i s := by
  cases i
  case rawReset | rawAttach | rawRestart | rawDecode | rawDecodeu => rfl
  all_goals simp [commandUnit, Instr.opcode] at h

/-- A refusal commutes with a change that leaves `CB_STAT`, `FLT` and `RSP` alone. -/
theorem refuse_commutes (f : State → State) (hstat : ∀ u, f { u with stat := .fault } = { f u with stat := .fault })
    (hrefuse : ∀ e u, refuse e (f u) = f (refuse e u)) (e : ErrCode) (u : State) :
    refuse e (refusalEffect e (f u)) = f (refuse e (refusalEffect e u)) := by
  unfold refusalEffect
  split_ifs
  · rw [← hstat, hrefuse]
  · exact hrefuse e u

/-- Settles O35, by the two-run law for a change of RAWD, of MQD and of the descriptor registers. -/
theorem rawdAndDescriptorIndependent : Obligations.RawdAndDescriptorIndependent := by
  unfold Obligations.RawdAndDescriptorIndependent
  intro i s t h
  refine ⟨fun hi r => ?_, fun hi m => ?_, fun hi d => ?_⟩
  · exact exec_commutes (fun u => { u with raw := r }) (verdict_raw hi s r) (effect_raw hi s r) (fun _ _ => rfl)
      (refuse_commutes _ (fun _ => rfl) fun _ _ => rfl) h
  · exact exec_commutes (fun u => { u with mq := m }) (verdict_mq hi s m) (effect_mq hi s m) (fun _ _ => rfl)
      (refuse_commutes _ (fun _ => rfl) fun _ _ => rfl) h
  · exact exec_commutes (fun u => { u with desc := d }) (verdict_descRegisters hi s d) (effect_desc hi s d)
      (fun _ _ => rfl) (refuse_commutes _ (fun _ => rfl) fun _ _ => rfl) h

end Sys2Proof.Machine
end

section
/-! PROOF. The two inductions over a step: what every kind of step keeps, a step keeps, and what every body of `CB.STEP`
keeps, `CB.STEP` and `CB.RUN` keep. -/

namespace Sys2Proof.Machine

/-! ### The sequencer (R154, R155, R158) -/

theorem toInt_sub_one {b : BitVec 8} (h : -128 < b.toInt) : (b - 1).toInt = b.toInt - 1 := by
  have hlt := BitVec.toInt_lt (x := b)
  have hone : (1 : BitVec 8).toInt = 1 := by decide
  rw [BitVec.toInt_sub, hone, Int.bmod_def]
  omega

/-- The conditions of `blockInRange` on the sequencer: it is at a bit-plane that exists, at one of the passes. -/
theorem blockInRange_iff {s : State} : s.blockInRange = true ↔
    s.width ≤ s.cfg.maxw ∧ s.height ≤ s.cfg.maxh ∧ s.lat.msb.toInt < s.cfg.magw ∧
    (s.lat.nbp.toNat : Int) ≤ s.lat.msb.toInt + 1 ∧ s.bp.toInt ≤ s.lat.msb.toInt ∧
    s.lat.msb.toInt - s.bp.toInt < s.lat.nbp.toNat ∧ 0 ≤ s.passIdx := by
  simp only [State.blockInRange, Bool.and_eq_true, decide_eq_true_eq, and_assoc]

/-- A bit-plane of a pass is a bit number (R155). -/
theorem bp_nonneg {s : State} (h : s.blockInRange = true) : 0 ≤ s.bp.toInt := by
  obtain ⟨_, _, _, hnbp, _, hlow, _⟩ := blockInRange_iff.mp h
  omega

theorem passIdx_nonneg_of_inRange {s : State} (h : s.blockInRange = true) : 0 ≤ s.passIdx := by
  obtain ⟨_, _, _, _, _, _, hidx⟩ := blockInRange_iff.mp h
  exact hidx

/-- The current pass is one of the remaining ones (R159). -/
theorem passIdx_mem_remaining {s : State} (h : s.blockInRange = true) : s.passIdx.toNat ∈ s.remaining := by
  obtain ⟨_, _, _, hnbp, _, hlow, hidx⟩ := blockInRange_iff.mp h
  have hord : s.pk.ordinal ≤ 2 := by cases s.pk <;> decide
  have hle : s.passIdx ≤ (s.lat.nbp.toNat - 1) * 3 := by
    unfold State.passIdx
    omega
  rw [State.remaining, List.mem_range'_1]
  omega

/-- An advance makes one step in the order of the passes (R155, R158). -/
theorem advance_passIdx {s : State} (h : 0 ≤ s.bp.toInt) : (advance s).passIdx = s.passIdx + 1 := by
  unfold State.passIdx
  rw [advance_lat, advance_bp]
  cases hpk : s.pk
  case cup =>
    have hbp := toInt_sub_one (b := s.bp) (by omega)
    simp only [advance, hpk, PassKind.ordinal, if_true, hbp]
    omega
  all_goals simp [advance, hpk, PassKind.ordinal]; omega

/-- The bit-plane after an advance (R158). -/
theorem advance_bp_toInt {s : State} (h : 0 ≤ s.bp.toInt) :
    (advance s).bp.toInt = if s.pk = .cup then s.bp.toInt - 1 else s.bp.toInt := by
  rw [advance_bp, apply_ite BitVec.toInt, toInt_sub_one (by omega)]

/-- Where a block stays ACTIVE, the next bit-plane is one of its own (R158). -/
theorem advance_active {s : State} (h : (advance s).stat = .active) :
    s.lat.msb.toInt - (advance s).bp.toInt < s.lat.nbp.toNat := by
  by_contra hge
  have hdone : (advance s).stat = .done := if_pos (Int.not_lt.mp hge)
  rw [hdone] at h
  cases h

theorem advance_blockInRange {s : State} (h : s.blockInRange = true) (hact : (advance s).stat = .active) :
    (advance s).blockInRange = true := by
  have hbp := bp_nonneg h
  obtain ⟨hw, hh, hmsb, hnbp, hle, hlow, hidx⟩ := blockInRange_iff.mp h
  refine blockInRange_iff.mpr ⟨hw, hh, hmsb, hnbp, ?_, advance_active hact, ?_⟩
  · rw [advance_lat, advance_bp_toInt hbp]
    split_ifs <;> omega
  · rw [advance_passIdx hbp]
    omega

/-- A body of `CB.STEP` moves the sequencer alike, whether the pass is skipped or executed (R157). -/
theorem stepBody_sequencer (s : State) : (stepBody s).bp = (advance s).bp ∧ (stepBody s).pk = (advance s).pk ∧
    (stepBody s).stat = (advance s).stat ∧ (stepBody s).lat = s.lat ∧ (stepBody s).cfg = s.cfg ∧
    (stepBody s).segtab = s.segtab := by
  rcases stepBody_cases s with ⟨_, h⟩ | ⟨_, h⟩ <;> rw [h]
  · exact ⟨rfl, rfl, rfl, rfl, rfl, rfl⟩
  · have hf := execPass_frame s
    refine ⟨?_, ?_, ?_, hf.lat, hf.cfg, hf.segtab⟩ <;> simp [advance, hf.bp, hf.pk, hf.stat, hf.lat]

theorem passIdx_congr {s t : State} (hlat : t.lat = s.lat) (hbp : t.bp = s.bp) (hpk : t.pk = s.pk) :
    t.passIdx = s.passIdx := by
  unfold State.passIdx
  rw [hlat, hbp, hpk]

theorem blockInRange_congr {s t : State} (hcfg : t.cfg = s.cfg) (hlat : t.lat = s.lat) (hbp : t.bp = s.bp)
    (hpk : t.pk = s.pk) : t.blockInRange = s.blockInRange := by
  unfold State.blockInRange State.width State.height
  rw [passIdx_congr hlat hbp hpk, hcfg, hlat, hbp]

theorem slotBad_congr {s t : State} (hcfg : t.cfg = s.cfg) (hlat : t.lat = s.lat) (hsegtab : t.segtab = s.segtab) :
    t.slotBad = s.slotBad := by
  funext idx
  unfold State.slotBad State.skips State.slotAt
  rw [hcfg, hlat, hsegtab]

/-! ### The induction over `CB.STEP` and `CB.RUN` -/

/-- A body of `CB.STEP` may run: the block is in range and no remaining pass has an ill-formed slot, the checks that
`CB.RUN` makes once, before its first pass (R159). -/
structure RunReady (s : State) : Prop where
  inRange : s.stat = .active → s.blockInRange = true
  slots : s.stat = .active → ∀ p ∈ s.remaining, s.slotBad p = false

theorem stepBody_runReady {s : State} (hact : s.stat = .active) (h : RunReady s) : RunReady (stepBody s) := by
  obtain ⟨hbp, hpk, hstat, hlat, hcfg, hsegtab⟩ := stepBody_sequencer s
  have hin := h.inRange hact
  have hidx : (stepBody s).passIdx = s.passIdx + 1 := by
    rw [← advance_passIdx (bp_nonneg hin)]
    exact passIdx_congr hlat hbp hpk
  refine ⟨fun ha => ?_, fun _ p hp => ?_⟩
  · rw [hstat] at ha
    rw [← advance_blockInRange hin ha]
    exact blockInRange_congr hcfg hlat hbp hpk
  · rw [slotBad_congr hcfg hlat hsegtab]
    refine h.slots hact p ?_
    have hnonneg := passIdx_nonneg_of_inRange hin
    rw [State.remaining, List.mem_range'_1, hidx, hlat] at hp
    rw [State.remaining, List.mem_range'_1]
    omega

/-- `P` is kept by every body of `CB.STEP` that may run. -/
abbrev BodyKeeps (P : State → Prop) : Prop :=
  ∀ s, s.stat = .active → s.blockInRange = true → s.slotBad s.passIdx.toNat = false → P s → P (stepBody s)

theorem BodyKeeps.cbStep {P : State → Prop} (h : BodyKeeps P) {s : State} {data : BitVec 2}
    (hv : verdict .cbStep s = .completes data) (hs : P s) : P (effect .cbStep s) := by
  rw [effect]
  split_ifs with hact
  · rcases verdict_cbStep_completes hv with ⟨hdone, _⟩ | ⟨_, hin, hbad, _⟩
    · rw [hdone] at hact
      cases hact
    · exact h s hact hin hbad hs
  · exact hs

theorem BodyKeeps.cbRun {P : State → Prop} (h : BodyKeeps P) {s : State} {data : BitVec 2}
    (hv : verdict .cbRun s = .completes data) (hs : P s) : P (effect .cbRun s) := by
  rw [effect]
  split_ifs with hact
  · obtain ⟨_, hdone | ⟨_, hin, hbad⟩⟩ := verdict_cbRun_completes hv
    · rw [hdone] at hact
      cases hact
    · have hready : RunReady s := ⟨fun _ => hin, fun _ => by simpa using hbad⟩
      refine (runLoop_induct (P := fun t => P t ∧ RunReady t) (fun t ha ⟨ht, hr⟩ => ⟨?_, ?_⟩) _ s ⟨hs, hready⟩).1
      · exact h t ha (hr.inRange ha) (hr.slots ha _ (passIdx_mem_remaining (hr.inRange ha))) ht
      · exact stepBody_runReady ha hr
  · exact hs

/-! ### The induction over a step -/

/-- Every kind of step keeps `P`: the record of a response, a hardware reset, a host write, the FAULT status of a
refused `CB.ATTACH`, and the effect of every command that completes. -/
structure StepKeeps (P : State → Prop) : Prop where
  /-- `FLT`, `RSP` and the host's list, of which `P` says nothing. -/
  record : ∀ s f r p, P s → P { s with flt := f, rsp := r, pending := p }
  /-- Hardware reset (R240). -/
  reset : ∀ s, P (hardwareReset s)
  /-- A host write to a descriptor register. -/
  desc : ∀ s d, P s → P { s with desc := d }
  /-- A host write to `SEGTAB`. -/
  slot : ∀ s i e, i < s.cfg.nslot →
    ((e.base = (s.slotAt i).base ∨ e.base < 2 ^ Params.lw s.cfg) ∧
      (e.len = (s.slotAt i).len ∨ e.len < 2 ^ Params.lw s.cfg)) →
    P s → P { s with segtab := Memory.write blankSlot s.segtab i e }
  /-- A host write to `SEGMEM`. -/
  byte : ∀ s a b, a < s.cfg.segsize → P s → P { s with segmem := Memory.write blankByte s.segmem a b }
  /-- `CB_STAT <- FAULT` (R216). -/
  invalid : ∀ s, P s → P { s with stat := .fault }
  /-- A command that completes. -/
  effect : ∀ i s data, verdict i s = .completes data → P s → P (effect i s)

theorem StepKeeps.refuse {P : State → Prop} (h : StepKeeps P) (e : ErrCode) {s : State} (hs : P s) :
    P (refuse e s) :=
  h.record s _ _ s.pending hs

theorem StepKeeps.exec {P : State → Prop} (h : StepKeeps P) {i : Instr} {s t : State} (hs : P s)
    (hexec : exec i s = .next t) : P t := by
  rcases exec_next hexec with ⟨data, hv, rfl⟩ | ⟨e, _, rfl⟩
  · exact h.record _ _ _ (Machine.effect i s).pending (h.effect i s data hv hs)
  · refine h.refuse e ?_
    unfold refusalEffect
    split_ifs
    · exact h.invalid s hs
    · exact hs

/-- THE INDUCTION OVER A STEP. -/
theorem StepKeeps.step {P : State → Prop} (h : StepKeeps P) {s t : State} (hs : P s) (hstep : step s = .next t) :
    P t := by
  have hrest : ∀ rest, P { s with pending := rest } := fun rest => h.record s s.flt s.rsp rest hs
  rcases step_next hstep with ⟨_, rfl⟩ | ⟨w, rest, i, _, _, hexec⟩ | ⟨w, rest, _, rfl⟩ | ⟨target, v, rest, _, hw⟩ |
    ⟨rest, _, rfl⟩
  · exact hs
  · exact h.exec (hrest rest) hexec
  · exact h.refuse .opc (hrest rest)
  · rcases hostWrite_next hw with rfl | ⟨d, rfl⟩ | ⟨i, e, hi, rfl, he⟩ | ⟨a, b, ha, rfl⟩
    · exact hrest rest
    · exact h.desc _ d (hrest rest)
    · exact h.slot _ i e hi he (hrest rest)
    · exact h.byte _ a b ha (hrest rest)
  · exact h.reset _

end Sys2Proof.Machine
end

section
/-! PROOF. O34, O42 and O27: every step keeps the invariants of RAWD, of the sequencer and of MQD. -/

namespace Sys2Proof.Machine

/-! ### RAWD (R30, R137) -/

theorem usable_of_isSome {slot : Nat} {s : State} (h : (slotOperand slot s).isSome = true) : s.Usable slot := by
  obtain ⟨e, he⟩ := Option.isSome_iff_exists.mp h
  exact (slotOperand_eq_some.mp he).1

/-- An attach command completes on a usable slot only (R103, R132). -/
theorem usable_of_completes {slot : Nat} {s : State} {data : BitVec 2}
    (h : (if (slotOperand slot s).isSome then Verdict.completes 0 else .refused .slot) = .completes data) :
    s.Usable slot := by
  split_ifs at h with hsome
  exact usable_of_isSome hsome

theorem rawOk_attach {slot : Nat} {s : State} (h : s.Usable slot) :
    RawOk { s with raw := s.raw.attach (s.slotAt slot) } := by
  obtain ⟨_, _, hinside⟩ := h
  exact ⟨fun _ => hinside, fun hrdy => by cases hrdy⟩

theorem rawOk_restart {s : State} (h : RawOk s) (hatt : s.raw.att = true) :
    RawOk { s with raw := { s.raw with rt := 0, bits := 0, rl := 0, rdy := true } } :=
  ⟨h.1, fun _ => ⟨hatt, (by simp), Nat.zero_le _⟩⟩

theorem rawOk_decode {s : State} (h : RawOk s) : RawOk { s with raw := (rawDecode s.segmem s.raw).2 } := by
  obtain ⟨hseg, hready⟩ := h
  refine ⟨by simpa using hseg, fun hrdy => ?_⟩
  obtain ⟨hatt, hbits, hrl⟩ := hready (by simpa using hrdy)
  exact ⟨by simpa using hatt, rawDecode_bits _ _ hbits, by simpa using rawDecode_rl_le s.segmem s.raw hrl⟩

theorem stepBody_rawOk : BodyKeeps RawOk := by
  intro s _ _ _ h
  have hf := stepBody_frame s
  rw [RawOk, hf.raw, hf.cfg]
  exact h

theorem effect_rawOk {i : Instr} {s : State} {data : BitVec 2} (hv : verdict i s = .completes data) (h : RawOk s) :
    RawOk (effect i s) := by
  cases i
  case rawAttach slot => exact rawOk_attach (usable_of_completes hv)
  case rawRestart => exact rawOk_restart h (unitVerdict_completes.mp hv).1
  case rawDecode cx => exact rawOk_decode h
  case rawDecodeu => exact rawOk_decode h
  case cbStep => exact stepBody_rawOk.cbStep hv h
  case cbRun => exact stepBody_rawOk.cbRun hv h
  all_goals exact h

theorem rawOk_stepKeeps : StepKeeps RawOk where
  record _ _ _ _ h := h
  reset _ := ⟨nofun, nofun⟩
  desc _ _ h := h
  slot _ _ _ _ _ h := h
  byte _ _ _ _ h := h
  invalid _ h := h
  effect _ _ _ hv h := effect_rawOk hv h

/-- Settles O34, by the induction over a step. -/
theorem rawInvariantKept : Obligations.RawInvariantKept := by
  unfold Obligations.RawInvariantKept
  exact fun _ _ h hstep => rawOk_stepKeeps.step h hstep

/-! ### The sequencer (R33, R34, R154, R155) -/

/-- The checks of `CB.ATTACH` are the four conditions of R152. -/
theorem descInvalid_iff {p : Params} {d : Desc} : descInvalid p d = true ↔ DescBad p d := by
  simp only [descInvalid, DescBad, Bool.or_eq_true, decide_eq_true_eq, or_assoc]
  exact Iff.rfl

/-- The number of bit-planes is latched without loss (R151). -/
theorem latch_nbp_toNat (d : Desc) : (latch d).nbp.toNat = (d.npass.toNat + 4) / 3 := by
  have hlt := d.npass.isLt
  simp only [latch, nbpOf, BitVec.toNat_ofNat]
  omega

/-- A valid descriptor latches as one (R33, R152). -/
theorem attachBlock_latchedOk {s : State} (h : ¬ DescBad s.cfg s.desc) : LatchedOk (attachBlock s) := by
  simp only [DescBad, not_or, Int.not_lt, Int.not_le, Nat.not_lt] at h
  obtain ⟨hmsb, hnbp, ⟨hw, hmaxw, hh, hmaxh⟩, hmag⟩ := h
  have hpos : ∀ v : BitVec 16, v ≠ 0 → 1 ≤ v.toNat := fun v hv =>
    Nat.one_le_iff_ne_zero.mpr fun h0 => hv (BitVec.eq_of_toNat_eq h0)
  refine ⟨⟨hpos _ hw, hmaxw⟩, ⟨hpos _ hh, hmaxh⟩, ⟨hmsb, hmag⟩, latch_nbp_toNat s.desc, ?_⟩
  rw [attachBlock_lat, latch_nbp_toNat]
  exact hnbp

theorem attachBlock_seqOk {s : State} (h : ¬ DescBad s.cfg s.desc) : SeqOk (attachBlock s) := by
  have hlat := attachBlock_latchedOk h
  refine ⟨fun _ => ⟨hlat, ?_, le_rfl, fun _ => rfl⟩, fun hdone => by cases hdone⟩
  have hnbp : 1 ≤ (latch s.desc).nbp.toNat := by
    rw [latch_nbp_toNat]
    omega
  rw [attachBlock_lat, attachBlock_bp]
  change s.desc.msb.toInt - ((latch s.desc).nbp.toNat : Int) < s.desc.msb.toInt
  omega

/-- The parameters and the latched descriptor alone say whether the latched descriptor is valid. -/
theorem latchedOk_congr {s t : State} (hcfg : t.cfg = s.cfg) (hlat : t.lat = s.lat) : LatchedOk t ↔ LatchedOk s := by
  unfold LatchedOk State.width State.height
  rw [hcfg, hlat]

theorem nbp_le_of_latchedOk {s : State} (h : LatchedOk s) : (s.lat.nbp.toNat : Int) ≤ s.lat.msb.toInt + 1 := by
  obtain ⟨_, _, _, _, hnbp⟩ := h
  exact hnbp

theorem seqOk_congr {s t : State} (hcfg : t.cfg = s.cfg) (hlat : t.lat = s.lat) (hbp : t.bp = s.bp)
    (hpk : t.pk = s.pk) (hstat : t.stat = s.stat) : SeqOk t ↔ SeqOk s := by
  unfold SeqOk
  rw [latchedOk_congr hcfg hlat, hlat, hbp, hpk, hstat]

/-- An advance of an ACTIVE block goes to the next pass, or from the last to the terminal state (R155, R158). -/
theorem advance_seqOk {s : State} (hact : s.stat = .active) (h : SeqOk s) : SeqOk (advance s) := by
  obtain ⟨hlat, hlow, hle, hfirst⟩ := h.1 hact
  have hnbp := nbp_le_of_latchedOk hlat
  have hbp := advance_bp_toInt (s := s) (by omega)
  refine ⟨fun ha => ⟨hlat, ?_, ?_, fun htop => ?_⟩, fun hd => ⟨hlat, ?_⟩⟩
  · have hlast := advance_active ha
    rw [advance_lat]
    omega
  · rw [advance_lat, hbp]
    split_ifs <;> omega
  · rw [advance_lat] at htop
    rw [htop] at hbp
    split_ifs at hbp with hcup
    · omega
    · exact absurd (hfirst (BitVec.eq_of_toInt_eq hbp.symm)) hcup
  · have hlast : (s.lat.nbp.toNat : Int) ≤ s.lat.msb.toInt - (advance s).bp.toInt := by
      by_contra hlt
      have hstat : (advance s).stat = s.stat := if_neg hlt
      rw [hstat, hact] at hd
      cases hd
    rw [hbp] at hlast
    rw [advance_lat, hbp]
    split_ifs at hlast ⊢ with hcup
    · exact ⟨by omega, by simp [advance, hcup]⟩
    · omega

theorem stepBody_seqOk : BodyKeeps SeqOk := by
  intro s hact _ _ h
  obtain ⟨hbp, hpk, hstat, hlat, hcfg, _⟩ := stepBody_sequencer s
  exact (seqOk_congr (s := advance s) hcfg hlat hbp hpk hstat).mpr (advance_seqOk hact h)

theorem effect_seqOk {i : Instr} {s : State} {data : BitVec 2} (hv : verdict i s = .completes data) (h : SeqOk s) :
    SeqOk (effect i s) := by
  cases i
  case cbAttach =>
    refine attachBlock_seqOk fun hbad => ?_
    rw [verdict, if_pos (descInvalid_iff.mpr hbad)] at hv
    cases hv
  case cbStep => exact stepBody_seqOk.cbStep hv h
  case cbRun => exact stepBody_seqOk.cbRun hv h
  all_goals exact h

theorem seqOk_stepKeeps : StepKeeps SeqOk where
  record _ _ _ _ h := h
  reset _ := ⟨nofun, nofun⟩
  desc _ _ h := h
  slot _ _ _ _ _ h := h
  byte _ _ _ _ h := h
  invalid _ _ := ⟨nofun, nofun⟩
  effect _ _ _ hv h := effect_seqOk hv h

/-- Settles O42, by the induction over a step. -/
theorem sequencerInvariantKept : Obligations.SequencerInvariantKept := by
  unfold Obligations.SequencerInvariantKept
  exact fun _ _ h hstep => seqOk_stepKeeps.step h hstep

/-! ### MQD (R26, R27, R109) -/

/-- A decode leaves every probability state index a row of the table (R27, R101). -/
theorem mqDecode_idx_le {mem : Memory Byte} {m : Mqd} (cx : Fin 19) (h : ∀ k : Fin 19, m.ctx[k].idx ≤ 46)
    (k : Fin 19) : (mqDecode mem cx m).2.ctx[k].idx ≤ 46 := by
  by_cases hk : k = cx
  · subst hk
    obtain ⟨_, hnmps, hnlps⟩ := mqRow_bounds _ (h k)
    rcases mqDecode_ctx mem m k with hc | hc | hc <;> rw [hc]
    · exact h k
    · simpa [mpsEntry] using hnmps
    · simpa [lpsEntry] using hnlps
  · rw [mqDecode_ctx_other mem m cx hk]
    exact h k

/-- A renormalisation of a proper interval leaves `0x8000 ≤ A ≤ 0xFFFF` (R106). -/
theorem renorm_a_range {mem : Memory Byte} {m : Mqd} (h1 : 1 ≤ m.a) (h2 : m.a < 0x8000) :
    0x8000 ≤ (renorm mem m).a ∧ (renorm mem m).a ≤ 0xFFFF := by
  obtain ⟨_, _, _, _, hlo, hhi⟩ := renorm_spec mem m h1 h2
  exact ⟨BitVec.le_def.mpr hlo, BitVec.le_def.mpr hhi⟩

/-- A decode keeps the interval register in its range (R109). -/
theorem mqDecode_a_range {mem : Memory Byte} {m : Mqd} {cx : Fin 19} (hidx : m.ctx[cx].idx ≤ 46)
    (hlo : 0x8000 ≤ m.a) (hhi : m.a ≤ 0xFFFF) :
    0x8000 ≤ (mqDecode mem cx m).2.a ∧ (mqDecode mem cx m).2.a ≤ 0xFFFF := by
  obtain ⟨⟨hq1, hq2⟩, _, _⟩ := mqRow_bounds _ hidx
  unfold mqDecode
  dsimp only
  generalize (mqRow m.ctx[cx].idx).qe = q at *
  have hqe : 1 ≤ q.setWidth 32 ∧ q.setWidth 32 < 0x8000 := by constructor <;> bv_omega
  have hrest : 1 ≤ m.a - q.setWidth 32 ∧ m.a - q.setWidth 32 ≤ 0xFFFF := by constructor <;> bv_omega
  split_ifs with _ _ hlt
  · exact renorm_a_range hqe.1 hqe.2
  · exact renorm_a_range hqe.1 hqe.2
  · exact renorm_a_range hrest.1 hlt
  · exact renorm_a_range hrest.1 hlt
  · exact ⟨BitVec.not_lt.mp hlt, hrest.2⟩

/-- A decode keeps the pending bits and the cursor in their ranges (R23, R25). -/
theorem mqDecode_cursor {mem : Memory Byte} {m : Mqd} (cx : Fin 19) (ht : m.t ≤ 8) (hl : m.l ≤ m.len) :
    (mqDecode mem cx m).2.t ≤ 8 ∧ (mqDecode mem cx m).2.l ≤ (mqDecode mem cx m).2.len :=
  mqDecode_induct mem m cx (P := fun x => x.t ≤ 8 ∧ x.l ≤ x.len) (fun _ _ _ _ h => h)
    (fun x h => ⟨renormOnce_t mem x h.1, by simpa using renormOnce_l_le mem x h.2⟩) ⟨ht, hl⟩

theorem decodeBit_mqOk (n : Nat) {s : State} (h : MqOk s) : MqOk (decodeBit n s).2 := by
  obtain ⟨hidx, hseg, hready⟩ := h
  refine ⟨mqDecode_idx_le _ hidx, by simpa using hseg, fun hrdy => ?_⟩
  obtain ⟨hatt, ⟨hlo, hhi⟩, ht, hl⟩ := hready (by simpa using hrdy)
  exact ⟨by simpa using hatt, mqDecode_a_range (hidx _) hlo hhi, mqDecode_cursor _ ht hl⟩

/-- A restart puts the registers into their ranges, whatever they held (R105). -/
theorem mqOk_restart {s : State} {m : Mqd} (hidx : ∀ k : Fin 19, m.ctx[k].idx ≤ 46)
    (hseg : m.base + m.len ≤ s.cfg.segsize) (hatt : m.att = true) :
    MqOk { s with mq := mqRestart s.segmem m } := by
  refine ⟨by simpa using hidx, fun _ => by simpa using hseg, fun _ => ⟨by simpa using hatt, ?_, ?_, ?_⟩⟩
  · rw [mqRestart_a]
    decide
  · rcases mqRestart_t s.segmem m with h | h <;> rw [h] <;> decide
  · simpa using mqRestart_l_le s.segmem m

theorem mqOk_attach {slot : Nat} {s : State} (h : MqOk s) (hslot : s.Usable slot) :
    MqOk { s with mq := s.mq.attach (s.slotAt slot) } := by
  obtain ⟨_, _, hinside⟩ := hslot
  exact ⟨h.1, fun _ => hinside, fun hrdy => by cases hrdy⟩

theorem startup_idx_le : ∀ k : Fin 19, startupContexts[k].idx ≤ 46 := by decide

theorem mqOk_startup {s : State} (h : MqOk s) : MqOk { s with mq := { s.mq with ctx := startupContexts } } :=
  ⟨startup_idx_le, h.2⟩

theorem passKeeps_mqOk (b : Nat) : PassKeeps b MqOk where
  dec n _ h := decodeBit_mqOk n h
  ctx _ _ _ _ _ h := h
  sgn _ _ _ _ _ h := h
  new _ _ _ _ h := h
  refine _ _ _ _ _ h := h

theorem stepBody_mqOk : BodyKeeps MqOk := by
  intro s _ _ hbad h
  rcases stepBody_cases s with ⟨_, hbody⟩ | ⟨hskip, hbody⟩ <;> rw [hbody]
  · exact h
  · have hinside : (s.slotAt s.passIdx.toNat).base + (s.slotAt s.passIdx.toNat).len ≤ s.cfg.segsize := by
      simpa [State.slotBad, hskip, segInside] using hbad
    exact runPass_keeps (passKeeps_mqOk _) _ (s := attachPass s.passIdx.toNat s) (mqOk_restart h.1 hinside rfl)

theorem effect_mqOk {i : Instr} {s : State} {data : BitVec 2} (hv : verdict i s = .completes data) (h : MqOk s) :
    MqOk (effect i s) := by
  cases i
  case mqReset => exact mqOk_startup h
  case mqAttach slot => exact mqOk_attach h (usable_of_completes hv)
  case mqRestart =>
    obtain ⟨hatt, _, _⟩ := unitVerdict_completes.mp hv
    exact mqOk_restart h.1 (h.2.1 hatt) hatt
  case mqDecode cx => exact decodeBit_mqOk cx h
  case mqDecodeu => exact decodeBit_mqOk 18 h
  case cbAttach => exact mqOk_startup h
  case cbStep => exact stepBody_mqOk.cbStep hv h
  case cbRun => exact stepBody_mqOk.cbRun hv h
  all_goals exact h

theorem mqOk_stepKeeps : StepKeeps MqOk where
  record _ _ _ _ h := h
  reset _ := ⟨startup_idx_le, nofun, nofun⟩
  desc _ _ h := h
  slot _ _ _ _ _ h := h
  byte _ _ _ _ h := h
  invalid _ h := h
  effect _ _ _ hv h := effect_mqOk hv h

/-- Settles O27, by the induction over a step. -/
theorem mqInvariantKept : Obligations.MqInvariantKept := by
  unfold Obligations.MqInvariantKept
  exact fun _ _ h hstep => mqOk_stepKeeps.step h hstep

end Sys2Proof.Machine
end

section
/-! PROOF. O7, O8, O9, O10 and O37: reset, the host's reads and writes, and `CB.ATTACH`. -/

namespace Sys2Proof.Machine

/-! ### Reset (R45, R240) -/

theorem startupContexts_get : ∀ cx : Fin 19, startupContexts[cx] =
    { idx := if cx = 0 then 4 else if cx = 9 then 3 else if cx = 18 then 46 else 0, mps := false } := by
  decide

theorem step_hardReset {s : State} {rest : List HostAction} (h : s.pending = .hardReset :: rest) :
    step s = .next (hardwareReset { s with pending := rest }) := by
  rw [step, nextAction_cons s h]

theorem mq_statWord_zero {m : Mqd} (hatt : m.att = false) (hrdy : m.rdy = false) (hmrk : m.mrk = false) :
    m.statWord = 0 := by
  rw [Mqd.statWord, hatt, hrdy, hmrk]
  decide

theorem raw_statWord_zero {r : Rawd} (hatt : r.att = false) (hrdy : r.rdy = false) : r.statWord = 0 := by
  rw [Rawd.statWord, hatt, hrdy]
  decide

/-- Settles O7: the state after a hardware reset and the reset state have these fields in common. -/
theorem hardwareResetValues : Obligations.HardwareResetValues := by
  unfold Obligations.HardwareResetValues
  intro s rest h
  refine ⟨_, step_hardReset h, fun u hu => ?_⟩
  rcases hu with rfl | rfl <;>
    exact ⟨mq_statWord_zero rfl rfl rfl, raw_statWord_zero rfl rfl, rfl, rfl, rfl, fun _ => rfl, startupContexts_get⟩

theorem resetWith_not_attached (p : Params) : ¬ (State.resetWith p).Attached := by
  rintro (h | h) <;> cases h

theorem resetWith_inv (p : Params) : Inv (State.resetWith p) where
  mq := ⟨startup_idx_le, nofun, nofun⟩
  raw := ⟨nofun, nofun⟩
  seq := ⟨nofun, nofun⟩
  cells h := absurd h (resetWith_not_attached p)
  coef h := absurd h (resetWith_not_attached p)
  eq18 := startupContexts_get 18
  wf := ⟨rfl, rfl, rfl, rfl⟩
  addr := ⟨nofun, nofun, nofun, nofun⟩
  widths := by
    have hpos : 0 < 2 ^ Params.lw p := by positivity
    exact ⟨⟨hpos, hpos, hpos⟩, ⟨hpos, hpos, hpos⟩, nofun, nofun⟩

/-- Settles O8: at reset no segment and no block is attached and the memories are empty. -/
theorem resetSatisfiesInvariants : Obligations.ResetSatisfiesInvariants := by
  unfold Obligations.ResetSatisfiesInvariants
  exact ⟨fun p => ⟨resetWith_inv p, fun h => absurd h (resetWith_not_attached p)⟩, rfl, by decide⟩

/-! ### Host access to read-only state (R46, R48, R65) -/

theorem step_write {s : State} {target : HostTarget} {v : Nat} {rest : List HostAction}
    (h : s.pending = .write target v :: rest) : step s = hostWrite target v { s with pending := rest } := by
  rw [step, nextAction_cons s h]

/-- The registers by their numbers in R48: the read-write ones are the descriptor registers, 0x40 to 0x44, and the
segment table, from 0x100. -/
theorem writeReg_readOnly {r : Reg} (h : r.number < 0x40 ∨ (0x44 < r.number ∧ r.number < 0x100)) (v : Nat) (s : State) :
    writeReg r v s = .next s := by
  cases r
  case descW | descH | descSb | descMsb | descNpass => simp [Reg.number] at h
  case segValid i | segBase i | segLen i => simp only [Reg.number] at h; omega
  all_goals rfl

theorem readCtx_inBlock {s : State} {x y : Nat} (h : s.InBlock x y) : s.readCtx (s.flat x y) = some (s.ctxAt x y) :=
  if_pos (flat_lt h)

theorem readCoef_inBlock {s : State} {x y : Nat} (h : s.InBlock x y) : s.readCoef (s.flat x y) = some (s.coefAt x y) :=
  if_pos (flat_lt h)

/-- The value of a coefficient is its magnitude with its sign (R38, R161). -/
theorem Coef.value_eq (c : Coef) : c.value = (-1) ^ c.sgn.toNat * (c.mag.toNat : Int) := by
  unfold Coef.value
  cases c.sgn <;> simp

/-- Settles O9: the ignored writes by register number, the reads by the flat index of a coefficient of the block. -/
theorem hostReadOnlyAccess : Obligations.HostReadOnlyAccess := by
  unfold Obligations.HostReadOnlyAccess
  refine ⟨fun s v rest => ⟨fun r hp hr => ?_, fun a hp => ?_, fun a hp => ?_⟩, fun s x y hx hy => ?_, fun s a ha => ?_⟩
  · rw [step_write hp]
    exact writeReg_readOnly hr v _
  · rw [step_write hp]
    rfl
  · rw [step_write hp]
    rfl
  · exact ⟨readCtx_inBlock ⟨hx, hy⟩, readCoef_inBlock ⟨hx, hy⟩, Coef.value_eq _, fun u v hu _ h => flat_inj hx hu h⟩
  · exact ⟨if_neg (Nat.not_lt.mpr ha), if_neg (Nat.not_lt.mpr ha)⟩

/-! ### Host writes (R46, R48, R62) -/

theorem subbandOf_code (v : BitVec 2) : (subbandOf v).code = v.toNat := by
  revert v
  decide

/-- What a write of `v` to the register `r` must show: `v` cut to the width of `r` is read back, every other register
reads as before, and nothing but the descriptor registers and the segment table is written. -/
structure RegWritten (r : Reg) (v : Nat) (s t : State) : Prop where
  same : t.readReg r = v % 2 ^ r.bits s.cfg
  other : ∀ q : Reg, q ≠ r → t.readReg q = s.readReg q
  frame : t = { s with desc := t.desc, segtab := t.segtab }

/-- A register other than `r` reads as before where only the descriptor register `r` has a new value. -/
theorem readReg_desc_other {s : State} {d : Desc} {r q : Reg} (hq : q ≠ r) (hw : r = .descW ∨ d.w = s.desc.w)
    (hh : r = .descH ∨ d.h = s.desc.h) (hsb : r = .descSb ∨ d.sb = s.desc.sb)
    (hmsb : r = .descMsb ∨ d.msb = s.desc.msb) (hnpass : r = .descNpass ∨ d.npass = s.desc.npass) :
    ({ s with desc := d } : State).readReg q = s.readReg q := by
  cases q
  case descW => exact congrArg BitVec.toNat (hw.resolve_left hq.symm)
  case descH => exact congrArg BitVec.toNat (hh.resolve_left hq.symm)
  case descSb => exact congrArg Subband.code (hsb.resolve_left hq.symm)
  case descMsb => exact congrArg BitVec.toNat (hmsb.resolve_left hq.symm)
  case descNpass => exact congrArg BitVec.toNat (hnpass.resolve_left hq.symm)
  all_goals rfl

theorem writeReg_desc {r : Reg} (hr : 0x40 ≤ r.number ∧ r.number ≤ 0x44) (v : Nat) (s : State) :
    ∃ t, writeReg r v s = .next t ∧ RegWritten r v s t := by
  cases r
  case descW =>
    exact ⟨_, rfl, BitVec.toNat_ofNat v 16, fun q hq =>
      readReg_desc_other hq (.inl rfl) (.inr rfl) (.inr rfl) (.inr rfl) (.inr rfl), rfl⟩
  case descH =>
    exact ⟨_, rfl, BitVec.toNat_ofNat v 16, fun q hq =>
      readReg_desc_other hq (.inr rfl) (.inl rfl) (.inr rfl) (.inr rfl) (.inr rfl), rfl⟩
  case descSb =>
    exact ⟨_, rfl, (subbandOf_code _).trans (BitVec.toNat_ofNat v 2), fun q hq =>
      readReg_desc_other hq (.inr rfl) (.inr rfl) (.inl rfl) (.inr rfl) (.inr rfl), rfl⟩
  case descMsb =>
    exact ⟨_, rfl, BitVec.toNat_ofNat v 8, fun q hq =>
      readReg_desc_other hq (.inr rfl) (.inr rfl) (.inr rfl) (.inl rfl) (.inr rfl), rfl⟩
  case descNpass =>
    exact ⟨_, rfl, BitVec.toNat_ofNat v 16, fun q hq =>
      readReg_desc_other hq (.inr rfl) (.inr rfl) (.inr rfl) (.inr rfl) (.inl rfl), rfl⟩
  all_goals simp only [Reg.number] at hr; omega

section Slots

variable {s : State} (hwf : Memory.wf blankSlot s.segtab = true) (i : Nat) (e : Slot)
include hwf

theorem slotAt_write_same :
    ({ s with segtab := Memory.write blankSlot s.segtab i e } : State).slotAt i = e :=
  Memory.read_write_same hwf i e

theorem slotAt_write_other {j : Nat} (h : j ≠ i) :
    ({ s with segtab := Memory.write blankSlot s.segtab i e } : State).slotAt j = s.slotAt j :=
  Memory.read_write_other hwf h e

/-- A field of an entry of `SEGTAB` reads as before a write of entry `i` that leaves the field alone. -/
theorem slotField_write {β : Type} (field : Slot → β) {j : Nat} (h : j = i → field e = field (s.slotAt i)) :
    field (({ s with segtab := Memory.write blankSlot s.segtab i e } : State).slotAt j) = field (s.slotAt j) := by
  by_cases hj : j = i
  · subst hj
    rw [slotAt_write_same hwf]
    exact h rfl
  · rw [slotAt_write_other hwf i e hj]

/-- A register other than `r` reads as before where only the field `r` of entry `i` has a new value. -/
theorem readReg_slot_other {r q : Reg} (hq : q ≠ r) (hvalid : r = .segValid i ∨ e.valid = (s.slotAt i).valid)
    (hbase : r = .segBase i ∨ e.base = (s.slotAt i).base) (hlen : r = .segLen i ∨ e.len = (s.slotAt i).len) :
    ({ s with segtab := Memory.write blankSlot s.segtab i e } : State).readReg q = s.readReg q := by
  cases q
  case segValid j =>
    exact slotField_write hwf i e (fun e => e.valid.toNat) fun hj =>
      congrArg Bool.toNat (hvalid.resolve_left fun hr => hq (hj ▸ hr.symm))
  case segBase j =>
    exact slotField_write hwf i e Slot.base fun hj => hbase.resolve_left fun hr => hq (hj ▸ hr.symm)
  case segLen j =>
    exact slotField_write hwf i e Slot.len fun hj => hlen.resolve_left fun hr => hq (hj ▸ hr.symm)
  all_goals rfl

end Slots

theorem writeReg_slot {s : State} (hwf : Memory.wf blankSlot s.segtab = true) {i : Nat} (hi : i < s.cfg.nslot)
    {r : Reg} (hr : r = .segValid i ∨ r = .segBase i ∨ r = .segLen i) (v : Nat) :
    ∃ t, writeReg r v s = .next t ∧ RegWritten r v s t := by
  rcases hr with rfl | rfl | rfl
  · refine ⟨_, writeSlot_of_lt hi _, ?_, fun q hq =>
      readReg_slot_other hwf i _ hq (.inl rfl) (.inr rfl) (.inr rfl), rfl⟩
    rw [State.readReg, slotAt_write_same hwf, Reg.bits, Nat.testBit_zero]
    rcases Nat.mod_two_eq_zero_or_one v with h | h <;> simp [h]
  · refine ⟨_, writeSlot_of_lt hi _, ?_, fun q hq =>
      readReg_slot_other hwf i _ hq (.inr rfl) (.inl rfl) (.inr rfl), rfl⟩
    rw [State.readReg, slotAt_write_same hwf, Reg.bits]
  · refine ⟨_, writeSlot_of_lt hi _, ?_, fun q hq =>
      readReg_slot_other hwf i _ hq (.inr rfl) (.inr rfl) (.inl rfl), rfl⟩
    rw [State.readReg, slotAt_write_same hwf, Reg.bits]

/-- Settles O10: a write of a descriptor register, of a field of an entry, and of a byte. -/
theorem hostWritesReadBack : Obligations.HostWritesReadBack := by
  unfold Obligations.HostWritesReadBack
  intro s v rest ⟨hsegmem, hsegtab, _, _⟩
  refine ⟨fun r hp hr => ?_, fun a hp ha => ?_⟩ <;> rw [step_write hp]
  · have hwritten : ∃ t, writeReg r v { s with pending := rest } = .next t ∧
        RegWritten r v { s with pending := rest } t := by
      rcases hr with hnum | ⟨i, hi, hr⟩
      · exact writeReg_desc hnum v _
      · exact writeReg_slot (s := { s with pending := rest }) hsegtab hi hr v
    obtain ⟨t, ht, hsame, hother, hframe⟩ := hwritten
    exact ⟨t, ht, hsame, hother, hframe⟩
  · exact ⟨_, hostWrite_segmem_of_lt (s := { s with pending := rest }) ha v, Memory.read_write_same hsegmem a _,
      fun b hb => Memory.read_write_other hsegmem hb _, rfl⟩

/-! ### `CB.ATTACH` (R152, R153, R216, R246) -/

/-- Right after a completing `CB.ATTACH` a cell of the block reads as one that nothing has written, and any other as
before (R153). -/
theorem attachBlock_read {s : State} (hwf : MemoriesWf s) (a : Nat) :
    Memory.read blankCell (attachBlock s).ctxmap a =
      (if a < s.desc.w.toNat * s.desc.h.toNat then blankCell else Memory.read blankCell s.ctxmap a) ∧
    Memory.read blankCoef (attachBlock s).coef a =
      (if a < s.desc.w.toNat * s.desc.h.toNat then blankCoef else Memory.read blankCoef s.coef a) := by
  obtain ⟨_, _, hctx, hcoef⟩ := hwf
  exact ⟨Memory.read_clearBelow hctx a, Memory.read_clearBelow hcoef a⟩

theorem attachBlock_cells {s : State} (hwf : MemoriesWf s) {x y : Nat} (h : (attachBlock s).InBlock x y) :
    (attachBlock s).ctxAt x y = 0 ∧ (attachBlock s).coefAt x y = { sgn := false, mag := 0 } := by
  have hlt : (attachBlock s).flat x y < s.desc.w.toNat * s.desc.h.toNat := flat_lt h
  obtain ⟨hctx, hcoef⟩ := attachBlock_read hwf ((attachBlock s).flat x y)
  rw [if_pos hlt] at hctx hcoef
  exact ⟨congrArg BitVec.toInt hctx, hcoef⟩

/-- Settles O37: the refusal, and the whole state after a completing attach. -/
theorem cbAttachResult : Obligations.CbAttachResult := by
  unfold Obligations.CbAttachResult
  intro s hwf
  refine ⟨fun hbad => ?_, fun hok => ⟨respond 0 (attachBlock s), ?_, rfl, fun x hx y hy => ?_, fun a ha => ?_⟩⟩
  · exact if_pos (descInvalid_iff.mpr hbad)
  · exact if_neg fun h => hok (descInvalid_iff.mp h)
  · have hin : (attachBlock s).InBlock x y := ⟨hx, hy⟩
    obtain ⟨hctx, hcoef⟩ := attachBlock_cells hwf hin
    have hreadCtx := readCtx_inBlock hin
    have hreadCoef := readCoef_inBlock hin
    rw [hctx] at hreadCtx
    rw [hcoef] at hreadCoef
    exact ⟨hctx, hcoef, hreadCtx, hreadCoef⟩
  · obtain ⟨hctx, hcoef⟩ := attachBlock_read hwf a
    rw [if_neg (Nat.not_lt.mpr ha)] at hctx hcoef
    exact ⟨hctx, hcoef⟩

end Sys2Proof.Machine
end

section
/-! PROOF. O26: bits 31..24 of the code register influence nothing (R22). -/

namespace Sys2Proof.Machine

/-! ### Code registers that agree modulo 2^24 -/

/-- Bits 23..0 agree. -/
abbrev LowEq (c d : Reg32) : Prop := c.extractLsb' 0 24 = d.extractLsb' 0 24

theorem lowEq_iff {c d : Reg32} : LowEq c d ↔ c.toNat % 2 ^ 24 = d.toNat % 2 ^ 24 := by
  rw [LowEq, ← BitVec.toNat_inj, BitVec.extractLsb'_toNat, BitVec.extractLsb'_toNat, Nat.shiftRight_zero,
    Nat.shiftRight_zero]

theorem LowEq.add {c d : Reg32} (h : LowEq c d) (v : Reg32) : LowEq (c + v) (d + v) := by
  rw [lowEq_iff] at *
  simp only [BitVec.toNat_add]
  omega

theorem LowEq.sub {c d : Reg32} (h : LowEq c d) (v : Reg32) : LowEq (c - v) (d - v) := by
  rw [lowEq_iff] at *
  simp only [BitVec.toNat_sub]
  omega

theorem LowEq.shiftLeft_one {c d : Reg32} (h : LowEq c d) : LowEq (c <<< 1) (d <<< 1) := by
  rw [lowEq_iff] at *
  simp only [BitVec.toNat_shiftLeft, Nat.shiftLeft_eq]
  omega

/-- The active slice lies below bit 24 (R22). -/
theorem LowEq.activeSlice {c d : Reg32} (h : LowEq c d) : activeSlice c = activeSlice d := by
  rw [lowEq_iff] at h
  apply BitVec.eq_of_toNat_eq
  simp only [Machine.activeSlice, BitVec.extractLsb'_toNat, Nat.shiftRight_eq_div_pow]
  omega

/-! ### Registers of MQD that differ in bits 31..24 of `C` only -/

/-- `x` is `y` but for bits 31..24 of `C`. -/
def SameLow (x y : Mqd) : Prop := ∃ c, LowEq c y.c ∧ x = { y with c := c }

variable {mem : Memory Byte} {x y : Mqd}

theorem SameLow.fillLSB (h : SameLow x y) : SameLow (fillLSB mem x) (fillLSB mem y) := by
  obtain ⟨c, hc, rfl⟩ := h
  unfold Machine.fillLSB fillPad fillByte
  dsimp only
  split_ifs
  all_goals exact ⟨_, hc.add _, rfl⟩

theorem SameLow.renormOnce (h : SameLow x y) : SameLow (renormOnce mem x) (renormOnce mem y) := by
  have hshift : ∀ {u v : Mqd}, SameLow u v →
      SameLow { u with a := u.a <<< 1, c := u.c <<< 1, t := u.t - 1 }
        { v with a := v.a <<< 1, c := v.c <<< 1, t := v.t - 1 } := by
    rintro _ v ⟨c, hc, rfl⟩
    exact ⟨_, hc.shiftLeft_one, rfl⟩
  have ht : x.t = y.t := by
    obtain ⟨c, _, rfl⟩ := h
    rfl
  unfold Machine.renormOnce
  rw [ht]
  split_ifs
  · exact hshift h.fillLSB
  · exact hshift h

theorem SameLow.renormLoop (n : Nat) :
    ∀ {x y : Mqd}, SameLow x y → SameLow (renormLoop mem n x) (renormLoop mem n y) := by
  induction n with
  | zero => exact fun h => h
  | succ n ih =>
    intro x y h
    have ha : x.a = y.a := by
      obtain ⟨c, _, rfl⟩ := h
      rfl
    rw [Machine.renormLoop, Machine.renormLoop, ha]
    split_ifs
    · exact h
    · exact ih h.renormOnce

theorem SameLow.renorm (h : SameLow x y) : SameLow (renorm mem x) (renorm mem y) :=
  h.renormOnce.renormLoop 14

theorem sameLow_mk {m : Mqd} {c d : Reg32} (h : LowEq c d) (a : Reg32) (ctx : Vector CtxEntry 19) :
    SameLow { m with a := a, c := c, ctx := ctx } { m with a := a, c := d, ctx := ctx } :=
  ⟨c, h, rfl⟩

/-- A decode gives the same bit, and registers that agree but for bits 31..24 of `C` (R22, R107). -/
theorem mqDecode_sameLow (mem : Memory Byte) (cx : Fin 19) (m : Mqd) {c : Reg32} (h : LowEq c m.c) :
    (mqDecode mem cx { m with c := c }).1 = (mqDecode mem cx m).1 ∧
    SameLow (mqDecode mem cx { m with c := c }).2 (mqDecode mem cx m).2 := by
  unfold mqDecode
  dsimp only
  rw [h.activeSlice]
  split_ifs
  · exact ⟨rfl, (sameLow_mk h _ _).renorm⟩
  · exact ⟨rfl, (sameLow_mk h _ _).renorm⟩
  · exact ⟨rfl, (sameLow_mk (h.sub _) _ _).renorm⟩
  · exact ⟨rfl, (sameLow_mk (h.sub _) _ _).renorm⟩
  · exact ⟨rfl, sameLow_mk (h.sub _) _ _⟩

/-- Settles O26: a decode keeps the agreement of the registers. -/
theorem codeRegisterHighBitsUnused : Obligations.CodeRegisterHighBitsUnused := by
  unfold Obligations.CodeRegisterHighBitsUnused
  intro mem cx m c h
  obtain ⟨hbit, d, hlow, hregs⟩ := mqDecode_sameLow mem cx m h
  rw [hregs]
  exact ⟨hbit, rfl, hlow⟩

end Sys2Proof.Machine
end

section
/-! PROOF. The induction over a pass by what happens to a cell: a decode, a coefficient that becomes significant, a cell
negated, a coefficient refined (R170 to R173). -/

namespace Sys2Proof.Machine

/-! ### The values of a cell -/

/-- A cell has 6 bits (R36). -/
theorem ctxAt_range (s : State) (x y : Nat) : -32 ≤ s.ctxAt x y ∧ s.ctxAt x y ≤ 31 := by
  have hlo := BitVec.le_toInt (x := Memory.read blankCell s.ctxmap (s.flat x y))
  have hhi := BitVec.toInt_lt (x := Memory.read blankCell s.ctxmap (s.flat x y))
  unfold State.ctxAt
  omega

theorem significant_iff {c : Int} : significant c = true ↔ 15 ≤ c.natAbs := decide_eq_true_iff

/-- The tables stay within 8 (R191). -/
theorem nextMag_le (g : Group) (k : DirClass) : ∀ m : Nat, m ≤ 8 → nextMag g k m ≤ 8 := by
  have h : ∀ m : Fin 9, nextMag g k m ≤ 8 := by cases g <;> cases k <;> decide
  exact fun m hm => h ⟨m, by omega⟩

/-- What the update of a neighbour can write: a promotion, a label, or the value it had (R177, R178). -/
theorem updatedCell_cases (g : Group) (c : Int) (d : Dir) (y : Nat) (o : Origin) :
    (c.natAbs = 15 ∧ (updatedCell g c d y o).natAbs = 16) ∨ (c.natAbs ≤ 8 ∧ (updatedCell g c d y o).natAbs ≤ 8) ∨
    updatedCell g c d y o = c := by
  unfold updatedCell
  split_ifs with h15 hpos h8 hneg
  · exact .inl ⟨h15, rfl⟩
  · exact .inl ⟨h15, rfl⟩
  · have := nextMag_le g d.cls _ h8
    exact .inr (.inl ⟨h8, by omega⟩)
  · have := nextMag_le g d.cls _ h8
    exact .inr (.inl ⟨h8, by omega⟩)
  · exact .inr (.inr rfl)

theorem significant_updatedCell (g : Group) (c : Int) (d : Dir) (y : Nat) (o : Origin) :
    significant (updatedCell g c d y o) = significant c := by
  rw [Bool.eq_iff_iff, significant_iff, significant_iff]
  rcases updatedCell_cases g c d y o with ⟨h, h'⟩ | ⟨h, h'⟩ | h
  · omega
  · omega
  · rw [h]

theorem updatedCell_range {c : Int} (hc : -32 ≤ c ∧ c ≤ 31) (g : Group) (d : Dir) (y : Nat) (o : Origin) :
    -32 ≤ updatedCell g c d y o ∧ updatedCell g c d y o ≤ 31 := by
  rcases updatedCell_cases g c d y o with ⟨_, h⟩ | ⟨_, h⟩ | h <;> omega

theorem legalCell_updatedCell {c : Int} (hc : LegalCell c) (g : Group) (d : Dir) (y : Nat) (o : Origin) :
    LegalCell (updatedCell g c d y o) := by
  rcases updatedCell_cases g c d y o with ⟨_, h⟩ | ⟨_, h⟩ | h
  · rcases Int.natAbs_eq (updatedCell g c d y o) with h' | h' <;> rw [h'] <;> unfold LegalCell <;> omega
  · exact .inl (by omega)
  · rwa [h]

theorem ownCell_mem (any : Bool) (o : Origin) : ownCell any o ∈ ([15, 16, -15, -16] : List Int) := by
  cases any <;> cases o <;> decide

/-! ### A coefficient that becomes significant (R173, R176, R178) -/

/-- What `t` shows of `s` once the coefficient `(x, y)` has become significant. -/
structure Signified (x y : Nat) (s t : State) : Prop where
  lat : t.lat = s.lat
  /-- The cells keep their enumerated values. -/
  legal : LegalBlock s → LegalBlock t
  /-- `(x, y)` is significant. -/
  own : significant (t.ctxAt x y) = true
  /-- No other coefficient becomes significant or ceases to be. -/
  other : ∀ u v, s.InBlock u v → ¬(u = x ∧ v = y) → significant (t.ctxAt u v) = significant (s.ctxAt u v)
  /-- No other coefficient changes. -/
  coef : ∀ u v, s.InBlock u v → ¬(u = x ∧ v = y) → t.coefAt u v = s.coefAt u v

section Cells

variable {s : State} (hwf : Memory.wf blankCell s.ctxmap = true) {x y : Nat} (hb : s.InBlock x y)
include hwf hb

/-- A cell after a write of one cell of the block (R65). -/
theorem ctxAt_setCtx {c : Int} (hc : -32 ≤ c ∧ c ≤ 31) {u v : Nat} (hu : s.InBlock u v) :
    (s.setCtx x y c).ctxAt u v = if u = x ∧ v = y then c else s.ctxAt u v := by
  split_ifs with h
  · obtain ⟨rfl, rfl⟩ := h
    exact ctxAt_setCtx_same hwf u v hc
  · exact ctxAt_setCtx_other hwf hb.1 hu.1 h c

theorem legalBlock_setCtx {c : Int} (hc : LegalCell c) (h : LegalBlock s) : LegalBlock (s.setCtx x y c) := by
  intro u hu v hv
  rw [ctxAt_setCtx hwf hb (by unfold LegalCell at hc; omega) ⟨hu, hv⟩]
  split_ifs
  · exact hc
  · exact h u hu v hv

/-- A write that keeps the significance of its cell keeps that of every cell. -/
theorem significant_setCtx {c : Int} (hc : -32 ≤ c ∧ c ≤ 31) (hsig : significant c = significant (s.ctxAt x y))
    {u v : Nat} (hu : s.InBlock u v) : significant ((s.setCtx x y c).ctxAt u v) = significant (s.ctxAt u v) := by
  rw [ctxAt_setCtx hwf hb hc hu]
  split_ifs with h
  · obtain ⟨rfl, rfl⟩ := h
    exact hsig
  · rfl

end Cells

/-- What the eight iterations of `NeighborUpdate` keep of the state `s` before them (R178). -/
structure NeighboursUpdated (s t : State) : Prop where
  wf : Memory.wf blankCell t.ctxmap = true
  lat : t.lat = s.lat
  coef : t.coef = s.coef
  legal : LegalBlock s → LegalBlock t
  sig : ∀ u v, s.InBlock u v → significant (t.ctxAt u v) = significant (s.ctxAt u v)

theorem updateNeighbour_updated {x y : Nat} {o : Origin} {s t : State} (d : Dir) (h : NeighboursUpdated s t) :
    NeighboursUpdated s (updateNeighbour x y o t d) := by
  unfold updateNeighbour
  split
  · rename_i nx ny hn
    have hb := neighbour_inBlock hn
    have hrange := updatedCell_range (ctxAt_range t nx ny) (groupOf t.lat.sb) d y o
    refine ⟨Memory.wf_write h.wf _ _, h.lat, h.coef, fun hl => ?_, fun u v hu => ?_⟩
    · have hlegal := h.legal hl
      exact legalBlock_setCtx h.wf hb (legalCell_updatedCell (hlegal nx hb.1 ny hb.2) _ d y o) hlegal
    · rw [significant_setCtx h.wf hb hrange (significant_updatedCell _ _ d y o) (inBlock_of_lat h.lat hu)]
      exact h.sig u v hu
  · exact h

theorem neighborUpdate_signified {x y : Nat} {s : State} (o : Origin)
    (hwf : Memory.wf blankCell s.ctxmap = true) (hb : s.InBlock x y) : Signified x y s (neighborUpdate x y o s) := by
  unfold neighborUpdate
  have hown := ownCell_mem (s.anySignificant x y) o
  generalize ownCell (s.anySignificant x y) o = c at hown ⊢
  have hcell : LegalCell c ∧ significant c = true ∧ -32 ≤ c ∧ c ≤ 31 := by
    simp only [List.mem_cons, List.not_mem_nil, or_false] at hown
    rcases hown with rfl | rfl | rfl | rfl <;> decide
  obtain ⟨hlegal, hsig, hrange⟩ := hcell
  have hall : NeighboursUpdated (s.setCtx x y c) (allDirs.foldl (updateNeighbour x y o) (s.setCtx x y c)) :=
    foldl_keeps (fun t d _ h => updateNeighbour_updated d h) _
      ⟨Memory.wf_write hwf _ _, rfl, rfl, fun h => h, fun _ _ _ => rfl⟩
  refine ⟨hall.lat, fun h => hall.legal (legalBlock_setCtx hwf hb hlegal h), ?_, fun u v hu hne => ?_,
    fun u v _ _ => ?_⟩
  · rw [hall.sig x y hb, ctxAt_setCtx_same hwf x y hrange]
    exact hsig
  · rw [hall.sig u v hu, ctxAt_setCtx_other hwf hb.1 hu.1 hne]
  · unfold State.coefAt State.flat State.width
    rw [hall.coef, hall.lat]
    rfl

@[simp] theorem signDecode_ctxmap (x y : Nat) (s : State) : (signDecode x y s).ctxmap = s.ctxmap := by
  unfold signDecode
  dsimp only
  split_ifs <;> rfl

theorem ctxAt_congr {s t : State} (hlat : t.lat = s.lat) (hctx : t.ctxmap = s.ctxmap) : t.ctxAt = s.ctxAt := by
  funext x y
  unfold State.ctxAt State.flat State.width
  rw [hlat, hctx]

theorem legalBlock_congr {s t : State} (hlat : t.lat = s.lat) (hctx : t.ctxmap = s.ctxmap) :
    LegalBlock t ↔ LegalBlock s := by
  unfold LegalBlock State.width State.height
  rw [hlat, ctxAt_congr hlat hctx]

/-- Sign decoding writes one coefficient (R174). -/
theorem signDecode_coefAt_other {x y u v : Nat} {s : State} (hwf : Memory.wf blankCoef s.coef = true)
    (hb : s.InBlock x y) (hu : s.InBlock u v) (hne : ¬(u = x ∧ v = y)) :
    (signDecode x y s).coefAt u v = s.coefAt u v := by
  unfold signDecode
  dsimp only
  split_ifs
  · exact coefAt_setCoef_other (s := (decodeBit _ s).2) hwf hb.1 hu.1 hne _
  · rfl

theorem signify_signified {x y : Nat} {s : State} (b : Nat) (o : Origin) (hwf : MemoriesWf s) (hb : s.InBlock x y) :
    Signified x y s (signify x y b o s) := by
  obtain ⟨_, _, hctx, hcoef⟩ := hwf
  unfold signify
  have hnew : Memory.wf blankCoef (s.setCoef x y { s.coefAt x y with mag := planeMask b ||| halfMask b }).coef = true :=
    Memory.wf_write hcoef _ _
  generalize hs1 : s.setCoef x y { s.coefAt x y with mag := planeMask b ||| halfMask b } = s1 at *
  have hmap1 : s1.ctxmap = s.ctxmap := by rw [← hs1]; rfl
  have hlat1 : s1.lat = s.lat := by rw [← hs1]; rfl
  have hlat : (signDecode x y s1).lat = s.lat := (signDecode_lat x y s1).trans hlat1
  have hmap : (signDecode x y s1).ctxmap = s.ctxmap := (signDecode_ctxmap x y s1).trans hmap1
  have hupd := neighborUpdate_signified o (s := signDecode x y s1) (hmap ▸ hctx) (inBlock_of_lat hlat hb)
  refine ⟨hupd.lat.trans hlat, fun h => hupd.legal ((legalBlock_congr hlat hmap).mpr h), hupd.own,
    fun u v hu hne => ?_, fun u v hu hne => ?_⟩
  · rw [hupd.other u v (inBlock_of_lat hlat hu) hne, ctxAt_congr hlat hmap]
  · rw [hupd.coef u v (inBlock_of_lat hlat hu) hne,
      signDecode_coefAt_other hnew (inBlock_of_lat hlat1 hb) (inBlock_of_lat hlat1 hu) hne, ← hs1,
      coefAt_setCoef_other hcoef hb.1 hu.1 hne]

/-! ### The induction over the cells of a pass -/

/-- The events of a pass of kind `k` on bit-plane `b` keep `P`. The cell that becomes significant was not, a negated
cell is not positive, and only `MRP` refines, and only positive significant coefficients (R170 to R172). -/
structure CellKeeps (k : PassKind) (b : Nat) (P : State → Prop) : Prop where
  wf : ∀ s, P s → Memory.wf blankCell s.ctxmap = true
  dec : ∀ n s, P s → P (decodeBit n s).2
  signify : ∀ s x y o, s.InBlock x y → (s.ctxAt x y).natAbs ≤ 8 → P s → P (signify x y b o s)
  negate : ∀ s x y, s.InBlock x y → s.ctxAt x y ≤ 0 → P s → P (s.setCtx x y (-s.ctxAt x y))
  refine : k = .mrp → ∀ s x y bit, s.InBlock x y → 15 ≤ s.ctxAt x y → P s →
    P ((s.setCoef x y { s.coefAt x y with mag := refinedMag (s.coefAt x y).mag b bit }).setCtx x y 17)

section CellInduction

variable {k : PassKind} {b : Nat} {P : State → Prop}

theorem signify_lat (x y b : Nat) (o : Origin) {s : State} (hb : s.InBlock x y) : (signify x y b o s).lat = s.lat :=
  (passKeeps_lat b s.lat).signify o hb rfl

theorem CellKeeps.withBlock (h : CellKeeps k b P) (l : Latched) : CellKeeps k b fun s => P s ∧ s.lat = l where
  wf s hs := h.wf s hs.1
  dec n s hs := ⟨h.dec n s hs.1, hs.2⟩
  signify s x y o hb hc hs := ⟨h.signify s x y o hb hc hs.1, (signify_lat x y b o hb).trans hs.2⟩
  negate s x y hb hc hs := ⟨h.negate s x y hb hc hs.1, hs.2⟩
  refine hk s x y bit hb hc hs := ⟨h.refine hk s x y bit hb hc hs.1, hs.2⟩

theorem CellKeeps.sppCell (h : CellKeeps k b P) {p : Nat × Nat} {s : State} (hb : s.InBlock p.1 p.2) (hs : P s) :
    P (sppCell b s p) := by
  unfold Machine.sppCell
  dsimp only
  split_ifs with hc
  · exact h.signify (decodeBit _ s).2 p.1 p.2 .prop hb (by rw [decodeBit_ctxAt]; omega) (h.dec _ s hs)
  · exact h.dec _ s hs
  · exact hs

theorem CellKeeps.mrpCell (h : CellKeeps .mrp b P) {p : Nat × Nat} {s : State} (hb : s.InBlock p.1 p.2) (hs : P s) :
    P (mrpCell b s p) := by
  unfold Machine.mrpCell
  dsimp only
  split_ifs with hsig hpos
  · refine h.refine rfl (decodeBit _ s).2 p.1 p.2 _ hb ?_ (h.dec _ s hs)
    rw [decodeBit_ctxAt]
    have := significant_iff.mp hsig
    omega
  · exact h.negate s p.1 p.2 hb (Int.not_lt.mp hpos) hs
  · exact hs

theorem CellKeeps.cupCell (h : CellKeeps k b P) {p : Nat × Nat} {s : State} (hb : s.InBlock p.1 p.2) (hs : P s) :
    P (cupCell b s p) := by
  unfold Machine.cupCell
  dsimp only
  split_ifs with hc
  · refine h.signify (decodeBit _ _).2 p.1 p.2 .cleanup hb ?_ (h.dec _ _ (h.negate s p.1 p.2 hb hc.2 hs))
    rw [decodeBit_ctxAt, ctxAt_setCtx_same (h.wf s hs) _ _ (by omega)]
    omega
  · exact h.dec _ _ (h.negate s p.1 p.2 hb hc.2 hs)
  · exact hs

theorem CellKeeps.cells (h : CellKeeps k b P) {s : State} {l : List (Nat × Nat)} (hl : ∀ p ∈ l, s.InBlock p.1 p.2)
    (hs : P s) : P (l.foldl (Machine.cupCell b) s) :=
  (foldl_keeps (P := fun t => P t ∧ t.lat = s.lat)
    (fun _ p hp ht => (h.withBlock s.lat).cupCell (inBlock_of_lat ht.2 (hl p hp)) ht) s ⟨hs, rfl⟩).1

theorem column_inBlock {col : Column} {s : State} (hcol : col.x < s.width ∧ col.top + col.rows ≤ s.height)
    {p : Nat × Nat} (hp : p ∈ col.cells) : s.InBlock p.1 p.2 := by
  have hp' := mem_cells hp
  constructor <;> omega

/-- Where the run-length shortcut applies, the column has four rows, all of context 0 (R172). -/
theorem runLength_iff {s : State} {col : Column} :
    s.runLength col = true ↔ col.rows = 4 ∧ ∀ p ∈ col.cells, s.ctxAt p.1 p.2 = 0 := by
  simp [State.runLength]

/-- The row that the run finds is one of the column (R172). -/
theorem runRow_mem_cells {col : Column} (h4 : col.rows = 4) (hi lo : Bool) :
    (col.x, col.top + (2 * hi.toNat + lo.toNat)) ∈ col.cells := by
  have := Bool.toNat_le hi
  have := Bool.toNat_le lo
  exact List.mem_map.mpr ⟨_, List.mem_range'_1.mpr ⟨by omega, by omega⟩, rfl⟩

theorem CellKeeps.runTail (h : CellKeeps k b P) {col : Column} {s : State} {j : Nat}
    (hcol : col.x < s.width ∧ col.top + col.rows ≤ s.height) (hrow : (col.x, col.top + j) ∈ col.cells)
    (hctx : (s.ctxAt col.x (col.top + j)).natAbs ≤ 8) (hs : P s) :
    P ((col.cells.drop (j + 1)).foldl (Machine.cupCell b) (Machine.signify col.x (col.top + j) b .cleanup s)) := by
  have hb : s.InBlock col.x (col.top + j) := column_inBlock hcol hrow
  refine h.cells (fun p hp => ?_) (h.signify s _ _ .cleanup hb hctx hs)
  exact inBlock_of_lat (signify_lat _ _ b .cleanup hb) (column_inBlock hcol (List.mem_of_mem_drop hp))

theorem CellKeeps.cupRun (h : CellKeeps k b P) {col : Column} {s : State}
    (hcol : col.x < s.width ∧ col.top + col.rows ≤ s.height) (hrun : s.runLength col = true) (hs : P s) :
    P (cupRun b s col) := by
  obtain ⟨h4, hzero⟩ := runLength_iff.mp hrun
  have hdec : ∀ t : State, P t ∧ t.lat = s.lat ∧ t.ctxmap = s.ctxmap →
      P (decodeBit 18 t).2 ∧ (decodeBit 18 t).2.lat = s.lat ∧ (decodeBit 18 t).2.ctxmap = s.ctxmap :=
    fun t ⟨ht, hlat, hctx⟩ => ⟨h.dec 18 t ht, hlat, hctx⟩
  have h1 := hdec s ⟨hs, rfl, rfl⟩
  unfold Machine.cupRun
  generalize decodeBit 18 s = r1 at h1 ⊢
  have h0 := hdec r1.2 h1
  dsimp only
  generalize decodeBit 18 r1.2 = r0 at h0 ⊢
  obtain ⟨hs0, hlat, hctx⟩ := h0
  have hrow := runRow_mem_cells h4 r1.1 r0.1
  refine h.runTail ?_ hrow ?_ hs0
  · unfold State.width State.height at *
    rw [hlat]
    exact hcol
  · rw [ctxAt_congr hlat hctx, hzero _ hrow]
    decide

theorem CellKeeps.cupColumn (h : CellKeeps k b P) {col : Column} {s : State}
    (hcol : col.x < s.width ∧ col.top + col.rows ≤ s.height) (hs : P s) : P (cupColumn b s col) := by
  unfold Machine.cupColumn
  split_ifs with hrun
  · dsimp only
    split_ifs
    · exact h.cupRun (s := (decodeBit 9 s).2) hcol hrun (h.dec _ s hs)
    · exact h.dec _ s hs
  · exact h.cells (fun p hp => column_inBlock hcol hp) hs

/-- THE INDUCTION OVER THE CELLS OF A PASS. -/
theorem CellKeeps.runPass (h : CellKeeps k b P) {s : State} (hs : P s) : P (runPass k b s) := by
  cases k with
  | spp =>
    exact (foldl_keeps (P := fun t => P t ∧ t.lat = s.lat)
      (fun _ _ hp ht => (h.withBlock s.lat).sppCell (inBlock_of_lat ht.2 (mem_scan hp)) ht) s ⟨hs, rfl⟩).1
  | mrp =>
    exact (foldl_keeps (P := fun t => P t ∧ t.lat = s.lat)
      (fun _ _ hp ht => (h.withBlock s.lat).mrpCell (inBlock_of_lat ht.2 (mem_scan hp)) ht) s ⟨hs, rfl⟩).1
  | cup =>
    refine (foldl_keeps (P := fun t => P t ∧ t.lat = s.lat) (fun t col hc ht => ?_) s ⟨hs, rfl⟩).1
    obtain ⟨hx, hrows, _⟩ := mem_scanColumns hc
    refine (h.withBlock s.lat).cupColumn ?_ ht
    unfold State.width State.height at *
    rw [ht.2]
    exact ⟨hx, hrows⟩

end CellInduction

end Sys2Proof.Machine
end

section
/-! PROOF. O43, O44 and O55: the cells and the coefficients of the attached block (R36, R37, R38). -/

namespace Sys2Proof.Machine

/-! ### The canonical form of the memories -/

theorem memoriesWf_ctxmap {s : State} (h : MemoriesWf s) : Memory.wf blankCell s.ctxmap = true := by
  obtain ⟨_, _, hctx, _⟩ := h
  exact hctx

theorem memoriesWf_coef {s : State} (h : MemoriesWf s) : Memory.wf blankCoef s.coef = true := by
  obtain ⟨_, _, _, hcoef⟩ := h
  exact hcoef

theorem memoriesWf_setCtx {s : State} (h : MemoriesWf s) (x y : Nat) (v : Int) : MemoriesWf (s.setCtx x y v) := by
  obtain ⟨hsegmem, hsegtab, hctx, hcoef⟩ := h
  exact ⟨hsegmem, hsegtab, Memory.wf_write hctx _ _, hcoef⟩

theorem memoriesWf_setCoef {s : State} (h : MemoriesWf s) (x y : Nat) (c : Coef) : MemoriesWf (s.setCoef x y c) := by
  obtain ⟨hsegmem, hsegtab, hctx, hcoef⟩ := h
  exact ⟨hsegmem, hsegtab, hctx, Memory.wf_write hcoef _ _⟩

theorem passKeeps_memoriesWf (b : Nat) : PassKeeps b MemoriesWf where
  dec _ _ h := h
  ctx _ x y v _ h := memoriesWf_setCtx h x y v
  sgn _ x y _ _ h := memoriesWf_setCoef h x y _
  new _ x y _ h := memoriesWf_setCoef h x y _
  refine _ x y _ _ h := memoriesWf_setCoef h x y _

theorem attachBlock_memoriesWf {s : State} (h : MemoriesWf s) : MemoriesWf (attachBlock s) := by
  obtain ⟨hsegmem, hsegtab, hctx, hcoef⟩ := h
  exact ⟨hsegmem, hsegtab, Memory.wf_clearBelow hctx _, Memory.wf_clearBelow hcoef _⟩

theorem hardwareReset_not_attached (s : State) : ¬ (hardwareReset s).Attached := by
  rintro (h | h) <;> cases h

/-- The refined coefficient is marked 17, a significant value, and is the only one that changes (R171). -/
theorem refine_signified {x y : Nat} {s : State} (hwf : MemoriesWf s) (hb : s.InBlock x y) (c : Coef) :
    Signified x y s ((s.setCoef x y c).setCtx x y 17) := by
  have hctx : Memory.wf blankCell (s.setCoef x y c).ctxmap = true := memoriesWf_ctxmap (s := s) hwf
  refine ⟨rfl, fun h => legalBlock_setCtx hctx hb (by decide) h, ?_, fun u v hu hne => ?_, fun u v hu hne => ?_⟩
  · rw [ctxAt_setCtx_same hctx x y (by decide)]
    decide
  · rw [ctxAt_setCtx_other hctx hb.1 hu.1 hne, setCoef_ctxAt]
  · rw [setCtx_coefAt, coefAt_setCoef_other (memoriesWf_coef hwf) hb.1 hu.1 hne]

theorem legalCell_range {c : Int} (h : LegalCell c) : -16 ≤ c ∧ c ≤ 17 := by
  unfold LegalCell at h
  omega

/-- A negated cell is as significant as before. -/
theorem significant_negate {x y : Nat} {s : State} (hwf : MemoriesWf s) (hl : LegalBlock s) (hb : s.InBlock x y)
    {u v : Nat} (hu : s.InBlock u v) :
    significant ((s.setCtx x y (-s.ctxAt x y)).ctxAt u v) = significant (s.ctxAt u v) := by
  have hrange := legalCell_range (hl x hb.1 y hb.2)
  refine significant_setCtx (memoriesWf_ctxmap hwf) hb (by omega) ?_ hu
  unfold significant
  rw [Int.natAbs_neg]

/-! ### The events of a pass keep the legal values (R37) -/

/-- The memories are in canonical form and every cell of the block holds a legal value. -/
abbrev LegalWf (s : State) : Prop := MemoriesWf s ∧ LegalBlock s

theorem signify_legalWf {x y b : Nat} {o : Origin} {s : State} (hb : s.InBlock x y) (h : LegalWf s) :
    LegalWf (signify x y b o s) :=
  ⟨(passKeeps_memoriesWf b).signify o hb h.1, (signify_signified b o h.1 hb).legal h.2⟩

theorem negate_legalWf {x y : Nat} {s : State} (hb : s.InBlock x y) (hc : s.ctxAt x y ≤ 0) (h : LegalWf s) :
    LegalWf (s.setCtx x y (-s.ctxAt x y)) := by
  refine ⟨memoriesWf_setCtx h.1 x y _, legalBlock_setCtx (memoriesWf_ctxmap h.1) hb ?_ h.2⟩
  have hcell := h.2 x hb.1 y hb.2
  unfold LegalCell at *
  omega

theorem refine_legalWf {x y : Nat} {s : State} (hb : s.InBlock x y) (c : Coef) (h : LegalWf s) :
    LegalWf ((s.setCoef x y c).setCtx x y 17) :=
  ⟨memoriesWf_setCtx (memoriesWf_setCoef h.1 x y c) x y 17, (refine_signified h.1 hb c).legal h.2⟩

theorem cellKeeps_legalWf (k : PassKind) (b : Nat) : CellKeeps k b LegalWf where
  wf _ h := memoriesWf_ctxmap h.1
  dec _ _ h := h
  signify _ _ _ _ hb _ h := signify_legalWf hb h
  negate _ _ _ hb hc h := negate_legalWf hb hc h
  refine _ _ _ _ _ hb _ h := refine_legalWf hb _ h

/-! ### The events of a pass keep the coefficients that are not significant at 0 (R38) -/

/-- A coefficient of the latched block that is not significant has `MAG = 0` and `SGN = 0`. -/
abbrev CoefBlock (s : State) : Prop :=
  ∀ x, x < s.width → ∀ y, y < s.height → significant (s.ctxAt x y) = false → s.coefAt x y = { sgn := false, mag := 0 }

theorem coefBlock_of_signified {x y : Nat} {s t : State} (h : Signified x y s t) (hc : CoefBlock s) : CoefBlock t := by
  intro u hu v hv hsig
  have huv : s.InBlock u v := inBlock_of_lat h.lat.symm ⟨hu, hv⟩
  by_cases hxy : u = x ∧ v = y
  · obtain ⟨rfl, rfl⟩ := hxy
    rw [h.own] at hsig
    cases hsig
  · rw [h.coef u v huv hxy]
    rw [h.other u v huv hxy] at hsig
    exact hc u huv.1 v huv.2 hsig

theorem cellKeeps_coefBlock (k : PassKind) (b : Nat) : CellKeeps k b fun s => LegalWf s ∧ CoefBlock s where
  wf _ h := memoriesWf_ctxmap h.1.1
  dec _ _ h := h
  signify _ _ _ o hb _ h := ⟨signify_legalWf hb h.1, coefBlock_of_signified (signify_signified b o h.1.1 hb) h.2⟩
  negate s x y hb hc h := by
    refine ⟨negate_legalWf hb hc h.1, fun u hu v hv hsig => ?_⟩
    rw [significant_negate h.1.1 h.1.2 hb ⟨hu, hv⟩] at hsig
    exact h.2 u hu v hv hsig
  refine _ _ _ _ _ hb _ h := ⟨refine_legalWf hb _ h.1, coefBlock_of_signified (refine_signified h.1.1 hb _) h.2⟩

/-! ### Every step keeps what every pass keeps of the block -/

/-- `Q` speaks of the latched descriptor and the cells only, holds of a block just attached, and every pass keeps it. -/
structure BlockInvariant (Q : State → Prop) : Prop where
  congr : ∀ s t : State, t.lat = s.lat → t.ctxmap = s.ctxmap → t.coef = s.coef → Q s → Q t
  attach : ∀ s, MemoriesWf s → Q (attachBlock s)
  pass : ∀ k b s, MemoriesWf s → Q s → Q (runPass k b s)

section BlockSteps

variable {Q : State → Prop}

theorem BlockInvariant.stepBody (h : BlockInvariant Q) {s : State} (hwf : MemoriesWf s) (hs : Q s) :
    MemoriesWf (stepBody s) ∧ Q (stepBody s) := by
  rcases stepBody_cases s with ⟨_, hbody⟩ | ⟨_, hbody⟩ <;> rw [hbody]
  · exact ⟨hwf, h.congr s (advance s) rfl rfl rfl hs⟩
  · have hattach : Q (attachPass s.passIdx.toNat s) := h.congr s _ rfl rfl rfl hs
    have hpass : Q (execPass s) := h.pass _ _ _ hwf hattach
    have hwf' : MemoriesWf (execPass s) :=
      runPass_keeps (passKeeps_memoriesWf _) _ (s := attachPass s.passIdx.toNat s) hwf
    exact ⟨hwf', h.congr (execPass s) (advance (execPass s)) rfl rfl rfl hpass⟩

theorem BlockInvariant.bodyKeeps (h : BlockInvariant Q) : BodyKeeps fun s => MemoriesWf s ∧ (s.Attached → Q s) := by
  intro s hact _ _ ⟨hwf, hs⟩
  obtain ⟨hwf', hs'⟩ := h.stepBody hwf (hs (.inl hact))
  exact ⟨hwf', fun _ => hs'⟩

theorem BlockInvariant.effect (h : BlockInvariant Q) {i : Instr} {s : State} {data : BitVec 2}
    (hv : verdict i s = .completes data) (hs : MemoriesWf s ∧ (s.Attached → Q s)) :
    MemoriesWf (effect i s) ∧ ((effect i s).Attached → Q (effect i s)) := by
  cases i
  case cbAttach => exact ⟨attachBlock_memoriesWf hs.1, fun _ => h.attach s hs.1⟩
  case cbStep => exact h.bodyKeeps.cbStep hv hs
  case cbRun => exact h.bodyKeeps.cbRun hv hs
  all_goals exact ⟨hs.1, fun ha => h.congr s _ rfl rfl rfl (hs.2 ha)⟩

theorem BlockInvariant.stepKeeps (h : BlockInvariant Q) :
    StepKeeps fun s => MemoriesWf s ∧ (s.Attached → Q s) where
  record s _ _ _ hs := ⟨hs.1, fun ha => h.congr s _ rfl rfl rfl (hs.2 ha)⟩
  reset s := ⟨⟨rfl, rfl, rfl, rfl⟩, fun ha => absurd ha (hardwareReset_not_attached s)⟩
  desc s _ hs := ⟨hs.1, fun ha => h.congr s _ rfl rfl rfl (hs.2 ha)⟩
  slot s _ _ _ _ hs := by
    obtain ⟨⟨hsegmem, hsegtab, hcells⟩, hq⟩ := hs
    exact ⟨⟨hsegmem, Memory.wf_write hsegtab _ _, hcells⟩, fun ha => h.congr s _ rfl rfl rfl (hq ha)⟩
  byte s _ _ _ hs := by
    obtain ⟨⟨hsegmem, hrest⟩, hq⟩ := hs
    exact ⟨⟨Memory.wf_write hsegmem _ _, hrest⟩, fun ha => h.congr s _ rfl rfl rfl (hq ha)⟩
  invalid s hs := ⟨hs.1, by rintro (ha | ha) <;> cases ha⟩
  effect _ _ _ hv hs := h.effect hv hs

end BlockSteps

theorem legalBlock_invariant : BlockInvariant LegalBlock where
  congr _ _ hlat hctx _ h := (legalBlock_congr hlat hctx).mpr h
  attach s hwf x hx y hy := by
    rw [(attachBlock_cells hwf ⟨hx, hy⟩).1]
    decide
  pass k b _ hwf h := ((cellKeeps_legalWf k b).runPass ⟨hwf, h⟩).2

theorem coefAt_congr {s t : State} (hlat : t.lat = s.lat) (hcoef : t.coef = s.coef) : t.coefAt = s.coefAt := by
  funext x y
  unfold State.coefAt State.flat State.width
  rw [hlat, hcoef]

theorem coefBlock_congr {s t : State} (hlat : t.lat = s.lat) (hctx : t.ctxmap = s.ctxmap) (hcoef : t.coef = s.coef) :
    CoefBlock t ↔ CoefBlock s := by
  unfold CoefBlock State.width State.height
  rw [hlat, ctxAt_congr hlat hctx, coefAt_congr hlat hcoef]

theorem coefBlock_invariant : BlockInvariant fun s => LegalBlock s ∧ CoefBlock s where
  congr _ _ hlat hctx hcoef h := ⟨(legalBlock_congr hlat hctx).mpr h.1, (coefBlock_congr hlat hctx hcoef).mpr h.2⟩
  attach s hwf := ⟨legalBlock_invariant.attach s hwf, fun _ hx _ hy _ => (attachBlock_cells hwf ⟨hx, hy⟩).2⟩
  pass k b _ hwf h := by
    obtain ⟨⟨_, hlegal⟩, hcoef⟩ := (cellKeeps_coefBlock k b).runPass ⟨⟨hwf, h.1⟩, h.2⟩
    exact ⟨hlegal, hcoef⟩

/-- Settles O43: the legal values are an invariant of the block. -/
theorem cellValuesInvariantKept : Obligations.CellValuesInvariantKept := by
  unfold Obligations.CellValuesInvariantKept
  intro s t hwf hcells hstep
  exact (legalBlock_invariant.stepKeeps.step ⟨hwf, hcells⟩ hstep).2

/-- Settles O44: the legal values and the zeros together are an invariant of the block. -/
theorem coefInvariantKept : Obligations.CoefInvariantKept := by
  unfold Obligations.CoefInvariantKept
  intro s t hwf hcells hcoef hstep ha
  exact ((coefBlock_invariant.stepKeeps.step ⟨hwf, fun ha => ⟨hcells ha, hcoef ha⟩⟩ hstep).2 ha).2

/-! ### A significant coefficient through a pass (R38, R171) -/

theorem planeMask_getLsbD (b j : Nat) : (planeMask b).getLsbD j = decide (j < 128 ∧ j = b) := by
  unfold planeMask
  rw [BitVec.getLsbD_shiftLeft, BitVec.getLsbD_one]
  by_cases hj : j = b <;> simp [hj]
  omega

/-- A refinement leaves the magnitude bits above its own bit-plane alone (R171). -/
theorem refinedMag_getLsbD_above {mag : BitVec 128} {b j : Nat} (bit : Bool) (h : b < j) :
    (refinedMag mag b bit).getLsbD j = mag.getLsbD j := by
  have hplane : (planeMask b).getLsbD j = false := by
    rw [planeMask_getLsbD]
    exact decide_eq_false (by omega)
  have hhalf : (halfMask b).getLsbD j = false := by
    rw [halfMask, BitVec.getLsbD_ushiftRight, planeMask_getLsbD]
    exact decide_eq_false (by omega)
  have hbit : (if bit then planeMask b else 0).getLsbD j = false := by
    split_ifs
    · exact hplane
    · exact BitVec.getLsbD_zero
  rw [refinedMag, BitVec.getLsbD_or, BitVec.getLsbD_or, BitVec.getLsbD_and, BitVec.getLsbD_not, hplane, hhalf, hbit]
  by_cases hj : j < 128
  · simp [hj]
  · simp [BitVec.getLsbD_of_ge mag j (by omega)]

/-- What a pass of kind `k` on bit-plane `b` leaves of the significant coefficient `(x, y)` of `s`. -/
structure CoefficientKept (k : PassKind) (b x y : Nat) (s t : State) : Prop where
  inBlock : t.InBlock x y
  sig : significant (t.ctxAt x y) = true
  sgn : (t.coefAt x y).sgn = (s.coefAt x y).sgn
  above : ∀ j, b < j → (t.coefAt x y).mag.getLsbD j = (s.coefAt x y).mag.getLsbD j
  coef : k ≠ .mrp → t.coefAt x y = s.coefAt x y

section Significant

variable {k : PassKind} {b x y : Nat} {s : State}

/-- An event at another coefficient keeps it. -/
theorem CoefficientKept.of_signified {t u : State} {x' y' : Nat} (h : CoefficientKept k b x y s t)
    (hne : ¬(x = x' ∧ y = y')) (hu : Signified x' y' t u) : CoefficientKept k b x y s u := by
  have hcoef := hu.coef x y h.inBlock hne
  refine ⟨inBlock_of_lat hu.lat h.inBlock, ?_, ?_, fun j hj => ?_, fun hk => ?_⟩
  · rw [hu.other x y h.inBlock hne]
    exact h.sig
  · rw [hcoef]
    exact h.sgn
  · rw [hcoef]
    exact h.above j hj
  · rw [hcoef]
    exact h.coef hk

theorem CoefficientKept.negate {t : State} {x' y' : Nat} (h : CoefficientKept k b x y s t) (ht : LegalWf t)
    (hb : t.InBlock x' y') : CoefficientKept k b x y s (t.setCtx x' y' (-t.ctxAt x' y')) :=
  ⟨h.inBlock, (significant_negate ht.1 ht.2 hb h.inBlock).trans h.sig, h.sgn, h.above, h.coef⟩

/-- Its own refinement changes the bits of the bit-plane and below only (R171). -/
theorem CoefficientKept.refine_own {t : State} (h : CoefficientKept .mrp b x y s t) (ht : LegalWf t) (bit : Bool) :
    CoefficientKept .mrp b x y s
      ((t.setCoef x y { t.coefAt x y with mag := refinedMag (t.coefAt x y).mag b bit }).setCtx x y 17) := by
  have hown := (refine_signified ht.1 h.inBlock
    { t.coefAt x y with mag := refinedMag (t.coefAt x y).mag b bit }).own
  refine ⟨h.inBlock, hown, ?_, fun j hj => ?_, fun hk => absurd rfl hk⟩ <;>
    rw [setCtx_coefAt, coefAt_setCoef_same (memoriesWf_coef ht.1)]
  · exact h.sgn
  · rw [refinedMag_getLsbD_above bit hj]
    exact h.above j hj

theorem cellKeeps_coefficientKept (k : PassKind) (b x y : Nat) (s : State) :
    CellKeeps k b fun t => LegalWf t ∧ CoefficientKept k b x y s t where
  wf _ h := memoriesWf_ctxmap h.1.1
  dec _ _ h := ⟨h.1, h.2.inBlock, h.2.sig, h.2.sgn, h.2.above, h.2.coef⟩
  signify t x' y' o hb hc h := by
    refine ⟨signify_legalWf hb h.1, h.2.of_signified ?_ (signify_signified b o h.1.1 hb)⟩
    rintro ⟨rfl, rfl⟩
    have := significant_iff.mp h.2.sig
    omega
  negate _ _ _ hb hc h := ⟨negate_legalWf hb hc h.1, h.2.negate h.1 hb⟩
  refine hk t x' y' bit hb _ h := by
    subst hk
    refine ⟨refine_legalWf hb _ h.1, ?_⟩
    by_cases hxy : x = x' ∧ y = y'
    · obtain ⟨rfl, rfl⟩ := hxy
      exact h.2.refine_own h.1 bit
    · exact h.2.of_signified hxy (refine_signified h.1.1 hb _)

end Significant

/-- Settles O55, by the induction over the cells of the pass. -/
theorem significantCoefficientsKept : Obligations.SignificantCoefficientsKept := by
  unfold Obligations.SignificantCoefficientsKept
  intro s k b x y hwf hlegal _ hb hsig
  obtain ⟨_, hkept⟩ := (cellKeeps_coefficientKept k b x y s).runPass
    ⟨⟨hwf, hlegal⟩, hb, hsig, rfl, fun _ _ => rfl, fun _ => rfl⟩
  exact ⟨hkept.sig, hkept.sgn, hkept.above, hkept.coef⟩

end Sys2Proof.Machine
end

section
/-! PROOF. O46: the canonical form, the addresses and the widths of the memories and registers (R25, R26, R29, R30,
R36, R38, R39, R40). -/

namespace Sys2Proof.Machine

/-! ### The registers of `LW` bits -/

/-- A number of segment bytes fits `LW` bits (R6). -/
theorem lt_two_pow_lw {p : Params} {n : Nat} (h : n ≤ p.segsize) : n < 2 ^ Params.lw p :=
  Nat.lt_of_le_of_lt h Nat.lt_log2_self

/-- `MQ_BASE`, `MQ_LEN` and `L` fit `LW` bits. -/
abbrev MqSized (s : State) : Prop :=
  s.mq.base < 2 ^ Params.lw s.cfg ∧ s.mq.len < 2 ^ Params.lw s.cfg ∧ s.mq.l < 2 ^ Params.lw s.cfg

/-- `RAW_BASE`, `RAW_LEN` and `RL` fit `LW` bits. -/
abbrev RawSized (s : State) : Prop :=
  s.raw.base < 2 ^ Params.lw s.cfg ∧ s.raw.len < 2 ^ Params.lw s.cfg ∧ s.raw.rl < 2 ^ Params.lw s.cfg

/-- The entries of `SEGTAB` exist and their fields fit `LW` bits. -/
abbrev SlotsSized (s : State) : Prop :=
  ∀ p ∈ s.segtab, p.1 < s.cfg.nslot ∧ p.2.base < 2 ^ Params.lw s.cfg ∧ p.2.len < 2 ^ Params.lw s.cfg

/-- The listed cells exist, and magnitudes fit `MAGW` bits. -/
abbrev CellsSized (s : State) : Prop :=
  (∀ p ∈ s.ctxmap, p.1 < s.cfg.maxw * s.cfg.maxh) ∧
  ∀ p ∈ s.coef, p.1 < s.cfg.maxw * s.cfg.maxh ∧ p.2.mag.toNat < 2 ^ s.cfg.magw

/-- All the addresses and widths of a state. -/
structure Sized (s : State) : Prop where
  mq : MqSized s
  raw : RawSized s
  slots : SlotsSized s
  cells : CellsSized s
  bytes : ∀ p ∈ s.segmem, p.1 < s.cfg.segsize

theorem sized_iff {s : State} : Sized s ↔ AddressesOk s ∧ WidthsOk s := by
  constructor
  · rintro ⟨hmq, hraw, hslots, ⟨hctx, hcoef⟩, hbytes⟩
    exact ⟨⟨hbytes, fun p hp => (hslots p hp).1, hctx, fun p hp => (hcoef p hp).1⟩,
      hmq, hraw, fun p hp => (hslots p hp).2, fun p hp => (hcoef p hp).2⟩
  · rintro ⟨⟨hbytes, hslot, hctx, hcoef⟩, hmq, hraw, hwidth, hmag⟩
    exact ⟨hmq, hraw, fun p hp => ⟨hslot p hp, hwidth p hp⟩, ⟨hctx, fun p hp => ⟨hcoef p hp, hmag p hp⟩⟩, hbytes⟩

/-- The registers of a ready MQD fit: its segment lies inside segment memory and its cursor inside the segment. -/
theorem mqSized_of_rdy {s : State} (h : MqOk s) (hrdy : s.mq.rdy = true) : MqSized s := by
  obtain ⟨_, hseg, hready⟩ := h
  obtain ⟨hatt, _, _, hl⟩ := hready hrdy
  have hinside := hseg hatt
  exact ⟨lt_two_pow_lw (by omega), lt_two_pow_lw (by omega), lt_two_pow_lw (by omega)⟩

theorem rawSized_of_rdy {s : State} (h : RawOk s) (hrdy : s.raw.rdy = true) : RawSized s := by
  obtain ⟨hseg, hready⟩ := h
  obtain ⟨hatt, _, hrl⟩ := hready hrdy
  have hinside := hseg hatt
  exact ⟨lt_two_pow_lw (by omega), lt_two_pow_lw (by omega), lt_two_pow_lw (by omega)⟩

theorem slotAt_sized {s : State} (h : SlotsSized s) (i : Nat) :
    (s.slotAt i).base < 2 ^ Params.lw s.cfg ∧ (s.slotAt i).len < 2 ^ Params.lw s.cfg := by
  rcases Memory.read_eq_or_mem (d := blankSlot) s.segtab i with hblank | hmem
  · have hpos : 0 < 2 ^ Params.lw s.cfg := by positivity
    rw [State.slotAt, hblank]
    exact ⟨hpos, hpos⟩
  · exact (h _ hmem).2

/-! ### The cells and the magnitudes of a pass -/

theorem planeMask_lt {b n : Nat} (h : b < n) : (planeMask b).toNat < 2 ^ n := by
  rw [planeMask, BitVec.toNat_shiftLeft, Nat.shiftLeft_eq]
  calc 1 % 2 ^ 128 * 2 ^ b % 2 ^ 128 ≤ 1 % 2 ^ 128 * 2 ^ b := Nat.mod_le _ _
    _ = 2 ^ b := by norm_num
    _ < 2 ^ n := Nat.pow_lt_pow_right (by decide) h

theorem halfMask_lt {b n : Nat} (h : b < n) : (halfMask b).toNat < 2 ^ n := by
  rw [halfMask, BitVec.toNat_ushiftRight]
  exact Nat.lt_of_le_of_lt (Nat.shiftRight_le _ _) (planeMask_lt h)

theorem newMag_lt {b n : Nat} (h : b < n) : (planeMask b ||| halfMask b).toNat < 2 ^ n := by
  rw [BitVec.toNat_or]
  exact Nat.or_lt_two_pow (planeMask_lt h) (halfMask_lt h)

theorem refinedMag_lt {mag : BitVec 128} {b n : Nat} (bit : Bool) (h : b < n) (hmag : mag.toNat < 2 ^ n) :
    (refinedMag mag b bit).toNat < 2 ^ n := by
  have hkept : (mag &&& ~~~planeMask b).toNat < 2 ^ n := by
    rw [BitVec.toNat_and]
    exact Nat.lt_of_le_of_lt Nat.and_le_left hmag
  have hbit : (if bit then planeMask b else 0).toNat < 2 ^ n := by
    split_ifs
    · exact planeMask_lt h
    · exact Nat.two_pow_pos n
  rw [refinedMag, BitVec.toNat_or, BitVec.toNat_or]
  exact Nat.or_lt_two_pow (Nat.or_lt_two_pow hkept hbit) (halfMask_lt h)

theorem coefAt_mag_lt {s : State} (h : CellsSized s) (x y : Nat) : (s.coefAt x y).mag.toNat < 2 ^ s.cfg.magw := by
  rcases Memory.read_eq_or_mem (d := blankCoef) s.coef (s.flat x y) with hblank | hmem
  · rw [State.coefAt, hblank]
    exact Nat.two_pow_pos _
  · exact (h.2 _ hmem).2

/-- The block fits the memories and bit-plane `b` is one of a magnitude; every listed cell exists and fits. -/
structure PassSized (b : Nat) (s : State) : Prop where
  width : s.width ≤ s.cfg.maxw
  height : s.height ≤ s.cfg.maxh
  plane : b < s.cfg.magw
  cells : CellsSized s

section Pass

variable {b : Nat} {s : State} {x y : Nat}

theorem PassSized.flat_lt (h : PassSized b s) (hb : s.InBlock x y) : s.flat x y < s.cfg.maxw * s.cfg.maxh :=
  Nat.lt_of_lt_of_le (Machine.flat_lt hb) (Nat.mul_le_mul h.width h.height)

theorem PassSized.setCtx (h : PassSized b s) (hb : s.InBlock x y) (v : Int) : PassSized b (s.setCtx x y v) := by
  refine ⟨h.width, h.height, h.plane, fun p hp => ?_, h.cells.2⟩
  rcases Memory.mem_write hp with hold | rfl
  · exact h.cells.1 p hold
  · exact h.flat_lt hb

theorem PassSized.setCoef (h : PassSized b s) (hb : s.InBlock x y) {c : Coef} (hc : c.mag.toNat < 2 ^ s.cfg.magw) :
    PassSized b (s.setCoef x y c) := by
  refine ⟨h.width, h.height, h.plane, h.cells.1, fun p hp => ?_⟩
  rcases Memory.mem_write hp with hold | rfl
  · exact h.cells.2 p hold
  · exact ⟨h.flat_lt hb, hc⟩

end Pass

theorem passKeeps_passSized (b : Nat) : PassKeeps b (PassSized b) where
  dec _ _ h := ⟨h.width, h.height, h.plane, h.cells⟩
  ctx _ _ _ v hb h := h.setCtx hb v
  sgn _ x y _ hb h := h.setCoef hb (coefAt_mag_lt h.cells x y)
  new _ _ _ hb h := h.setCoef hb (newMag_lt h.plane)
  refine _ x y bit hb h := h.setCoef hb (refinedMag_lt bit h.plane (coefAt_mag_lt h.cells x y))

/-! ### Every step keeps the addresses and the widths -/

/-- The invariants of the units, which bound what a command writes, and the sizes. -/
structure SizedUnits (s : State) : Prop where
  mqOk : MqOk s
  rawOk : RawOk s
  seqOk : SeqOk s
  sized : Sized s

/-- An executed pass is on a bit-plane of a magnitude, of a block that fits the memories (R33, R155). -/
theorem passSized_of_blockInRange {s : State} (hin : s.blockInRange = true) (h : CellsSized s) :
    PassSized s.bp.toInt.toNat s := by
  have hbp := bp_nonneg hin
  obtain ⟨hw, hh, hmsb, _, hle, _, _⟩ := blockInRange_iff.mp hin
  exact ⟨hw, hh, by omega, h⟩

theorem execPass_sized {s : State} (hin : s.blockInRange = true) (hmq : MqOk (execPass s)) (h : Sized s) :
    Sized (execPass s) := by
  have hf := execPass_frame s
  have hpass := passSized_of_blockInRange hin h.cells
  have hcells : PassSized s.bp.toInt.toNat (execPass s) :=
    runPass_keeps (passKeeps_passSized _) s.pk (s := attachPass s.passIdx.toNat s)
      ⟨hpass.width, hpass.height, hpass.plane, hpass.cells⟩
  have hrdy : (execPass s).mq.rdy = true := hf.rdy.trans (mqRestart_rdy _ _)
  refine ⟨mqSized_of_rdy hmq hrdy, ?_, ?_, hcells.cells, ?_⟩
  · rw [RawSized, hf.raw, hf.cfg]
    exact h.raw
  · rw [SlotsSized, hf.segtab, hf.cfg]
    exact h.slots
  · rw [hf.segmem, hf.cfg]
    exact h.bytes

theorem stepBody_sizedUnits : BodyKeeps SizedUnits := by
  intro s hact hin hbad h
  have hmq := stepBody_mqOk s hact hin hbad h.mqOk
  refine ⟨hmq, stepBody_rawOk s hact hin hbad h.rawOk, stepBody_seqOk s hact hin hbad h.seqOk, ?_⟩
  rcases stepBody_cases s with ⟨_, hbody⟩ | ⟨_, hbody⟩ <;> rw [hbody] at hmq ⊢
  · exact ⟨h.sized.mq, h.sized.raw, h.sized.slots, h.sized.cells, h.sized.bytes⟩
  · have hpass := execPass_sized hin hmq h.sized
    exact ⟨hpass.mq, hpass.raw, hpass.slots, hpass.cells, hpass.bytes⟩

/-- The sizes after a change of MQD only. -/
theorem Sized.setMq {s : State} (h : Sized s) {m : Mqd} (hm : MqSized { s with mq := m }) : Sized { s with mq := m } :=
  ⟨hm, h.raw, h.slots, h.cells, h.bytes⟩

/-- The sizes after a change of RAWD only. -/
theorem Sized.setRaw {s : State} (h : Sized s) {r : Rawd} (hr : RawSized { s with raw := r }) :
    Sized { s with raw := r } :=
  ⟨h.mq, hr, h.slots, h.cells, h.bytes⟩

theorem attachBlock_sized {s : State} (h : Sized s) : Sized (attachBlock s) :=
  ⟨h.mq, h.raw, h.slots, ⟨fun p hp => h.cells.1 p (Memory.mem_clearBelow hp),
    fun p hp => h.cells.2 p (Memory.mem_clearBelow hp)⟩, h.bytes⟩

theorem decodeBit_sized {n : Nat} {s : State} (h : SizedUnits s) (hrdy : s.mq.rdy = true) :
    Sized (decodeBit n s).2 :=
  h.sized.setMq (mqSized_of_rdy (decodeBit_mqOk n h.mqOk) (by simpa using hrdy))

theorem rawDecode_sized {s : State} (h : SizedUnits s) (hrdy : s.raw.rdy = true) :
    Sized { s with raw := (rawDecode s.segmem s.raw).2 } :=
  h.sized.setRaw (rawSized_of_rdy (rawOk_decode h.rawOk) (by simpa using hrdy))

/-- A command other than `CB.STEP` and `CB.RUN` keeps the sizes. -/
theorem effect_sized {i : Instr} {s : State} {data : BitVec 2} (hi : i ≠ .cbStep ∧ i ≠ .cbRun)
    (hv : verdict i s = .completes data) (h : SizedUnits s) : Sized (effect i s) := by
  have hmq := effect_mqOk hv h.mqOk
  have hraw := effect_rawOk hv h.rawOk
  cases i with
  | mqReset => exact h.sized.setMq h.sized.mq
  | mqAttach slot =>
    obtain ⟨hbase, hlen⟩ := slotAt_sized h.sized.slots slot
    obtain ⟨_, _, hl⟩ := h.sized.mq
    exact h.sized.setMq ⟨hbase, hlen, hl⟩
  | mqRestart => exact h.sized.setMq (mqSized_of_rdy hmq (mqRestart_rdy _ _))
  | mqDecode cx =>
    rw [verdict] at hv
    split_ifs at hv
    exact decodeBit_sized h (unitVerdict_completes.mp hv).1
  | mqDecodeu => exact decodeBit_sized h (unitVerdict_completes.mp hv).1
  | rawReset => exact h.sized
  | rawAttach slot =>
    obtain ⟨hbase, hlen⟩ := slotAt_sized h.sized.slots slot
    obtain ⟨_, _, hrl⟩ := h.sized.raw
    exact h.sized.setRaw ⟨hbase, hlen, hrl⟩
  | rawRestart => exact h.sized.setRaw (rawSized_of_rdy hraw rfl)
  | rawDecode cx => exact rawDecode_sized h (unitVerdict_completes.mp hv).1
  | rawDecodeu => exact rawDecode_sized h (unitVerdict_completes.mp hv).1
  | cbAttach => exact attachBlock_sized h.sized
  | cbStep => exact absurd rfl hi.1
  | cbRun => exact absurd rfl hi.2

theorem effect_sizedUnits {i : Instr} {s : State} {data : BitVec 2} (hv : verdict i s = .completes data)
    (h : SizedUnits s) : SizedUnits (effect i s) := by
  by_cases hstep : i = .cbStep
  · subst hstep
    exact stepBody_sizedUnits.cbStep hv h
  by_cases hrun : i = .cbRun
  · subst hrun
    exact stepBody_sizedUnits.cbRun hv h
  exact ⟨effect_mqOk hv h.mqOk, effect_rawOk hv h.rawOk, effect_seqOk hv h.seqOk, effect_sized ⟨hstep, hrun⟩ hv h⟩

/-- A host write to `SEGTAB` keeps the sizes: the entry exists, and a new field is cut to `LW` bits (R39). -/
theorem writeSlot_sized {s : State} {i : Nat} {e : Slot} (hi : i < s.cfg.nslot)
    (he : (e.base = (s.slotAt i).base ∨ e.base < 2 ^ Params.lw s.cfg) ∧
      (e.len = (s.slotAt i).len ∨ e.len < 2 ^ Params.lw s.cfg)) (h : Sized s) :
    Sized { s with segtab := Memory.write blankSlot s.segtab i e } := by
  refine ⟨h.mq, h.raw, fun p hp => ?_, h.cells, h.bytes⟩
  obtain ⟨hbase, hlen⟩ := slotAt_sized h.slots i
  rcases Memory.mem_write hp with hold | rfl
  · exact h.slots p hold
  · exact ⟨hi, he.1.elim (fun heq => heq ▸ hbase) id, he.2.elim (fun heq => heq ▸ hlen) id⟩

theorem writeByte_sized {s : State} {a : Nat} (ha : a < s.cfg.segsize) (b : Byte) (h : Sized s) :
    Sized { s with segmem := Memory.write blankByte s.segmem a b } := by
  refine ⟨h.mq, h.raw, h.slots, h.cells, fun p hp => ?_⟩
  rcases Memory.mem_write hp with hold | rfl
  · exact h.bytes p hold
  · exact ha

/-- The fields without an address or a width of `LW` or `MAGW` bits. -/
theorem Sized.setOthers {s : State} (h : Sized s) (d : Desc) (st : CbStat) (f : BitVec 5) (r : BitVec 7)
    (p : List HostAction) : Sized { s with desc := d, stat := st, flt := f, rsp := r, pending := p } :=
  ⟨h.mq, h.raw, h.slots, h.cells, h.bytes⟩

theorem hardwareReset_sized (s : State) : Sized (hardwareReset s) :=
  (sized_iff.mpr ⟨(resetWith_inv s.cfg).addr, (resetWith_inv s.cfg).widths⟩).setOthers _ _ _ _ s.pending

theorem sizedUnits_stepKeeps : StepKeeps SizedUnits where
  record s f r p h := ⟨h.mqOk, h.rawOk, h.seqOk, h.sized.setOthers s.desc s.stat f r p⟩
  reset s := ⟨mqOk_stepKeeps.reset s, rawOk_stepKeeps.reset s, seqOk_stepKeeps.reset s, hardwareReset_sized s⟩
  desc s d h := ⟨h.mqOk, h.rawOk, h.seqOk, h.sized.setOthers d s.stat s.flt s.rsp s.pending⟩
  slot _ _ _ hi he h := ⟨h.mqOk, h.rawOk, h.seqOk, writeSlot_sized hi he h.sized⟩
  byte _ _ b ha h := ⟨h.mqOk, h.rawOk, h.seqOk, writeByte_sized ha b h.sized⟩
  invalid s h := ⟨h.mqOk, h.rawOk, seqOk_stepKeeps.invalid s h.seqOk,
    h.sized.setOthers s.desc .fault s.flt s.rsp s.pending⟩
  effect _ _ _ hv h := effect_sizedUnits hv h

/-- Every pass keeps the canonical form, whatever the block holds. -/
theorem trivial_invariant : BlockInvariant fun _ => True where
  congr _ _ _ _ _ _ := trivial
  attach _ _ := trivial
  pass _ _ _ _ _ := trivial

/-- Settles O46: the canonical form by itself, the sizes with the invariants of the units that bound them. -/
theorem memoryInvariantsKept : Obligations.MemoryInvariantsKept := by
  unfold Obligations.MemoryInvariantsKept
  intro s t hstep
  refine ⟨fun hwf => (trivial_invariant.stepKeeps.step ⟨hwf, fun _ => trivial⟩ hstep).1, fun hinv => ?_⟩
  have hunits : SizedUnits s := ⟨hinv.mq, hinv.raw, hinv.seq, sized_iff.mpr ⟨hinv.addr, hinv.widths⟩⟩
  exact sized_iff.mp (sizedUnits_stepKeeps.step hunits hstep).sized

end Sys2Proof.Machine
end

section
/-! PROOF. O50: a neighbour is the adjacent coefficient, and `Later` is the scan order (R66, R160, R179, R180). -/

namespace Sys2Proof.Machine

/-- `Later` compares positions in the scan: the coefficient one step in direction `d` comes after `(x, y)`. Only a step
up or down can leave the stripe of four rows, at its first or its last row. -/
theorem later_iff_earlier {d : Dir} {x y nx ny : Nat} (hx : (nx : Int) = x + d.dx) (hy : (ny : Int) = y + d.dy) :
    later d y = true ↔ Earlier (x, y) (nx, ny) := by
  unfold Earlier
  cases d <;> simp only [Dir.dx, Dir.dy] at hx hy
  case right | down | downRight =>
    simp only [later, true_iff]
    omega
  case left | up | upLeft =>
    simp only [later, reduceCtorEq, false_iff]
    omega
  case upRight | downLeft =>
    simp only [later, decide_eq_true_eq]
    omega

/-- Settles O50: the coordinates of a neighbour, and their place in the scan. -/
theorem laterIsScanOrder : Obligations.LaterIsScanOrder := by
  unfold Obligations.LaterIsScanOrder
  refine fun s d x y nx ny => ⟨neighbour_eq_some, fun hn => ?_⟩
  obtain ⟨hx, hy, _⟩ := neighbour_eq_some.mp hn
  exact later_iff_earlier hx hy

end Sys2Proof.Machine
end

section
/-! PROOF. The simulation of a pass: two machines that look alike on the block and decode alike stay so through every
pass. -/

namespace Sys2Proof.Machine

/-- The elementary operations of a pass preserve the relation `R` of two machines: related machines have the same latched
descriptor and the same cells of the block, they decode the same bit, and a decode or a write of a cell of the block
leaves them related. -/
structure PassSim (R : State → State → Prop) : Prop where
  /-- The latched descriptor. -/
  lat : ∀ s t, R s t → t.lat = s.lat
  /-- The context map of the block. -/
  ctxAt : ∀ s t x y, R s t → s.InBlock x y → t.ctxAt x y = s.ctxAt x y
  /-- The coefficients of the block. -/
  coefAt : ∀ s t x y, R s t → s.InBlock x y → t.coefAt x y = s.coefAt x y
  /-- `Decode(n)`. -/
  dec : ∀ n s t, R s t → (decodeBit n t).1 = (decodeBit n s).1 ∧ R (decodeBit n s).2 (decodeBit n t).2
  /-- A write of a context cell. -/
  setCtx : ∀ s t x y v, R s t → s.InBlock x y → R (s.setCtx x y v) (t.setCtx x y v)
  /-- A write of a coefficient. -/
  setCoef : ∀ s t x y c, R s t → s.InBlock x y → R (s.setCoef x y c) (t.setCoef x y c)

theorem neighbour_congr {s t : State} (hlat : t.lat = s.lat) : t.neighbour = s.neighbour := by
  funext d x y
  unfold State.neighbour State.width State.height
  rw [hlat]

section

variable {R : State → State → Prop} {s t : State}

theorem PassSim.neighbour (h : PassSim R) (hst : R s t) : t.neighbour = s.neighbour :=
  neighbour_congr (h.lat s t hst)

theorem PassSim.size (h : PassSim R) (hst : R s t) : t.width = s.width ∧ t.height = s.height := by
  unfold State.width State.height
  rw [h.lat s t hst]
  exact ⟨rfl, rfl⟩

theorem PassSim.anySignificant (h : PassSim R) (hst : R s t) (x y : Nat) :
    t.anySignificant x y = s.anySignificant x y := by
  unfold State.anySignificant
  rw [h.neighbour hst]
  congr 1
  funext d
  cases hn : s.neighbour d x y with
  | none => rfl
  | some p => exact congrArg significant (h.ctxAt s t p.1 p.2 hst (neighbour_inBlock hn))

theorem PassSim.contribution (h : PassSim R) (hst : R s t) (d : Dir) (x y : Nat) :
    t.contribution d x y = s.contribution d x y := by
  unfold State.contribution
  rw [h.neighbour hst]
  cases hn : s.neighbour d x y with
  | none => rfl
  | some p =>
    have hb : s.InBlock p.1 p.2 := neighbour_inBlock hn
    dsimp only
    rw [h.ctxAt s t _ _ hst hb, h.coefAt s t _ _ hst hb]

theorem PassSim.signContext (h : PassSim R) (hst : R s t) (x y : Nat) : t.signContext x y = s.signContext x y := by
  simp only [State.signContext, h.contribution hst]

theorem PassSim.updateNeighbour (h : PassSim R) (hst : R s t) (x y : Nat) (o : Origin) (d : Dir) :
    R (updateNeighbour x y o s d) (updateNeighbour x y o t d) := by
  unfold Machine.updateNeighbour
  rw [h.neighbour hst]
  cases hn : s.neighbour d x y with
  | none => exact hst
  | some p =>
    have hb : s.InBlock p.1 p.2 := neighbour_inBlock hn
    dsimp only
    rw [h.ctxAt s t _ _ hst hb, h.lat s t hst]
    exact h.setCtx s t _ _ _ hst hb

variable {x y : Nat}

theorem PassSim.neighborUpdate (h : PassSim R) (hst : R s t) (hb : s.InBlock x y) (o : Origin) :
    R (neighborUpdate x y o s) (neighborUpdate x y o t) := by
  unfold Machine.neighborUpdate
  rw [h.anySignificant hst]
  exact List.foldl_rel (h.setCtx s t x y _ hst hb) fun d _ _ _ hst' => h.updateNeighbour hst' x y o d

theorem PassSim.signDecode (h : PassSim R) (hst : R s t) (hb : s.InBlock x y) :
    R (signDecode x y s) (signDecode x y t) := by
  obtain ⟨hbit, hdec⟩ := h.dec (s.signContext x y).natAbs s t hst
  simp only [Machine.signDecode, h.signContext hst, hbit]
  split_ifs
  · rw [h.coefAt _ _ x y hdec hb]
    exact h.setCoef _ _ x y _ hdec hb
  · exact hdec

theorem PassSim.signify (h : PassSim R) (hst : R s t) (hb : s.InBlock x y) (b : Nat) (o : Origin) :
    R (signify x y b o s) (signify x y b o t) := by
  unfold Machine.signify
  rw [h.coefAt s t x y hst hb]
  exact h.neighborUpdate (h.signDecode (h.setCoef s t x y _ hst hb) hb) (inBlock_of_lat (signDecode_lat x y _) hb) o

variable {p : Nat × Nat}

theorem PassSim.sppCell (h : PassSim R) (hst : R s t) (hb : s.InBlock p.1 p.2) (b : Nat) :
    R (sppCell b s p) (sppCell b t p) := by
  obtain ⟨hbit, hdec⟩ := h.dec (s.ctxAt p.1 p.2).natAbs s t hst
  simp only [Machine.sppCell, h.ctxAt s t _ _ hst hb, hbit]
  split_ifs
  · exact h.signify hdec hb b .prop
  · exact hdec
  · exact hst

theorem PassSim.mrpCell (h : PassSim R) (hst : R s t) (hb : s.InBlock p.1 p.2) (b : Nat) :
    R (mrpCell b s p) (mrpCell b t p) := by
  obtain ⟨hbit, hdec⟩ := h.dec (s.ctxAt p.1 p.2).natAbs s t hst
  simp only [Machine.mrpCell, h.ctxAt s t _ _ hst hb, hbit]
  split_ifs
  · rw [h.coefAt _ _ p.1 p.2 hdec hb]
    exact h.setCtx _ _ _ _ _ (h.setCoef _ _ _ _ _ hdec hb) hb
  · exact h.setCtx s t _ _ _ hst hb
  · exact hst

theorem PassSim.cupCell (h : PassSim R) (hst : R s t) (hb : s.InBlock p.1 p.2) (b : Nat) :
    R (cupCell b s p) (cupCell b t p) := by
  have hflip := h.setCtx s t p.1 p.2 (-(s.ctxAt p.1 p.2)) hst hb
  obtain ⟨hbit, hdec⟩ := h.dec (s.ctxAt p.1 p.2).natAbs _ _ hflip
  simp only [Machine.cupCell, h.ctxAt s t _ _ hst hb, hbit]
  split_ifs
  · exact h.signify hdec hb b .cleanup
  · exact hdec
  · exact hst

/-- The relation of two machines inside a pass: that of `R`, on the block `l`. -/
def OnBlock (R : State → State → Prop) (l : Latched) (s t : State) : Prop := R s t ∧ s.lat = l

theorem PassSim.onBlock (h : PassSim R) (l : Latched) : PassSim (OnBlock R l) where
  lat s t hst := h.lat s t hst.1
  ctxAt s t x y hst := h.ctxAt s t x y hst.1
  coefAt s t x y hst := h.coefAt s t x y hst.1
  dec n s t hst := ⟨(h.dec n s t hst.1).1, (h.dec n s t hst.1).2, hst.2⟩
  setCtx s t x y v hst hb := ⟨h.setCtx s t x y v hst.1 hb, hst.2⟩
  setCoef s t x y c hst hb := ⟨h.setCoef s t x y c hst.1 hb, hst.2⟩

/-- A fold over positions, columns or directions whose every step preserves the relation on the block. -/
theorem PassSim.foldl {α : Type} {f : State → α → State} {as : List α}
    (hf : ∀ a ∈ as, ∀ u v, OnBlock R s.lat u v → OnBlock R s.lat (f u a) (f v a)) (hst : R s t) :
    R (as.foldl f s) (as.foldl f t) :=
  (List.foldl_rel (r := OnBlock R s.lat) ⟨hst, rfl⟩ hf).1

/-- Cells of the block visited one by one. -/
theorem PassSim.cells (h : PassSim R) {f : State → Nat × Nat → State} {ps : List (Nat × Nat)}
    (hf : ∀ {Q : State → State → Prop}, PassSim Q → ∀ {u v : State} {p : Nat × Nat}, Q u v → u.InBlock p.1 p.2 →
      Q (f u p) (f v p))
    (hps : ∀ p ∈ ps, s.InBlock p.1 p.2) (hst : R s t) : R (ps.foldl f s) (ps.foldl f t) :=
  PassSim.foldl (fun p hp _ _ huv => hf (h.onBlock s.lat) huv (inBlock_of_lat huv.2 (hps p hp))) hst

variable {col : Column}

theorem PassSim.runLength (h : PassSim R) (hst : R s t) (hcol : col.x < s.width ∧ col.top + col.rows ≤ s.height) :
    t.runLength col = s.runLength col := by
  rw [Bool.eq_iff_iff, runLength_iff, runLength_iff]
  refine and_congr_right fun _ => forall₂_congr fun p hp => ?_
  rw [h.ctxAt s t _ _ hst (column_inBlock hcol hp)]

/-- The end of a run: the row found, and the rows below it one by one (R172). -/
theorem PassSim.runTail (h : PassSim R) (hst : R s t) (hcol : col.x < s.width ∧ col.top + col.rows ≤ s.height) {j : Nat}
    (hrow : (col.x, col.top + j) ∈ col.cells) (b : Nat) :
    R ((col.cells.drop (j + 1)).foldl (Machine.cupCell b) (Machine.signify col.x (col.top + j) b .cleanup s))
      ((col.cells.drop (j + 1)).foldl (Machine.cupCell b) (Machine.signify col.x (col.top + j) b .cleanup t)) := by
  have hb : s.InBlock col.x (col.top + j) := column_inBlock hcol hrow
  refine h.cells (fun hQ _ _ _ huv hb => hQ.cupCell huv hb b) (fun p hp => ?_) (h.signify hst hb b .cleanup)
  exact inBlock_of_lat (signify_lat _ _ b .cleanup hb) (column_inBlock hcol (List.mem_of_mem_drop hp))

theorem PassSim.cupRun (h : PassSim R) (hst : R s t) (hcol : col.x < s.width ∧ col.top + col.rows ≤ s.height)
    (h4 : col.rows = 4) (b : Nat) : R (cupRun b s col) (cupRun b t col) := by
  obtain ⟨hbit1, hdec1⟩ := h.dec 18 s t hst
  obtain ⟨hbit0, hdec0⟩ := h.dec 18 _ _ hdec1
  unfold Machine.cupRun
  dsimp only
  rw [hbit1, hbit0]
  have hrow := runRow_mem_cells h4 (decodeBit 18 s).1 (decodeBit 18 (decodeBit 18 s).2).1
  exact h.runTail hdec0 (by simpa using hcol) hrow b

theorem PassSim.cupColumn (h : PassSim R) (hst : R s t) (hcol : col.x < s.width ∧ col.top + col.rows ≤ s.height)
    (b : Nat) : R (cupColumn b s col) (cupColumn b t col) := by
  obtain ⟨hbit, hdec⟩ := h.dec 9 s t hst
  simp only [Machine.cupColumn, h.runLength hst hcol, hbit]
  split_ifs with hrun
  · exact h.cupRun hdec hcol (runLength_iff.mp hrun).1 b
  · exact hdec
  · exact h.cells (fun hQ _ _ _ huv hb => hQ.cupCell huv hb b) (fun p hp => column_inBlock hcol hp) hst

/-- THE SIMULATION OF A PASS: related machines are related after it. -/
theorem PassSim.runPass (h : PassSim R) (hst : R s t) (k : PassKind) (b : Nat) :
    R (runPass k b s) (runPass k b t) := by
  obtain ⟨hw, hh⟩ := h.size hst
  cases k with
  | spp =>
    simp only [Machine.runPass, spp, hw, hh]
    exact h.cells (fun hQ _ _ _ huv hb => hQ.sppCell huv hb b) (fun p hp => mem_scan hp) hst
  | mrp =>
    simp only [Machine.runPass, mrp, hw, hh]
    exact h.cells (fun hQ _ _ _ huv hb => hQ.mrpCell huv hb b) (fun p hp => mem_scan hp) hst
  | cup =>
    simp only [Machine.runPass, cup, hw, hh]
    refine PassSim.foldl (fun col hc u v huv => (h.onBlock s.lat).cupColumn huv ?_ b) hst
    obtain ⟨hx, hrows, _⟩ := mem_scanColumns hc
    unfold State.width State.height at *
    rw [huv.2]
    exact ⟨hx, hrows⟩

end

end Sys2Proof.Machine
end

section
/-! PROOF. O25: no command depends on a byte of segment memory outside the segments (R61, R75). -/

namespace Sys2Proof.Machine

/-! ### The bytes MQD and RAWD read

A unit reads a byte of its segment only, below `MQ_LEN` or `RAW_LEN` (R104, R134): two memories that agree there give the
same registers. -/

/-- Two memories agree on the segment `(base, len)`. -/
def SegAgree (mem mem' : Memory Byte) (base len : Nat) : Prop :=
  ∀ k, k < len → segByte mem (base + k) = segByte mem' (base + k)

section Units

variable {mem mem' : Memory Byte} {m : Mqd}

theorem fillLSB_agree (h : SegAgree mem mem' m.base m.len) : fillLSB mem m = fillLSB mem' m := by
  by_cases hend : m.len ≤ m.l
  · rw [fillLSB_end mem m hend, fillLSB_end mem' m hend]
  · unfold fillLSB
    rw [h m.l (Nat.lt_of_not_le hend)]

theorem mqRestart_agree (h : SegAgree mem mem' m.base m.len) : mqRestart mem m = mqRestart mem' m := by
  have hfirst : restartFirst mem m = restartFirst mem' m := by
    unfold restartFirst
    rw [fillLSB_agree (m := restartClear m) h]
  unfold mqRestart
  rw [hfirst, fillLSB_agree]
  simpa using h

theorem renormOnce_agree (h : SegAgree mem mem' m.base m.len) : renormOnce mem m = renormOnce mem' m := by
  unfold renormOnce
  rw [fillLSB_agree h]

theorem renormLoop_agree (n : Nat) :
    ∀ m : Mqd, SegAgree mem mem' m.base m.len → renormLoop mem n m = renormLoop mem' n m := by
  induction n with
  | zero => exact fun _ _ => rfl
  | succ n ih =>
    intro m h
    rw [renormLoop, renormLoop, renormOnce_agree h, ih _ (by simpa using h)]

theorem renorm_agree (h : SegAgree mem mem' m.base m.len) : renorm mem m = renorm mem' m := by
  unfold renorm
  rw [renormOnce_agree h, renormLoop_agree _ _ (by simpa using h)]

theorem mqDecode_agree (cx : Fin 19) (h : SegAgree mem mem' m.base m.len) : mqDecode mem cx m = mqDecode mem' cx m := by
  have hrenorm : ∀ a c ctx, renorm mem { m with a := a, c := c, ctx := ctx } =
      renorm mem' { m with a := a, c := c, ctx := ctx } := fun _ _ _ => renorm_agree h
  simp only [mqDecode, hrenorm]

theorem rawDecode_agree {r : Rawd} (h : SegAgree mem mem' r.base r.len) : rawDecode mem r = rawDecode mem' r := by
  have hfill : rawFill mem r = rawFill mem' r := by
    by_cases hend : r.len ≤ r.rl
    · rw [rawFill_end mem r hend, rawFill_end mem' r hend]
    · unfold rawFill
      rw [h r.rl (Nat.lt_of_not_le hend)]
  unfold rawDecode
  rw [hfill]

end Units

/-! ### The sequencer -/

theorem decodeBit_swap {mem : Memory Byte} {s : State} (h : SegAgree mem s.segmem s.mq.base s.mq.len) (n : Nat) :
    decodeBit n { s with segmem := mem } = ((decodeBit n s).1, { (decodeBit n s).2 with segmem := mem }) := by
  simp only [decodeBit, mqDecode_agree _ h]

/-- The second machine is the first with another segment memory, one that agrees on the segment of MQD. -/
structure SwappedSegmem (mem : Memory Byte) (s t : State) : Prop where
  eq : t = { s with segmem := mem }
  agree : SegAgree mem s.segmem s.mq.base s.mq.len

theorem swappedSegmem_passSim (mem : Memory Byte) : PassSim (SwappedSegmem mem) where
  lat := by rintro s _ ⟨rfl, _⟩; rfl
  ctxAt := by rintro s _ x y ⟨rfl, _⟩ _; rfl
  coefAt := by rintro s _ x y ⟨rfl, _⟩ _; rfl
  dec := by
    rintro n s _ ⟨rfl, h⟩
    rw [decodeBit_swap h]
    exact ⟨rfl, rfl, by simpa using h⟩
  setCtx := by rintro s _ x y v ⟨rfl, h⟩ _; exact ⟨rfl, h⟩
  setCoef := by rintro s _ x y c ⟨rfl, h⟩ _; exact ⟨rfl, h⟩

/-- The memory `mem` agrees with that of `s` on the segments of the valid slots. -/
def SlotsAgree (mem : Memory Byte) (s : State) : Prop :=
  ∀ p, p < s.cfg.nslot → (s.slotAt p).valid = true → SegAgree mem s.segmem (s.slotAt p).base (s.slotAt p).len

theorem SlotsAgree.of_frame {mem : Memory Byte} {s t : State} (h : SlotsAgree mem s) (hf : BlockFrame s t) :
    SlotsAgree mem t := by
  unfold SlotsAgree State.slotAt at *
  rw [hf.cfg, hf.segtab, hf.segmem]
  exact h

theorem attachPass_swap {mem : Memory Byte} {s : State} {idx : Nat}
    (h : SegAgree mem s.segmem (s.slotAt idx).base (s.slotAt idx).len) :
    SwappedSegmem mem (attachPass idx s) (attachPass idx { s with segmem := mem }) where
  eq := by
    unfold attachPass
    rw [mqRestart_agree]
    · rfl
    · exact h
  agree := by simpa [attachPass] using h

theorem execPass_swap {mem : Memory Byte} {s : State} (h : SlotsAgree mem s) (hskip : s.skips s.passIdx.toNat = false) :
    execPass { s with segmem := mem } = { execPass s with segmem := mem } := by
  simp only [State.skips, Bool.or_eq_false_iff, decide_eq_false_iff_not, Nat.not_le, Bool.not_eq_false'] at hskip
  obtain ⟨⟨_, hslot⟩, hvalid⟩ := hskip
  exact ((swappedSegmem_passSim mem).runPass (attachPass_swap (h _ hslot hvalid)) s.pk s.bp.toInt.toNat).eq

theorem stepBody_swap {mem : Memory Byte} {s : State} (h : SlotsAgree mem s) :
    stepBody { s with segmem := mem } = { stepBody s with segmem := mem } := by
  have hskips : State.skips { s with segmem := mem } (State.passIdx { s with segmem := mem }).toNat =
    s.skips s.passIdx.toNat := rfl
  unfold stepBody
  rw [hskips]
  split_ifs with hskip
  · rfl
  · rw [execPass_swap h (by simpa using hskip)]
    rfl

theorem runLoop_swap {mem : Memory Byte} (n : Nat) :
    ∀ s : State, SlotsAgree mem s → runLoop n { s with segmem := mem } = { runLoop n s with segmem := mem } := by
  induction n with
  | zero => exact fun _ _ => rfl
  | succ n ih =>
    intro s h
    rw [runLoop, runLoop, stepBody_swap h, ih _ (h.of_frame (stepBody_frame s))]
    split_ifs <;> rfl

/-! ### Every command -/

/-- The memory `mem` agrees with that of `s` on the segments that a command can read. -/
structure SegmentsAgree (mem : Memory Byte) (s : State) : Prop where
  /-- The segment of MQD. -/
  mq : SegAgree mem s.segmem s.mq.base s.mq.len
  /-- The segment of RAWD. -/
  raw : SegAgree mem s.segmem s.raw.base s.raw.len
  /-- The segments of the valid slots. -/
  slots : SlotsAgree mem s

theorem effect_swap {mem : Memory Byte} {s : State} (h : SegmentsAgree mem s) (i : Instr) :
    effect i { s with segmem := mem } = { effect i s with segmem := mem } := by
  cases i
  case mqRestart => simp only [effect, mqRestart_agree h.mq]
  case mqDecode cx => simp only [effect, decodeBit_swap h.mq]
  case mqDecodeu => simp only [effect, decodeBit_swap h.mq]
  case rawDecode cx => simp only [effect, rawDecode_agree h.raw]
  case rawDecodeu => simp only [effect, rawDecode_agree h.raw]
  case cbStep =>
    simp only [effect, stepBody_swap h.slots]
    split_ifs <;> rfl
  case cbRun =>
    simp only [effect, runLoop_swap _ s h.slots]
    split_ifs <;> rfl
  all_goals rfl

theorem verdict_swap {mem : Memory Byte} {s : State} (h : SegmentsAgree mem s) (i : Instr) :
    verdict i { s with segmem := mem } = verdict i s := by
  cases i
  case mqDecode cx => simp only [verdict, decodeBit_swap h.mq]
  case mqDecodeu => simp only [verdict, decodeBit_swap h.mq]
  case rawDecode cx => simp only [verdict, rawDecode_agree h.raw]
  case rawDecodeu => simp only [verdict, rawDecode_agree h.raw]
  all_goals rfl

/-- Settles O25, by the two-run law for a change of segment memory outside the segments. -/
theorem noReadOutsideSegment : Obligations.NoReadOutsideSegment := by
  unfold Obligations.NoReadOutsideSegment
  intro i s t mem hexec hmq hraw hslots
  have h : SegmentsAgree mem s := ⟨hmq, hraw, fun p hp hvalid k hk => hslots p k hp hvalid hk⟩
  exact exec_commutes (fun u => { u with segmem := mem }) (verdict_swap h i) (effect_swap h i) (fun _ _ => rfl)
    (refuse_commutes _ (fun _ => rfl) fun _ _ => rfl) hexec

end Sys2Proof.Machine
end

section
/-! PROOF. O1, O2, O4 and O5: the decoder and the encoder agree, along the opcode table of R85. -/

namespace Sys2Proof

/-! ### The opcode table (R85) -/

/-- The opcodes of the four commands that have an operand (R82, R83). -/
abbrev operandOpcodes : List (BitVec 8) := [0x02, 0x04, 0x12, 0x14]

/-- A command without an operand is encoded with 0 (R84). -/
theorem Instr.operand_eq_zero {i : Instr} (h : i.opcode ∉ operandOpcodes) : i.operand = 0 := by
  cases i
  case mqAttach | mqDecode | rawAttach | rawDecode => exact absurd (by simp [Instr.opcode]) h
  all_goals rfl

/-- A command is well-formed just when its operand fits `OPD` (R82, R83). -/
theorem Instr.wellFormed_iff {i : Instr} : i.WellFormed = true ↔ i.operand < 256 := by
  cases i
  case mqAttach | mqDecode | rawAttach | rawDecode => exact decide_eq_true_iff
  all_goals exact iff_of_true rfl (by decide)

/-- THE TABLE OF R85, once: an opcode and a value of `OPD` select the command with that opcode, whose operand is that
value where the command has one. -/
theorem instrOf_eq_some {opc : BitVec 8} {n : Nat} {i : Instr} :
    instrOf opc n = some i ↔ i.opcode = opc ∧ i.operand = if opc ∈ operandOpcodes then n else 0 := by
  constructor
  · intro h
    unfold instrOf at h
    split at h <;> cases h <;> exact ⟨rfl, rfl⟩
  · rintro ⟨rfl, hn⟩
    cases i
    case mqAttach | mqDecode | rawAttach | rawDecode =>
      obtain rfl : _ = n := by simpa [Instr.operand, Instr.opcode] using hn
      rfl
    all_goals rfl

/-- `OPD` takes no part in the selection of a command without an operand (R84). -/
theorem instrOf_congr {opc : BitVec 8} (h : opc ∉ operandOpcodes) (m n : Nat) : instrOf opc m = instrOf opc n := by
  refine Option.ext fun i => ?_
  rw [instrOf_eq_some, instrOf_eq_some, if_neg h, if_neg h]

/-! ### The decoder (R80, R86) -/

theorem decode_eq_ok {w : CmdWord} {i : Instr} :
    decode w = .ok i ↔ instrOf (opcodeOf w) (operandOf w) = some i := by
  unfold decode
  cases instrOf (opcodeOf w) (operandOf w) <;> simp

theorem decode_congr {w v : CmdWord} (hopc : opcodeOf w = opcodeOf v)
    (hinstr : instrOf (opcodeOf w) (operandOf w) = instrOf (opcodeOf w) (operandOf v)) : decode w = decode v := by
  rw [decode, decode, hinstr, hopc]

theorem operandOf_lt (w : CmdWord) : operandOf w < 256 := (w.extractLsb' 0 8).isLt

/-- Settles O1: the word of a well-formed command carries its opcode and its operand, and these select the command. -/
theorem decodeEncodeRoundTrip : Obligations.DecodeEncodeRoundTrip := by
  unfold Obligations.DecodeEncodeRoundTrip
  intro i hwf
  obtain ⟨hopc, hopd⟩ := Laws.OpcodeOfTable.statement_of_fits fun h => Instr.wellFormed_iff.mp h
  rw [decode_eq_ok, hopc, hopd hwf, instrOf_eq_some]
  refine ⟨rfl, ?_⟩
  split_ifs with hmem
  · rfl
  · exact Instr.operand_eq_zero hmem

/-- Settles O2, by the table of R85: the opcode is that of the word, the operand is `OPD` or 0, and both fit. -/
theorem decodedWordFields : Obligations.DecodedWordFields := by
  unfold Obligations.DecodedWordFields
  intro w i hdec
  obtain ⟨hopc, hopd⟩ := instrOf_eq_some.mp (decode_eq_ok.mp hdec)
  refine ⟨?_, hopc, fun hmem => ?_⟩
  · rw [Instr.wellFormed_iff, hopd]
    split_ifs
    · exact operandOf_lt w
    · decide
  · rw [hopd, if_pos (hopc ▸ hmem)]
    rfl

/-- Settles O5: three words with an operand, two without one, of which one has a nonzero `OPD`, and an illegal word. -/
theorem decodeSampleWords : Obligations.DecodeSampleWords := by
  unfold Obligations.DecodeSampleWords
  decide

end Sys2Proof

namespace Sys2Proof.Machine

/-! ### The step of a command word (R80, R84, R229) -/

@[simp] theorem nextAction_present (w : CmdWord) (s : State) : nextAction (present w s) = some (.command w, s) := rfl

/-- Of the word that the host presents, a step sees what the decoder makes of it and nothing else (R80). -/
theorem step_present_congr {w v : CmdWord} (h : decode w = decode v) (s : State) :
    step (present w s) = step (present v s) := by
  rw [step, step, nextAction_present, nextAction_present]
  dsimp only
  rw [h]

/-- The step of a legal command word that the host presents next (R80, R89). -/
theorem step_command {s : State} {w : CmdWord} {rest : List HostAction} {i : Instr}
    (hpend : s.pending = .command w :: rest) (hdec : decode w = .ok i) :
    step s = exec i { s with pending := rest } := by
  rw [step, nextAction_cons s hpend]
  dsimp only
  rw [hdec]

theorem withFetchWord_toNat (s : State) (w : CmdWord) : s.withFetchWord 16 w.toNat = present w s := by
  rw [State.withFetchWord, Nat.mod_eq_of_lt w.isLt, BitVec.ofNat_toNat, BitVec.setWidth_eq]

/-- Settles O4: without an operand the two words select the same entry of the table of R85, and 0 is encoded. -/
theorem unusedOperandIgnored : Obligations.UnusedOperandIgnored := by
  unfold Obligations.UnusedOperandIgnored
  refine ⟨fun w v s hopc hmem => ?_, fun i hmem => ?_⟩
  · have hdec : decode w = decode v := decode_congr hopc (instrOf_congr hmem _ _)
    exact ⟨hdec, step_present_congr hdec s⟩
  · apply BitVec.eq_of_toNat_eq
    have hopd := Laws.OpcodeOfTable.operandOf_append i.opcode (BitVec.ofNat 8 i.operand)
    rw [Instr.operand_eq_zero hmem] at hopd
    rw [encode, Instr.operand_eq_zero hmem]
    exact hopd

/-- Settles O6: the presented word is the head of the host's list, and an empty list leaves the core idle. -/
theorem stepRunsDecodedCommand : Obligations.StepRunsDecodedCommand := by
  unfold Obligations.StepRunsDecodedCommand
  refine ⟨fun s w rest i hpend hdec => step_command hpend hdec, fun s w i hdec => ?_, fun s hpend => ?_⟩
  · rw [withFetchWord_toNat]
    exact step_command (s := present w s) rfl hdec
  · rw [step, nextAction_nil s hpend]

end Sys2Proof.Machine
end

section
/-! PROOF. O33: RAWD delivers the bits of its segment and then 1 for ever (R95, R134, R136, R137). -/

namespace Sys2Proof.Machine

/-! ### The bits of a segment (R62, R95) -/

@[simp] theorem byteBits_length (n : Nat) (b : Byte) : (byteBits n b).length = n := by simp [byteBits]

@[simp] theorem byteBits_zero (b : Byte) : byteBits 0 b = [] := rfl

theorem byteBits_succ (n : Nat) (b : Byte) : byteBits (n + 1) b = b.getLsbD n :: byteBits n b := by
  rw [byteBits, List.range_succ_eq_map, List.map_cons, List.map_map]
  refine congrArg₂ _ rfl (List.map_congr_left fun k _ => ?_)
  rw [Function.comp_apply, show n + 1 - 1 - k.succ = n - 1 - k by omega]

/-- The byte that RAWD synthesizes past the end has bits 1 only (R136). -/
theorem byteBits_ff : byteBits 8 0xFF = List.replicate 8 true := by decide

@[simp] theorem segBytes_zero (mem : Memory Byte) (base : Nat) : segBytes mem base 0 = [] := rfl

theorem segBytes_succ (mem : Memory Byte) (base len : Nat) :
    segBytes mem base (len + 1) = segByte mem base :: segBytes mem (base + 1) len := by
  rw [segBytes, List.range_succ_eq_map, List.map_cons, List.map_map]
  refine congrArg₂ _ rfl (List.map_congr_left fun k _ => ?_)
  rw [Function.comp_apply, Nat.succ_eq_add_one, Nat.add_right_comm, Nat.add_assoc]

@[simp] theorem segBytes_length (mem : Memory Byte) (base len : Nat) : (segBytes mem base len).length = len := by
  simp [segBytes]

/-- Every byte has 8 bits, one of which is lost directly after a `0xFF` (R137). -/
theorem rawBits_length (bs : List Byte) :
    ∀ after : Bool, (rawBits after bs).length + stuffed after bs = 8 * bs.length := by
  induction bs with
  | nil => exact fun _ => rfl
  | cons b bs ih =>
    intro after
    have htail := ih (decide (b = 0xFF))
    rw [rawBits, stuffed, List.length_append, byteBits_length, List.length_cons]
    cases after with
    | false => simp only [Bool.false_eq_true, if_false, Bool.toNat_false]; omega
    | true => simp only [if_true, Bool.toNat_true]; omega

/-! ### The bits that RAWD has still to deliver -/

/-- The bits of the segment not yet delivered: those left of the current byte, then those of the bytes not yet read. -/
def rawRest (mem : Memory Byte) (r : Rawd) : List Bool :=
  byteBits r.bits.toNat r.rt ++ rawBits (decide (r.rt = 0xFF)) (segBytes mem (r.base + r.rl) (r.len - r.rl))

/-- The bit that the decode after `k` others delivers: 1 past the end of the segment (R136). -/
def upcomingBit (mem : Memory Byte) (r : Rawd) (k : Nat) : Bool := (rawRest mem r).getD k true

section Unit

variable {mem : Memory Byte} {r : Rawd}

/-- While bytes are left, the fetch of the next one delivers nothing and loses nothing (R134). -/
theorem rawRest_rawFill (h0 : r.bits = 0) (hrl : r.rl < r.len) : rawRest mem (rawFill mem r) = rawRest mem r := by
  obtain ⟨n, hn⟩ : ∃ n, r.len - r.rl = n + 1 := ⟨r.len - r.rl - 1, by omega⟩
  rw [rawFill, if_neg (by omega), rawRest, rawRest, h0, hn, segBytes_succ, rawBits,
    show r.len - (r.rl + 1) = n by omega, ← Nat.add_assoc]
  by_cases hff : r.rt = 0xFF
  · rw [if_pos hff, decide_eq_true hff]; rfl
  · rw [if_neg hff, decide_eq_false hff]; rfl

theorem rawRest_end (h0 : r.bits = 0) (hrl : r.len ≤ r.rl) : rawRest mem r = [] := by
  simp [rawRest, h0, Nat.sub_eq_zero_of_le hrl, rawBits]

/-- Past the end a fetch gives eight bits 1 (R136). -/
theorem rawRest_rawFill_end (hrl : r.len ≤ r.rl) : rawRest mem (rawFill mem r) = List.replicate 8 true := by
  rw [rawFill_end mem r hrl, rawRest, Nat.sub_eq_zero_of_le hrl, segBytes_zero, rawBits, List.append_nil]
  exact byteBits_ff

/-- A fetch, of a byte of the segment or of a synthesized one, does not change the bits to come. -/
theorem upcomingBit_rawFill (h0 : r.bits = 0) (k : Nat) :
    upcomingBit mem (rawFill mem r) k = upcomingBit mem r k := by
  unfold upcomingBit
  rcases Nat.lt_or_ge r.rl r.len with hrl | hrl
  · rw [rawRest_rawFill h0 hrl]
  · rw [rawRest_rawFill_end hrl, rawRest_end h0 hrl]
    exact List.getElem?_getD_replicate_default_eq true 8 k

/-- The decrement of `Rt` takes the first of the bits to come (R134). -/
theorem rawRest_cons (h : r.bits ≠ 0) :
    rawRest mem r = r.rt.getLsbD (r.bits - 1).toNat :: rawRest mem { r with bits := r.bits - 1 } := by
  have hbits : r.bits.toNat = (r.bits - 1).toNat + 1 := by bv_omega
  rw [rawRest, hbits, byteBits_succ]
  rfl

/-- `RawDecode()`, once: it delivers the first of the bits to come and leaves the others (R134, R136). -/
theorem rawDecode_upcomingBit (mem : Memory Byte) (r : Rawd) :
    (rawDecode mem r).1 = upcomingBit mem r 0 ∧
    ∀ k, upcomingBit mem (rawDecode mem r).2 k = upcomingBit mem r (k + 1) := by
  have htake : ∀ q : Rawd, q.bits ≠ 0 → q.rt.getLsbD (q.bits - 1).toNat = upcomingBit mem q 0 ∧
      ∀ k, upcomingBit mem { q with bits := q.bits - 1 } k = upcomingBit mem q (k + 1) := fun q hq => by
    unfold upcomingBit
    rw [rawRest_cons hq]
    exact ⟨rfl, fun _ => rfl⟩
  by_cases h0 : r.bits = 0
  · have hfill : (rawFill mem r).bits ≠ 0 := by rcases rawFill_bits mem r with h | h <;> simp [h]
    simpa only [rawDecode, if_pos h0, upcomingBit_rawFill h0] using htake _ hfill
  · simpa only [rawDecode, if_neg h0] using htake r h0

end Unit

/-! ### The replies of the commands (R87, R135) -/

theorem exec_completes {i : Instr} {s : State} {data : BitVec 2} (h : verdict i s = .completes data) :
    exec i s = .next (respond data (effect i s)) := by
  rw [exec_eq_outcome, h, Verdict.outcome]

theorem replies_succ {i : Instr} {s t : State} (h : exec i s = .next t) (n : Nat) :
    replies i (n + 1) s = t.rsp :: replies i n t := by
  rw [replies, h]

theorem packRsp_bitData (d : Bool) : packRsp 0 (bitData d) = if d then 1 else 0 := by cases d <;> rfl

/-- Any number of `RAW.DECODEU` answer the bits to come, one each (R135). -/
theorem replies_rawDecodeu (n : Nat) : ∀ s : State, s.raw.rdy = true → segInside s.cfg s.raw.base s.raw.len = true →
    replies .rawDecodeu n s = (List.range n).map fun k => if upcomingBit s.segmem s.raw k then 1 else 0 := by
  induction n with
  | zero => exact fun _ _ _ => rfl
  | succ n ih =>
    intro s hrdy hin
    obtain ⟨hfirst, hrest⟩ := rawDecode_upcomingBit s.segmem s.raw
    have hverdict : verdict .rawDecodeu s = .completes (bitData (rawDecode s.segmem s.raw).1) :=
      unitVerdict_completes.mpr ⟨hrdy, hin, rfl⟩
    rw [replies_succ (exec_completes hverdict), ih _ (by simpa [effect] using hrdy) (by simpa [effect] using hin),
      List.range_succ_eq_map, List.map_cons, List.map_map, respond_rsp, packRsp_bitData, hfirst]
    refine congrArg₂ _ rfl (List.map_congr_left fun k _ => ?_)
    rw [Function.comp_apply, Nat.succ_eq_add_one, ← hrest]
    rfl

/-- The first `n` bits of a list that continues with 1 for ever. -/
theorem take_append_replicate_true (bs : List Bool) (n : Nat) :
    (bs ++ List.replicate n true).take n = (List.range n).map fun k => bs.getD k true := by
  refine List.ext_getElem (by simp) fun k hk _ => ?_
  simp only [List.getElem_take, List.getElem_map, List.getElem_range, List.getD_eq_getElem?_getD]
  rcases Nat.lt_or_ge k bs.length with hlt | hge
  · simp [List.getElem_append_left, hlt]
  · simp [List.getElem_append_right, hge]

/-- Right after a restart the bits to come are those of the segment (R133). -/
theorem rawRest_restart (mem : Memory Byte) (r : Rawd) :
    rawRest mem { r with rt := 0, bits := 0, rl := 0, rdy := true } = rawBits false (segBytes mem r.base r.len) := rfl

/-- Settles O33: the restart makes all bits of the segment bits to come, and the decodes answer them in order. -/
theorem rawSegmentBits : Obligations.RawSegmentBits := by
  unfold Obligations.RawSegmentBits
  intro s hraw hatt
  have hverdict : verdict .rawRestart s = .completes 0 := unitVerdict_completes.mpr ⟨hatt, rfl, rfl⟩
  have hin : segInside s.cfg s.raw.base s.raw.len = true := raw_segInside_of_att hraw hatt
  refine ⟨respond 0 (effect .rawRestart s), exec_completes hverdict, fun n => ?_, ?_⟩
  · rw [replies_rawDecodeu n (respond 0 (effect .rawRestart s)) rfl hin, take_append_replicate_true, List.map_map]
    refine List.map_congr_left fun k _ => ?_
    rw [Function.comp_apply, ← rawRest_restart]
    rfl
  · rw [rawBits_length, segBytes_length]

end Sys2Proof.Machine
end

section
/-! PROOF. O15, O16, O17, O18 and O19: the probability table, and the commands of MQD that prepare a decode (R101 to
R105). -/

namespace Sys2Proof.Machine

/-! ### The probability table (R101) -/

/-- `SWITCH` is 1 in the rows 0, 6 and 14 only (R101). -/
theorem mqRow_switch_iff : ∀ i : Fin 47,
    (mqRow (BitVec.ofNat 6 i)).switch = true ↔ i = 0 ∨ i = 6 ∨ i = 14 := by decide +kernel

/-- The row of the equiprobable context: an event of either kind leaves its state and its symbol as they are (R101). -/
theorem mqRow_46 : mqRow 46#6 = { qe := 0x5601, nmps := 46, nlps := 46, switch := false } := rfl

/-- Settles O15: the bounds of every row, and the three rows and two fixed states the rule names. -/
theorem mqTableProperties : Obligations.MqTableProperties := by
  unfold Obligations.MqTableProperties
  refine ⟨rfl, fun i => ?_⟩
  have hrow : BitVec.ofNat 6 i ≤ 46 := by
    have hi := i.isLt
    rw [BitVec.le_def, BitVec.toNat_ofNat, Nat.mod_eq_of_lt (by omega)]
    exact Nat.le_of_lt_succ hi
  obtain ⟨⟨hqe1, hqe2⟩, hnmps, hnlps⟩ := mqRow_bounds _ hrow
  refine ⟨hnmps, hnlps, mqRow_switch_iff i, hqe1, hqe2, ?_, ?_⟩
  · rintro rfl
    exact ⟨rfl, rfl⟩
  · rintro rfl
    rfl

/-! ### Refusals, and the reset and the attach (R102, R103, R214, R215) -/

/-- A refused command other than `CB.ATTACH` leaves everything but `FLT` and `RSP` as it was (R210). -/
theorem exec_refused {i : Instr} {s : State} {e : ErrCode} (h : verdict i s = .refused e) (hi : i ≠ .cbAttach) :
    exec i s = .next (refuse e s) := by
  have he : e ≠ .desc := fun he => hi (verdict_desc (he ▸ h))
  rw [exec_eq_outcome, h, Verdict.outcome, refusalEffect, if_neg he]

/-- Settles O16: the state after the reset, and the startup states. -/
theorem mqResetResult : Obligations.MqResetResult := by
  unfold Obligations.MqResetResult
  exact fun s => ⟨respond 0 (effect .mqReset s), exec_completes rfl, rfl, startupContexts_get⟩

/-- Settles O17: the slot operand is an entry exactly for a usable slot. -/
theorem mqAttachResult : Obligations.MqAttachResult := by
  unfold Obligations.MqAttachResult
  refine fun slot s => ⟨fun husable => ?_, fun hnot => ?_⟩
  · have hverdict : verdict (.mqAttach slot) s = .completes 0 := by
      rw [verdict, slotOperand_eq_some.mpr ⟨husable, rfl⟩]
      rfl
    exact exec_completes hverdict
  · have hverdict : verdict (.mqAttach slot) s = .refused .slot := by
      rw [verdict, slotOperand_eq_none.mpr hnot]
      rfl
    exact exec_refused hverdict nofun

/-! ### The byte fill (R104) -/

section Fill

variable {mem : Memory Byte} {m : Mqd} {b : Byte}

/-- At a marker a fill synthesizes a byte, reports the marker and does not move the cursor. -/
theorem fillLSB_marker (hb : segByte mem (m.base + m.l) = b) (hl : m.l < m.len) (htr : m.tr = 0xFF) (hmark : 0x8F < b) :
    fillLSB mem m = { m with c := m.c + 0xFF, t := 8, mrk := true } := by
  rw [fillLSB, if_neg (Nat.not_le.mpr hl), hb, if_pos ⟨htr, hmark⟩, fillPad]

/-- After a `0xFF` a fill takes the 7 bits of a byte that is no marker. -/
theorem fillLSB_stuffed (hb : segByte mem (m.base + m.l) = b) (hl : m.l < m.len) (htr : m.tr = 0xFF) (hle : b ≤ 0x8F) :
    fillLSB mem m = { m with c := m.c + b.setWidth 32 <<< 1, t := 7, tr := b, l := m.l + 1 } := by
  rw [fillLSB, if_neg (Nat.not_le.mpr hl), hb, if_neg fun h => BitVec.not_lt.mpr hle h.2, fillByte, if_pos htr]

/-- After any other byte a fill takes the 8 bits of the next one. -/
theorem fillLSB_ordinary (hb : segByte mem (m.base + m.l) = b) (hl : m.l < m.len) (htr : m.tr ≠ 0xFF) :
    fillLSB mem m = { m with c := m.c + b.setWidth 32, t := 8, tr := b, l := m.l + 1 } := by
  rw [fillLSB, if_neg (Nat.not_le.mpr hl), hb, if_neg fun h => htr h.1, fillByte, if_neg htr]

/-- Settles O18: the four cases of the fill. -/
theorem fillByteRule : Obligations.FillByteRule := by
  unfold Obligations.FillByteRule
  exact fun mem m b hb =>
    ⟨fillLSB_end mem m, fillLSB_marker hb, fillLSB_stuffed hb, fillLSB_ordinary hb⟩

/-! ### The restart (R105) -/

/-- On an empty segment the first fill of a restart synthesizes its byte. -/
theorem restartFirst_empty (hlen : m.len = 0) :
    restartFirst mem m = { m with mrk := false, tr := 0, l := 0, c := 0xFF00, t := 8 } := by
  rw [restartFirst, fillLSB_end mem (restartClear m) (Nat.le_of_eq hlen)]
  simp [restartClear]

/-- The first fill of a restart takes the first byte of the segment whole. -/
theorem restartFirst_byte (hb : segByte mem m.base = b) (hlen : 0 < m.len) :
    restartFirst mem m = { m with mrk := false, tr := b, l := 1, c := b.setWidth 32 <<< 8, t := 8 } := by
  rw [restartFirst, fillLSB_ordinary (m := restartClear m) hb hlen (by decide : (0 : Byte) ≠ 0xFF)]
  simp [restartClear]

/-- The second fill of a restart completes it. -/
theorem mqRestart_eq {m1 m2 : Mqd} (hfirst : restartFirst mem m = m1) (hsecond : fillLSB mem m1 = m2) :
    mqRestart mem m = { m2 with c := m2.c <<< 7, t := m2.t - 7, a := 0x8000, rdy := true } := by
  rw [mqRestart, hfirst, hsecond]

end Fill

/-- `MQ.RESTART` without a segment is refused, and with one it restarts (R105). -/
theorem exec_mqRestart_refused {s : State} (h : s.mq.att = false) : exec .mqRestart s = .next (refuse .seq s) :=
  exec_refused (unitVerdict_refused.mpr ⟨h, rfl⟩) nofun

theorem exec_mqRestart {s : State} (hatt : s.mq.att = true) (hseg : s.mq.base + s.mq.len ≤ s.cfg.segsize) :
    exec .mqRestart s = .next (respond 0 { s with mq := mqRestart s.segmem s.mq }) :=
  exec_completes (unitVerdict_completes.mpr ⟨hatt, decide_eq_true hseg, rfl⟩)

/-- Two synthesized bytes and the shift by 7 (R105). -/
theorem synthesized_word : ((0xFF00 : Reg32) + 0xFF) <<< 7 = 0x007FFF80 := by decide

/-- Settles O19: the first fill takes the first byte if there is one, and the second fill is one of the four cases. -/
theorem mqRestartResult : Obligations.MqRestartResult := by
  unfold Obligations.MqRestartResult
  intro s b0 b1 hb0 hb1
  refine ⟨exec_mqRestart_refused, fun hatt hseg => ?_⟩
  rw [exec_mqRestart hatt hseg]
  refine ⟨fun hlen => ?_, fun hlen => ?_, fun hlen hff => ?_, fun hlen hff hle => ?_, fun hlen hff hmark => ?_⟩
  · rw [mqRestart_eq (restartFirst_empty hlen) (fillLSB_end _ _ (Nat.le_of_eq hlen))]
    simp only [respond, packRsp, synthesized_word]
    rfl
  · rw [mqRestart_eq (restartFirst_byte hb0 (by omega)) (fillLSB_end _ _ (Nat.le_of_eq hlen))]
    simp [respond, packRsp]
  · rw [mqRestart_eq (restartFirst_byte hb0 (by omega)) (fillLSB_ordinary hb1 hlen hff)]
    simp [respond, packRsp]
  · rw [mqRestart_eq (restartFirst_byte hb0 (by omega)) (fillLSB_stuffed hb1 hlen hff hle)]
    simp [respond, packRsp, hff]
  · rw [mqRestart_eq (restartFirst_byte hb0 (by omega)) (fillLSB_marker hb1 hlen hff hmark)]
    simp [respond, packRsp, hff]

end Sys2Proof.Machine
end

section
/-! PROOF. O20, O21 and O22: the renormalisation and the two commands of a decode (R106 to R108). -/

namespace Sys2Proof.Machine

/-! ### The steps of the renormalisation (R106) -/

section Renorm

variable {mem : Memory Byte} {m : Mqd}

/-- Where bits are pending, `RenormOnce` reads no byte. -/
theorem renormOnce_pending (h : m.t ≠ 0) :
    renormOnce mem m = { m with a := m.a <<< 1, c := m.c <<< 1, t := m.t - 1 } := by
  rw [renormOnce, if_neg h]

/-- Where no bit is pending, `RenormOnce` fills before it shifts. -/
theorem renormOnce_fill (h : m.t = 0) : renormOnce mem m = { fillLSB mem m with
    a := m.a <<< 1, c := (fillLSB mem m).c <<< 1, t := (fillLSB mem m).t - 1 } := by
  rw [renormOnce, if_pos h, fillLSB_a]

/-- Each `RenormOnce` doubles the interval, as long as it fits the register. -/
theorem iterate_renormOnce_a (k : Nat) (h : m.a.toNat * 2 ^ k < 2 ^ 32) :
    ((renormOnce mem)^[k] m).a.toNat = m.a.toNat * 2 ^ k := by
  induction k with
  | zero => simp
  | succ k ih =>
    rw [pow_succ, ← Nat.mul_assoc] at h ⊢
    rw [Function.iterate_succ_apply', renormOnce_a, BitVec.toNat_shiftLeft, ih (by omega), Nat.shiftLeft_eq]
    exact Nat.mod_eq_of_lt h

/-- `k` is the number of doublings that bring the interval `a` to `0x8000` or above, and no smaller one does (R106). -/
structure Doublings (a k : Nat) : Prop where
  le : k ≤ 15
  reaches : 0x8000 ≤ a * 2 ^ k
  first : ∀ j, j < k → a * 2 ^ j < 0x8000

/-- An interval that is below `0x8000` is doubled at least once, and ends below `0x10000`. -/
theorem Doublings.bounds {a k : Nat} (h : Doublings a k) (ha : a < 0x8000) : 1 ≤ k ∧ a * 2 ^ k ≤ 0xFFFE := by
  obtain ⟨_, hreaches, hfirst⟩ := h
  cases k with
  | zero => omega
  | succ k =>
    have hlast := hfirst k (Nat.lt_succ_self k)
    rw [pow_succ, ← Nat.mul_assoc]
    omega

/-- The interval along the steps of the renormalisation, none of which leaves the register. -/
theorem Doublings.iterate_a {k : Nat} (h : Doublings m.a.toNat k) (ha : m.a < 0x8000) {j : Nat} (hj : j ≤ k) :
    ((renormOnce mem)^[j] m).a.toNat = m.a.toNat * 2 ^ j := by
  have hend := (h.bounds (BitVec.lt_def.mp ha)).2
  have hle : m.a.toNat * 2 ^ j ≤ m.a.toNat * 2 ^ k :=
    Nat.mul_le_mul_left _ (Nat.pow_le_pow_right Nat.two_pos hj)
  exact iterate_renormOnce_a j (by omega)

/-- `Renorm` on the values it is called with makes as many steps as the interval needs doublings. -/
theorem renorm_doublings (h1 : 1 ≤ m.a) (h2 : m.a < 0x8000) :
    ∃ k, Doublings m.a.toNat k ∧ renorm mem m = (renormOnce mem)^[k] m := by
  obtain ⟨k, hk1, hk, hrenorm, hlo, hhi⟩ := renorm_spec mem m h1 h2
  have ha : m.a.toNat < 0x8000 := BitVec.lt_def.mp h2
  have hpow : 2 ^ k ≤ 2 ^ 15 := Nat.pow_le_pow_right Nat.two_pos hk
  have hend : m.a.toNat * 2 ^ k = (renorm mem m).a.toNat := by
    rw [hrenorm, iterate_renormOnce_a k]
    calc m.a.toNat * 2 ^ k ≤ m.a.toNat * 2 ^ 15 := Nat.mul_le_mul_left _ hpow
      _ < 2 ^ 32 := by omega
  refine ⟨k, ⟨hk, hend ▸ hlo, fun j hj => ?_⟩, hrenorm⟩
  have hdouble : m.a.toNat * 2 ^ j * 2 ≤ m.a.toNat * 2 ^ k := by
    rw [Nat.mul_assoc, ← pow_succ]
    exact Nat.mul_le_mul_left _ (Nat.pow_le_pow_right Nat.two_pos hj)
  omega

/-- The renormalisation where the interval needs one, and no step where it does not. -/
theorem renorm_ite_doublings (h1 : 1 ≤ m.a) :
    ∃ k, Doublings m.a.toNat k ∧ (if m.a < 0x8000 then renorm mem m else m) = (renormOnce mem)^[k] m := by
  split_ifs with h2
  · exact renorm_doublings h1 h2
  · exact ⟨0, ⟨Nat.zero_le _, by simpa [BitVec.lt_def] using h2, nofun⟩, rfl⟩

end Renorm

/-- Settles O20: the two cases of `RenormOnce`, and the number of steps as the number of doublings. -/
theorem renormRule : Obligations.RenormRule := by
  unfold Obligations.RenormRule
  refine fun mem m => ⟨renormOnce_pending, renormOnce_fill, fun h1 h2 => ?_⟩
  obtain ⟨k, hdoublings, hrenorm⟩ := renorm_doublings (mem := mem) h1 h2
  obtain ⟨hk1, hmax⟩ := hdoublings.bounds (BitVec.lt_def.mp h2)
  have hend := hdoublings.iterate_a (mem := mem) h2 le_rfl
  refine ⟨k, hk1, hdoublings.le, hrenorm, fun j hj => ?_, ?_, ?_⟩
  · rw [BitVec.lt_def, hdoublings.iterate_a h2 hj.le]
    exact hdoublings.first j hj
  · rw [BitVec.le_def, hrenorm, hend]
    exact hdoublings.reaches
  · rw [BitVec.le_def, hrenorm, hend]
    exact hmax

/-! ### One decode (R107)

The event of a decode, named as O21 states it: the subinterval the code register lies in, whether the less probable
symbol is decoded, and the registers before the renormalisation. -/

/-- `CA < Qe`: the code register lies in the lower subinterval. -/
def inLower (row : MqRow) (m : Mqd) : Bool := decide (m.c.extractLsb' 8 16 < row.qe)

/-- `A - Qe`. -/
def upperLength (row : MqRow) (m : Mqd) : Nat := m.a.toNat - row.qe.toNat

/-- The less probable symbol is decoded: the symbol of the lower subinterval, exchanged where that is the longer one. -/
def lpsEvent (row : MqRow) (m : Mqd) : Bool :=
  if inLower row m then decide (row.qe.toNat ≤ upperLength row m) else decide (upperLength row m < row.qe.toNat)

/-- The length of the subinterval the code register lies in. -/
def eventLength (row : MqRow) (m : Mqd) : Nat := if inLower row m then row.qe.toNat else upperLength row m

/-- The context after the event: adapted where the decode renormalises. -/
def eventEntry (row : MqRow) (e : CtxEntry) (m : Mqd) : CtxEntry :=
  if lpsEvent row m then { idx := row.nlps, mps := Bool.xor e.mps row.switch }
  else if inLower row m || decide (upperLength row m < 0x8000) then { idx := row.nmps, mps := e.mps } else e

/-- The registers after the event, before the renormalisation. -/
def eventRegs (row : MqRow) (cx : Fin 19) (m : Mqd) : Mqd :=
  { m with
    a := BitVec.ofNat 32 (eventLength row m)
    c := if inLower row m then m.c else m.c - row.qe.setWidth 32 <<< 8
    ctx := m.ctx.set cx (eventEntry row m.ctx[cx] m) }

theorem lpsEntry_eq (e : CtxEntry) :
    lpsEntry e = { idx := (mqRow e.idx).nlps, mps := Bool.xor e.mps (mqRow e.idx).switch } := by
  unfold lpsEntry
  cases (mqRow e.idx).switch <;> simp

section Decode

variable {mem : Memory Byte} {m : Mqd} {cx : Fin 19}

theorem inLower_iff {row : MqRow} : inLower row m = true ↔ activeSlice m.c < row.qe := decide_eq_true_iff

/-- `A - Qe` does not wrap, as `Qe` is below `0x8000` and `A` is not (R107, R109). -/
theorem upperLength_toNat {row : MqRow} (hq : row.qe ≤ 0x5601) (hlo : 0x8000 ≤ m.a) :
    (m.a - row.qe.setWidth 32).toNat = upperLength row m := by
  unfold upperLength
  bv_omega

/-- The length of the upper subinterval, as the model compares it and as a number. -/
theorem upperLength_lt_qe {row : MqRow} (hq : row.qe ≤ 0x5601) (hlo : 0x8000 ≤ m.a) :
    m.a - row.qe.setWidth 32 < row.qe.setWidth 32 ↔ upperLength row m < row.qe.toNat := by
  rw [BitVec.lt_def, upperLength_toNat hq hlo, BitVec.toNat_setWidth_of_le (by decide)]

/-- The interval after the event is a proper one, and fits the register. -/
theorem eventLength_range {row : MqRow} (hq1 : 1 ≤ row.qe) (hq : row.qe ≤ 0x5601) (hlo : 0x8000 ≤ m.a) :
    1 ≤ eventLength row m ∧ eventLength row m < 2 ^ 32 := by
  have hlt := m.a.isLt
  unfold eventLength upperLength
  split_ifs <;> constructor <;> bv_omega

/-- In the lower subinterval the registers take `A = Qe`, which asks for a renormalisation. -/
theorem eventRegs_lower {row : MqRow} (h : inLower row m = true) :
    eventRegs row cx m = { m with a := row.qe.setWidth 32, ctx := m.ctx.set cx (eventEntry row m.ctx[cx] m) } := by
  rw [eventRegs, eventLength, if_pos h, if_pos h, BitVec.ofNat_toNat]

/-- In the upper subinterval `A` and `CA` both lose `Qe`. -/
theorem eventRegs_upper {row : MqRow} (hq : row.qe ≤ 0x5601) (hlo : 0x8000 ≤ m.a) (h : ¬ inLower row m = true) :
    eventRegs row cx m = { m with
      a := m.a - row.qe.setWidth 32
      c := m.c - row.qe.setWidth 32 <<< 8
      ctx := m.ctx.set cx (eventEntry row m.ctx[cx] m) } := by
  rw [eventRegs, eventLength, if_neg h, if_neg h, ← upperLength_toNat hq hlo, BitVec.ofNat_toNat, BitVec.setWidth_eq]

theorem qe_lt {row : MqRow} (hq : row.qe ≤ 0x5601) : row.qe.setWidth 32 < 0x8000 := by bv_omega

/-- The decode in terms of its event: a renormalisation exactly where the interval is below `0x8000` (R107). -/
theorem mqDecode_event {row : MqRow} (hrow : mqRow m.ctx[cx].idx = row) (hq : row.qe ≤ 0x5601) (hlo : 0x8000 ≤ m.a) :
    mqDecode mem cx m = (Bool.xor m.ctx[cx].mps (lpsEvent row m),
      if (eventRegs row cx m).a < 0x8000 then renorm mem (eventRegs row cx m) else eventRegs row cx m) := by
  have hmps : mpsEntry m.ctx[cx] = { idx := row.nmps, mps := m.ctx[cx].mps } := by rw [mpsEntry, hrow]
  have hlps : lpsEntry m.ctx[cx] = { idx := row.nlps, mps := Bool.xor m.ctx[cx].mps row.switch } := by
    rw [lpsEntry_eq, hrow]
  unfold mqDecode
  dsimp only
  rw [hrow, hmps, hlps]
  by_cases hlow : inLower row m = true
  · rw [if_pos (inLower_iff.mp hlow), eventRegs_lower hlow, if_pos (qe_lt hq)]
    by_cases hlt : upperLength row m < row.qe.toNat
    · rw [if_pos ((upperLength_lt_qe hq hlo).mpr hlt)]
      simp [eventEntry, lpsEvent, hlow, Nat.not_le.mpr hlt]
    · rw [if_neg (mt (upperLength_lt_qe hq hlo).mp hlt)]
      simp [eventEntry, lpsEvent, hlow, Nat.le_of_not_lt hlt]
  · rw [if_neg (mt inLower_iff.mpr hlow), eventRegs_upper hq hlo hlow]
    have hshort : m.a - row.qe.setWidth 32 < 0x8000 ↔ upperLength row m < 0x8000 := by
      rw [BitVec.lt_def, upperLength_toNat hq hlo]
      exact Iff.rfl
    by_cases hlt : upperLength row m < row.qe.toNat
    · have hrenorm : upperLength row m < 0x8000 := by bv_omega
      rw [if_pos (hshort.mpr hrenorm), if_pos ((upperLength_lt_qe hq hlo).mpr hlt), if_pos (hshort.mpr hrenorm)]
      simp [eventEntry, lpsEvent, hlow, hlt]
    · by_cases hrenorm : upperLength row m < 0x8000
      · rw [if_pos (hshort.mpr hrenorm), if_neg (mt (upperLength_lt_qe hq hlo).mp hlt), if_pos (hshort.mpr hrenorm)]
        simp [eventEntry, lpsEvent, hlow, hlt, hrenorm]
      · rw [if_neg (mt hshort.mp hrenorm), if_neg (mt hshort.mp hrenorm)]
        simp [eventEntry, lpsEvent, hlow, hlt, hrenorm]

/-- The decode as so many steps of the renormalisation on the registers after the event. -/
theorem mqDecode_steps {row : MqRow} (hrow : mqRow m.ctx[cx].idx = row) (hidx : m.ctx[cx].idx ≤ 46)
    (hlo : 0x8000 ≤ m.a) : ∃ k, Doublings (eventLength row m) k ∧
      mqDecode mem cx m = (Bool.xor m.ctx[cx].mps (lpsEvent row m), (renormOnce mem)^[k] (eventRegs row cx m)) := by
  obtain ⟨⟨hq1, hq⟩, _, _⟩ := mqRow_bounds _ hidx
  rw [hrow] at hq1 hq
  obtain ⟨hpos, hfit⟩ := eventLength_range hq1 hq hlo
  have ha : (eventRegs row cx m).a.toNat = eventLength row m := Nat.mod_eq_of_lt hfit
  obtain ⟨k, hdoublings, hsteps⟩ := renorm_ite_doublings (mem := mem) (m := eventRegs row cx m)
    (by rw [BitVec.le_def, ha]; exact hpos)
  exact ⟨k, ha ▸ hdoublings, by rw [mqDecode_event hrow hq hlo, hsteps]⟩

end Decode

/-! ### The commands (R107, R108) -/

theorem verdict_mqDecode {cx : Nat} (h : cx < 19) (s : State) :
    verdict (.mqDecode cx) s =
      unitVerdict s.mq.rdy (segInside s.cfg s.mq.base s.mq.len) (bitData (decodeBit cx s).1) := by
  rw [verdict, if_pos h]

theorem exec_mqDecodeu (s : State) : exec .mqDecodeu s = exec (.mqDecode 18) s := rfl

/-- A context number above 18 is refused before anything else is tested (R82, R213, R220). -/
theorem exec_mqDecode_noContext {cx : Nat} (hcx : 18 < cx) (s : State) :
    exec (.mqDecode cx) s = .next (refuse .ctx s) := by
  have hverdict : verdict (.mqDecode cx) s = .refused .ctx := by
    rw [verdict, if_neg (Nat.not_lt.mpr hcx)]
  exact exec_refused hverdict (by simp)

theorem exec_mqDecode_notReady {cx : Nat} {s : State} (hcx : cx < 19) (h : s.mq.rdy = false) :
    exec (.mqDecode cx) s = .next (refuse .seq s) :=
  exec_refused (by rw [verdict_mqDecode hcx, unitVerdict_refused]; exact ⟨h, rfl⟩) (by simp)

/-- Once `RDY`, every decode on one of the 19 contexts completes (R107, R110). -/
theorem exec_mqDecode {cx : Nat} {s : State} (hcx : cx < 19) (hok : MqOk s) (hrdy : s.mq.rdy = true) :
    exec (.mqDecode cx) s = .next (respond (bitData (decodeBit cx s).1) (decodeBit cx s).2) := by
  have hinside := mq_segInside_of_att hok (mq_att_of_rdy hok hrdy)
  refine exec_completes ?_
  rw [verdict_mqDecode hcx, unitVerdict_completes]
  exact ⟨hrdy, hinside, rfl⟩

/-- Settles O21: the refusals, and the decode as its event and the steps of the renormalisation. -/
theorem mqDecodeResult : Obligations.MqDecodeResult := by
  unfold Obligations.MqDecodeResult
  intro cx s hok
  refine ⟨fun hcx => exec_mqDecode_noContext hcx s,
    fun hcx hrdy => exec_mqDecode_notReady (Nat.lt_succ_of_le hcx) hrdy, fun hcx hrdy => ?_⟩
  have hnum : Fin.ofNat 19 cx = ⟨cx, hcx⟩ := Fin.ext (Nat.mod_eq_of_lt hcx)
  have hexec := exec_mqDecode hcx hok hrdy
  obtain ⟨hidx, _, hready⟩ := hok
  obtain ⟨_, ⟨hlo, _⟩, _, _⟩ := hready hrdy
  obtain ⟨k, ⟨hk, hreaches, hfirst⟩, hdecode⟩ :=
    mqDecode_steps (mem := s.segmem) (cx := ⟨cx, hcx⟩) rfl (hidx ⟨cx, hcx⟩) hlo
  refine ⟨k, hk, hreaches, hfirst, ?_⟩
  rw [hexec, decodeBit, hnum, hdecode, respond, packRsp_bitData]
  rfl

/-- Settles O22: context 18 read through O21, where the row of state 46 leaves the entry as it was. -/
theorem mqDecodeuResult : Obligations.MqDecodeuResult := by
  unfold Obligations.MqDecodeuResult
  intro s
  refine ⟨exec_mqDecodeu s, exec_mqDecode_notReady (cx := 18) (by decide), fun hok hfixed hrdy => ?_⟩
  obtain ⟨_, _, hresult⟩ := mqDecodeResult 18 s hok
  have h18 : s.mq.ctx[18] = { idx := 46#6, mps := false } := hfixed
  have hset : s.mq.ctx.set 18 { idx := 46#6, mps := false } = s.mq.ctx := by
    rw [← h18, Vector.set_getElem_self]
  have hresult := hresult (by decide) hrdy
  rw [exec_mqDecodeu]
  simpa [h18, mqRow_46, hset] using hresult

end Sys2Proof.Machine
end

section
/-! PROOF. O23, O24 and O28: what the commands of MQD leave alone, and what a list of decodes and a step keep (R27, R100,
R101, R108, R110, R111, R113). -/

namespace Sys2Proof.Machine

/-! ### The parts of MQD that the operations write (R100) -/

theorem effect_of_mq {i : Instr} (hi : commandUnit i = 0) (s : State) :
    effect i s = { s with mq := (effect i s).mq } := by
  cases i with
  | mqReset => rfl
  | mqAttach slot => rfl
  | mqRestart => rfl
  | mqDecode cx => rfl
  | mqDecodeu => rfl
  | rawAttach slot => rw [commandUnit_rawAttach] at hi; cases hi
  | rawDecode cx => rw [commandUnit_rawDecode] at hi; cases hi
  | rawReset => cases hi
  | rawRestart => cases hi
  | rawDecodeu => cases hi
  | cbAttach => cases hi
  | cbStep => cases hi
  | cbRun => cases hi

/-- A command of MQD writes nothing but MQD, `RSP` and `FLT`, and MQD only where it completes. -/
theorem exec_of_mq {i : Instr} {s t : State} (hi : commandUnit i = 0) (h : exec i s = .next t) :
    t = { s with rsp := t.rsp, flt := t.flt, mq := t.mq } ∧ (t.mq = (effect i s).mq ∨ t.mq = s.mq) := by
  rcases exec_next h with ⟨data, _, rfl⟩ | ⟨e, hv, rfl⟩
  · rw [effect_of_mq hi s]
    exact ⟨rfl, .inl rfl⟩
  · have he : e ≠ .desc := by
      rintro rfl
      cases verdict_desc hv
      cases hi
    rw [refusalEffect, if_neg he]
    exact ⟨rfl, .inr rfl⟩

section Unit

variable (mem : Memory Byte) (m : Mqd)

theorem mqRestart_frame : mqRestart mem m = { m with
    a := (mqRestart mem m).a, c := (mqRestart mem m).c, t := (mqRestart mem m).t, tr := (mqRestart mem m).tr
    l := (mqRestart mem m).l, rdy := (mqRestart mem m).rdy, mrk := (mqRestart mem m).mrk } := by
  rw [← mqRestart_base mem m, ← mqRestart_len mem m, ← mqRestart_att mem m, ← mqRestart_ctx mem m]

theorem mqDecode_frame (cx : Fin 19) : (mqDecode mem cx m).2 = { m with
    a := (mqDecode mem cx m).2.a, c := (mqDecode mem cx m).2.c, t := (mqDecode mem cx m).2.t
    tr := (mqDecode mem cx m).2.tr, l := (mqDecode mem cx m).2.l, mrk := (mqDecode mem cx m).2.mrk
    ctx := (mqDecode mem cx m).2.ctx } := by
  rw [← mqDecode_base mem m cx, ← mqDecode_len mem m cx, ← mqDecode_att mem m cx, ← mqDecode_rdy mem m cx]

end Unit

/-- A decode by command writes one context at most: one that completes has a context below 19, and writes that one. -/
theorem exec_mqDecode_ctx_other {cx : Nat} {s t : State} (h : exec (.mqDecode cx) s = .next t) {k : Fin 19}
    (hk : k.val ≠ cx) : t.mq.ctx[k] = s.mq.ctx[k] := by
  rcases Nat.lt_or_ge 18 cx with hcx | hcx
  · cases (exec_mqDecode_noContext hcx s).symm.trans h
    rfl
  · obtain ⟨_, hmq | hmq⟩ := exec_of_mq (commandUnit_mqDecode cx) h
    · have hne : k ≠ Fin.ofNat 19 cx := fun heq => hk (heq ▸ Nat.mod_eq_of_lt (Nat.lt_succ_of_le hcx))
      rw [hmq]
      exact mqDecode_ctx_other s.segmem s.mq _ hne
    · rw [hmq]

/-- Settles O23: each operation writes its own part of MQD where it completes, and no part where it is refused. -/
theorem mqOperationsDisjoint : Obligations.MqOperationsDisjoint := by
  unfold Obligations.MqOperationsDisjoint
  refine fun s t => ⟨fun h => ?_, fun slot h => ?_, fun h => ?_, fun cx h => ?_⟩
  · obtain ⟨ht, hmq⟩ := exec_of_mq rfl h
    have hframe : t.mq = { s.mq with ctx := t.mq.ctx } := by
      rcases hmq with hmq | hmq <;> rw [hmq]
      rfl
    rwa [← hframe]
  · obtain ⟨ht, hmq⟩ := exec_of_mq (commandUnit_mqAttach slot) h
    have hframe : t.mq = { s.mq with base := t.mq.base, len := t.mq.len, att := t.mq.att, rdy := t.mq.rdy } := by
      rcases hmq with hmq | hmq <;> rw [hmq]
      rfl
    rwa [← hframe]
  · obtain ⟨ht, hmq⟩ := exec_of_mq rfl h
    have hframe : t.mq = { s.mq with
        a := t.mq.a, c := t.mq.c, t := t.mq.t, tr := t.mq.tr, l := t.mq.l, rdy := t.mq.rdy, mrk := t.mq.mrk } := by
      rcases hmq with hmq | hmq <;> rw [hmq]
      exact mqRestart_frame s.segmem s.mq
    rwa [← hframe]
  · have hdecode : exec (.mqDecode cx) s = .next t := by
      rcases h with h | ⟨rfl, h⟩
      · exact h
      · rwa [← exec_mqDecodeu]
    obtain ⟨ht, hmq⟩ := exec_of_mq (commandUnit_mqDecode cx) hdecode
    have hframe : t.mq = { s.mq with
        a := t.mq.a, c := t.mq.c, t := t.mq.t, tr := t.mq.tr, l := t.mq.l, mrk := t.mq.mrk, ctx := t.mq.ctx } := by
      rcases hmq with hmq | hmq <;> rw [hmq]
      exact mqDecode_frame s.segmem s.mq _
    refine ⟨?_, fun k hk => exec_mqDecode_ctx_other hdecode hk⟩
    rwa [← hframe]

/-! ### Lists of decodes (R110, R111) -/

/-- Past the end of the segment, with the cursor, the last byte and the diagnostic of `m`. -/
structure PastEnd (m x : Mqd) : Prop where
  ended : x.len ≤ x.l
  l : x.l = m.l
  tr : x.tr = m.tr
  mrk : x.mrk = m.mrk

theorem PastEnd.renormOnce {mem : Memory Byte} {m x : Mqd} (h : PastEnd m x) : PastEnd m (renormOnce mem x) := by
  obtain ⟨hend, hl, htr, hmrk⟩ := h
  by_cases ht : x.t = 0
  · rw [renormOnce_fill ht, fillLSB_end mem x hend]
    exact ⟨hend, hl, htr, hmrk⟩
  · rw [renormOnce_pending ht]
    exact ⟨hend, hl, htr, hmrk⟩

/-- Past the end a decode synthesizes the bits it needs: it reads no byte and reports no marker (R111). -/
theorem PastEnd.mqDecode {mem : Memory Byte} {m x : Mqd} (h : PastEnd m x) (cx : Fin 19) :
    PastEnd m (mqDecode mem cx x).2 :=
  mqDecode_induct mem x cx (fun _ _ _ _ ⟨hend, hl, htr, hmrk⟩ => ⟨hend, hl, htr, hmrk⟩) (fun _ => PastEnd.renormOnce) h

/-- What decodes keep on the way from `s` to `t`: MQD stays ready for the next one, and no fault is recorded. -/
structure DecodesKeep (s t : State) : Prop where
  ok : MqOk t
  rdy : t.mq.rdy = true
  flt : t.flt = s.flt
  pastEnd : ∀ m, PastEnd m s.mq → PastEnd m t.mq

theorem DecodesKeep.trans {s t u : State} (h1 : DecodesKeep s t) (h2 : DecodesKeep t u) : DecodesKeep s u :=
  ⟨h2.ok, h2.rdy, h2.flt.trans h1.flt, fun m h => h2.pastEnd m (h1.pastEnd m h)⟩

/-- One of the two commands of a decode, on a context that exists. -/
abbrev IsDecode (i : Instr) : Prop := i = .mqDecodeu ∨ ∃ cx, cx < 19 ∧ i = .mqDecode cx

/-- Once `RDY`, a decode completes and leaves MQD ready (R110). -/
theorem exec_isDecode {i : Instr} {s : State} (hi : IsDecode i) (hok : MqOk s) (hrdy : s.mq.rdy = true) :
    ∃ t, exec i s = .next t ∧ rspCode t.rsp = 0 ∧ DecodesKeep s t := by
  obtain ⟨cx, hcx, hexec⟩ : ∃ cx, cx < 19 ∧ exec i s = exec (.mqDecode cx) s := by
    rcases hi with rfl | ⟨cx, hcx, rfl⟩
    · exact ⟨18, by decide, exec_mqDecodeu s⟩
    · exact ⟨cx, hcx, rfl⟩
  refine ⟨_, hexec.trans (exec_mqDecode hcx hok hrdy), rspCode_packRsp _ _, decodeBit_mqOk cx hok, ?_, rfl, ?_⟩
  · exact (mqDecode_rdy s.segmem s.mq _).trans hrdy
  · exact fun m h => h.mqDecode _

/-- The induction over a list of decodes. -/
theorem issueAll_decodes (is : List Instr) : ∀ s : State, (∀ i ∈ is, IsDecode i) → MqOk s → s.mq.rdy = true →
    ∃ t, issueAll is s = some t ∧ DecodesKeep s t ∧ (is ≠ [] ∨ rspCode s.rsp = 0 → rspCode t.rsp = 0) := by
  induction is with
  | nil => exact fun s _ hok hrdy => ⟨s, rfl, ⟨hok, hrdy, rfl, fun _ h => h⟩, fun h => h.resolve_left (absurd rfl)⟩
  | cons i is ih =>
    intro s his hok hrdy
    obtain ⟨t, hexec, hcode, hkeep⟩ := exec_isDecode (his i List.mem_cons_self) hok hrdy
    obtain ⟨u, hissue, hkeep', hcode'⟩ := ih t (fun j hj => his j (List.mem_cons_of_mem i hj)) hkeep.ok hkeep.rdy
    exact ⟨u, (issueAll_cons hexec is).trans hissue, hkeep.trans hkeep', fun _ => hcode' (.inr hcode)⟩

/-- Settles O24, by the induction over the list. -/
theorem paddingNeverFaults : Obligations.PaddingNeverFaults := by
  unfold Obligations.PaddingNeverFaults
  intro s is his hok hrdy
  obtain ⟨t, hissue, hkeep, hcode⟩ := issueAll_decodes is s his hok hrdy
  obtain ⟨_, _, hready⟩ := hkeep.ok
  obtain ⟨_, _, _, hl⟩ := hready hkeep.rdy
  refine ⟨t, hissue, hkeep.flt, hl, fun hne => hcode (.inl hne), fun hend => ?_⟩
  obtain ⟨_, hcursor, htr, hmrk⟩ := hkeep.pastEnd s.mq ⟨hend, rfl, rfl, rfl⟩
  exact ⟨hcursor, htr, hmrk⟩

/-! ### Context 18 (R101, R108) -/

theorem mpsEntry_46 : mpsEntry { idx := 46, mps := false } = { idx := 46, mps := false } := rfl

theorem lpsEntry_46 : lpsEntry { idx := 46, mps := false } = { idx := 46, mps := false } := rfl

/-- No event takes context 18 out of state 46 or flips its symbol. -/
theorem mqDecode_ctx_18 {mem : Memory Byte} {m : Mqd} (cx : Fin 19)
    (h : m.ctx[(18 : Fin 19)] = { idx := 46, mps := false }) :
    (mqDecode mem cx m).2.ctx[(18 : Fin 19)] = { idx := 46, mps := false } := by
  by_cases hcx : 18 = cx
  · subst hcx
    have hset : (m.ctx.set (18 : Fin 19) { idx := 46, mps := false })[(18 : Fin 19)] = { idx := 46, mps := false } :=
      Vector.getElem_set_self _
    rcases mqDecode_ctx mem m 18 with hc | hc | hc <;> rw [hc]
    · exact h
    · rw [h, mpsEntry_46, hset]
    · rw [h, lpsEntry_46, hset]
  · rw [mqDecode_ctx_other mem m cx hcx, h]

theorem passKeeps_equiprobableOk (b : Nat) : PassKeeps b EquiprobableOk where
  dec _ _ h := mqDecode_ctx_18 _ h
  ctx _ _ _ _ _ h := h
  sgn _ _ _ _ _ h := h
  new _ _ _ _ h := h
  refine _ _ _ _ _ h := h

theorem stepBody_equiprobableOk : BodyKeeps EquiprobableOk := by
  intro s _ _ _ h
  rcases stepBody_cases s with ⟨_, hbody⟩ | ⟨_, hbody⟩ <;> rw [hbody]
  · exact h
  · refine runPass_keeps (passKeeps_equiprobableOk _) _ (s := attachPass s.passIdx.toNat s) ?_
    unfold EquiprobableOk attachPass
    rw [mqRestart_ctx]
    exact h

theorem startupContexts_18 : startupContexts[(18 : Fin 19)] = { idx := 46, mps := false } := startupContexts_get 18

theorem effect_equiprobableOk {i : Instr} {s : State} {data : BitVec 2} (hv : verdict i s = .completes data)
    (h : EquiprobableOk s) : EquiprobableOk (effect i s) := by
  cases i
  case mqReset => exact startupContexts_18
  case mqRestart =>
    unfold EquiprobableOk effect
    rw [mqRestart_ctx]
    exact h
  case mqDecode cx => exact mqDecode_ctx_18 _ h
  case mqDecodeu => exact mqDecode_ctx_18 _ h
  case cbAttach => exact startupContexts_18
  case cbStep => exact stepBody_equiprobableOk.cbStep hv h
  case cbRun => exact stepBody_equiprobableOk.cbRun hv h
  all_goals exact h

theorem equiprobableOk_stepKeeps : StepKeeps EquiprobableOk where
  record _ _ _ _ h := h
  reset _ := startupContexts_18
  desc _ _ h := h
  slot _ _ _ _ _ h := h
  byte _ _ _ _ h := h
  invalid _ h := h
  effect _ _ _ hv h := effect_equiprobableOk hv h

/-- Settles O28, by the induction over a step. -/
theorem equiprobableContextFixed : Obligations.EquiprobableContextFixed := by
  unfold Obligations.EquiprobableContextFixed
  exact fun _ _ h hstep => equiprobableOk_stepKeeps.step h hstep

end Sys2Proof.Machine
end

section
/-! PROOF. O29, O30, O31 and O32: the commands of RAWD (R131 to R136). -/

namespace Sys2Proof.Machine

/-! ### One raw decode (R134) -/

section RawDecode

variable {mem : Memory Byte} {r : Rawd} {b : Byte}

/-- While a byte is left a fetch takes the next one, with 7 bits after a `0xFF`. -/
theorem rawFill_byte (hb : segByte mem (r.base + r.rl) = b) (hrl : r.rl < r.len) :
    rawFill mem r = { r with rt := b, bits := if r.rt = 0xFF then 7 else 8, rl := r.rl + 1 } := by
  rw [rawFill, if_neg (Nat.not_le.mpr hrl), hb]

/-- With bits of the current byte left, a decode reads no byte. -/
theorem rawDecode_pending (h : 0 < r.bits) :
    rawDecode mem r = (r.rt.getLsbD (r.bits.toNat - 1), { r with bits := r.bits - 1 }) := by
  have hne : r.bits ≠ 0 := by bv_omega
  have hleft : (r.bits - 1).toNat = r.bits.toNat - 1 := by bv_omega
  simp only [rawDecode, if_neg hne, hleft]

/-- Without a bit left, a decode takes the top bit of what the fetch gives, and `n` bits stay. -/
theorem rawDecode_fetch {q : Rawd} {n : Nat} (h0 : r.bits = 0) (hfill : rawFill mem r = q)
    (hbits : q.bits - 1 = BitVec.ofNat 4 n) (hn : n < 16) :
    rawDecode mem r = (q.rt.getLsbD n, { q with bits := BitVec.ofNat 4 n }) := by
  have hleft : (BitVec.ofNat 4 n).toNat = n := Nat.mod_eq_of_lt hn
  simp only [rawDecode, if_pos h0, hfill, hbits, hleft]

/-- Past the end a decode takes a bit 1 of a synthesized byte (R136). -/
theorem rawDecode_end (h0 : r.bits = 0) (hrl : r.len ≤ r.rl) :
    rawDecode mem r = (true, { r with rt := 0xFF, bits := 7 }) := by
  have hbits : (8 : BitVec 4) - 1 = 7 := by decide
  have hbit : (0xFF : Byte).getLsbD 7 = true := by decide
  rw [← hbit]
  exact rawDecode_fetch h0 (rawFill_end mem r hrl) hbits (by decide)

/-- The byte after a `0xFF` gives its bit 6 first. -/
theorem rawDecode_stuffed (hb : segByte mem (r.base + r.rl) = b) (h0 : r.bits = 0) (hrl : r.rl < r.len)
    (hff : r.rt = 0xFF) :
    rawDecode mem r = (b.getLsbD 6, { r with rt := b, bits := 6, rl := r.rl + 1 }) := by
  have hfill := rawFill_byte hb hrl
  rw [if_pos hff] at hfill
  have hbits : (7 : BitVec 4) - 1 = 6 := by decide
  exact rawDecode_fetch h0 hfill hbits (by decide)

/-- Any other byte gives its bit 7 first. -/
theorem rawDecode_ordinary (hb : segByte mem (r.base + r.rl) = b) (h0 : r.bits = 0) (hrl : r.rl < r.len)
    (hff : r.rt ≠ 0xFF) :
    rawDecode mem r = (b.getLsbD 7, { r with rt := b, bits := 7, rl := r.rl + 1 }) := by
  have hfill := rawFill_byte hb hrl
  rw [if_neg hff] at hfill
  have hbits : (8 : BitVec 4) - 1 = 7 := by decide
  exact rawDecode_fetch h0 hfill hbits (by decide)

end RawDecode

/-! ### The commands (R131 to R135) -/

/-- `RAW.DECODE` on any context is `RAW.DECODEU` (R135). -/
theorem exec_rawDecode_eq (cx : Nat) (s : State) : exec (.rawDecode cx) s = exec .rawDecodeu s := rfl

theorem exec_rawDecodeu_notReady {s : State} (h : s.raw.rdy = false) : exec .rawDecodeu s = .next (refuse .seq s) :=
  exec_refused (unitVerdict_refused.mpr ⟨h, rfl⟩) nofun

/-- Once `RDY`, every raw decode completes, with the bit in its response (R87, R134). -/
theorem exec_rawDecodeu {s : State} {d : Bool} {q : Rawd} (hok : RawOk s) (hrdy : s.raw.rdy = true)
    (hdecode : rawDecode s.segmem s.raw = (d, q)) :
    exec .rawDecodeu s = .next { s with rsp := if d then 1 else 0, raw := q } := by
  have hinside := raw_segInside_of_att hok (raw_att_of_rdy hok hrdy)
  have hverdict : verdict .rawDecodeu s = .completes (bitData d) :=
    unitVerdict_completes.mpr ⟨hrdy, hinside, by rw [hdecode]⟩
  rw [exec_completes hverdict, effect, hdecode, respond, packRsp_bitData]

/-- Settles O32, by the refusal and the four cases of one raw decode. -/
theorem rawDecodeResult : Obligations.RawDecodeResult := by
  unfold Obligations.RawDecodeResult
  intro s i b hok hi hb
  have hexec : exec i s = exec .rawDecodeu s := by
    rcases hi with rfl | ⟨cx, rfl⟩
    · rfl
    · exact exec_rawDecode_eq cx s
  rw [hexec]
  refine ⟨exec_rawDecodeu_notReady, fun hrdy => ⟨fun hbits => ?_, fun h0 hrl => ?_, fun h0 hrl hff => ?_,
    fun h0 hrl hff => ?_⟩⟩
  · exact exec_rawDecodeu hok hrdy (rawDecode_pending hbits)
  · exact exec_rawDecodeu hok hrdy (rawDecode_end h0 hrl)
  · exact exec_rawDecodeu hok hrdy (rawDecode_stuffed hb h0 hrl hff)
  · exact exec_rawDecodeu hok hrdy (rawDecode_ordinary hb h0 hrl hff)

/-- Settles O29: the reset completes, and its effect is the identity. -/
theorem rawResetResult : Obligations.RawResetResult := by
  unfold Obligations.RawResetResult
  exact fun s => exec_completes (i := .rawReset) (s := s) rfl

/-- Settles O30: the slot operand is an entry exactly for a usable slot. -/
theorem rawAttachResult : Obligations.RawAttachResult := by
  unfold Obligations.RawAttachResult
  refine fun slot s => ⟨fun husable => ?_, fun hnot => ?_⟩
  · have hverdict : verdict (.rawAttach slot) s = .completes 0 := by
      rw [verdict, slotOperand_eq_some.mpr ⟨husable, rfl⟩]
      rfl
    exact exec_completes hverdict
  · have hverdict : verdict (.rawAttach slot) s = .refused .slot := by
      rw [verdict, slotOperand_eq_none.mpr hnot]
      rfl
    exact exec_refused hverdict nofun

/-- Settles O31: the restart is refused without a segment, and completes on one wherever it lies. -/
theorem rawRestartResult : Obligations.RawRestartResult := by
  unfold Obligations.RawRestartResult
  refine fun s => ⟨fun hatt => ?_, fun hatt => ?_⟩
  · have hverdict : verdict .rawRestart s = .refused .seq := unitVerdict_refused.mpr ⟨hatt, rfl⟩
    exact exec_refused hverdict nofun
  · have hverdict : verdict .rawRestart s = .completes 0 := unitVerdict_completes.mpr ⟨hatt, rfl, rfl⟩
    exact exec_completes hverdict

end Sys2Proof.Machine
end

section
/-! PROOF. O59 and O60: a block is decoded from its descriptor and its inputs alone (R163, R246). -/

namespace Sys2Proof.Machine

/-! ### Two machines that agree on a block -/

/-- Two machines that agree on the block and its inputs, both with their memories in canonical form. -/
structure BlockTwins (s t : State) : Prop where
  same : SameBlock s t
  wf : MemoriesWf s
  wf' : MemoriesWf t

/-- The two machines inside a pass: `MQRestart` has made the registers of MQD agree as well (R105, R156). -/
structure PassTwins (s t : State) : Prop extends BlockTwins s t where
  mq : t.mq = s.mq

section Twins

variable {s t : State}

/-- A cell reads as the 6 bits of the value last written to it, whether they hold the value or not (R36). -/
theorem ctxAt_setCtx_same_bits (hwf : Memory.wf blankCell s.ctxmap = true) (x y : Nat) (v : Int) :
    (s.setCtx x y v).ctxAt x y = (BitVec.ofInt 6 v).toInt := by
  unfold State.ctxAt
  rw [setCtx_ctxmap, setCtx_flat, Memory.read_write_same hwf]

theorem inBlock_iff_of_lat (hlat : s.lat = t.lat) (x y : Nat) : s.InBlock x y ↔ t.InBlock x y :=
  ⟨inBlock_of_lat hlat.symm, inBlock_of_lat hlat⟩

theorem BlockTwins.setCtx (h : BlockTwins s t) {x y : Nat} (hb : s.InBlock x y) (v : Int) :
    BlockTwins (s.setCtx x y v) (t.setCtx x y v) where
  wf := memoriesWf_setCtx h.wf x y v
  wf' := memoriesWf_setCtx h.wf' x y v
  same :=
    { h.same with
      cells := fun u w (hu : s.InBlock u w) => by
        have hb' := (inBlock_iff_of_lat h.same.lat x y).mp hb
        have hu' := (inBlock_iff_of_lat h.same.lat u w).mp hu
        by_cases hxy : u = x ∧ w = y
        · obtain ⟨rfl, rfl⟩ := hxy
          rw [ctxAt_setCtx_same_bits (memoriesWf_ctxmap h.wf), ctxAt_setCtx_same_bits (memoriesWf_ctxmap h.wf')]
        · rw [ctxAt_setCtx_other (memoriesWf_ctxmap h.wf) hb.1 hu.1 hxy,
            ctxAt_setCtx_other (memoriesWf_ctxmap h.wf') hb'.1 hu'.1 hxy, h.same.cells u w hu]
      coef := h.same.coef }

theorem BlockTwins.setCoef (h : BlockTwins s t) {x y : Nat} (hb : s.InBlock x y) (c : Coef) :
    BlockTwins (s.setCoef x y c) (t.setCoef x y c) where
  wf := memoriesWf_setCoef h.wf x y c
  wf' := memoriesWf_setCoef h.wf' x y c
  same :=
    { h.same with
      cells := h.same.cells
      coef := fun u w (hu : s.InBlock u w) => by
        have hb' := (inBlock_iff_of_lat h.same.lat x y).mp hb
        have hu' := (inBlock_iff_of_lat h.same.lat u w).mp hu
        by_cases hxy : u = x ∧ w = y
        · obtain ⟨rfl, rfl⟩ := hxy
          rw [coefAt_setCoef_same (memoriesWf_coef h.wf), coefAt_setCoef_same (memoriesWf_coef h.wf')]
        · rw [coefAt_setCoef_other (memoriesWf_coef h.wf) hb.1 hu.1 hxy,
            coefAt_setCoef_other (memoriesWf_coef h.wf') hb'.1 hu'.1 hxy, h.same.coef u w hu] }

/-- Twins stay twins when MQD takes new registers with the same contexts. -/
theorem BlockTwins.setMq (h : BlockTwins s t) {m m' : Mqd} (hctx : m.ctx = m'.ctx) :
    BlockTwins { s with mq := m } { t with mq := m' } :=
  ⟨{ h.same with ctx := hctx, cells := h.same.cells, coef := h.same.coef }, h.wf, h.wf'⟩

/-- A response or a refusal is no part of the block (R163). -/
theorem BlockTwins.record (h : BlockTwins s t) (f f' : BitVec 5) (r r' : BitVec 7) :
    BlockTwins { s with flt := f, rsp := r } { t with flt := f', rsp := r' } :=
  ⟨{ h.same with cells := h.same.cells, coef := h.same.coef }, h.wf, h.wf'⟩

theorem BlockTwins.advance (h : BlockTwins s t) : BlockTwins (advance s) (advance t) where
  wf := h.wf
  wf' := h.wf'
  same :=
    { h.same with
      bp := by rw [advance_bp, advance_bp, h.same.pk, h.same.bp]
      pk := by simp only [Machine.advance, h.same.pk]
      stat := by simp only [Machine.advance, h.same.pk, h.same.bp, h.same.lat, h.same.stat]
      cells := h.same.cells
      coef := h.same.coef }

theorem PassTwins.decodeBit (h : PassTwins s t) (n : Nat) :
    (decodeBit n t).1 = (decodeBit n s).1 ∧ PassTwins (decodeBit n s).2 (decodeBit n t).2 := by
  have hdec : mqDecode t.segmem (Fin.ofNat 19 n) t.mq = mqDecode s.segmem (Fin.ofNat 19 n) s.mq := by
    rw [h.mq, h.same.segmem]
  refine ⟨?_, h.toBlockTwins.setMq (congrArg (fun r => r.2.ctx) hdec).symm, ?_⟩
  · rw [decodeBit_fst, decodeBit_fst, hdec]
  · rw [decodeBit_mq, decodeBit_mq, hdec]

/-- The elementary operations of a pass keep the two machines together. -/
theorem passTwins_passSim : PassSim PassTwins where
  lat _ _ h := h.same.lat.symm
  ctxAt _ _ x y h hb := (h.same.cells x y hb).symm
  coefAt _ _ x y h hb := (h.same.coef x y hb).symm
  dec n _ _ h := h.decodeBit n
  setCtx _ _ _ _ v h hb := ⟨h.toBlockTwins.setCtx hb v, h.mq⟩
  setCoef _ _ _ _ c h hb := ⟨h.toBlockTwins.setCoef hb c, h.mq⟩

/-! ### The transitions of the sequencer (R156, R157, R158) -/

theorem SameBlock.passIdx (h : SameBlock s t) : t.passIdx = s.passIdx :=
  passIdx_congr h.lat.symm h.bp.symm h.pk.symm

theorem slotAt_congr (hsegtab : t.segtab = s.segtab) : t.slotAt = s.slotAt := by
  funext idx
  unfold State.slotAt
  rw [hsegtab]

theorem skips_congr (hcfg : t.cfg = s.cfg) (hlat : t.lat = s.lat) (hsegtab : t.segtab = s.segtab) :
    t.skips = s.skips := by
  funext idx
  unfold State.skips
  rw [slotAt_congr hsegtab, hcfg, hlat]

theorem SameBlock.skips (h : SameBlock s t) : t.skips = s.skips :=
  skips_congr h.cfg.symm h.lat.symm h.segtab.symm

/-- Attach and restart: after them MQD depends on the slot, the segment memory and the context file alone (R105). -/
theorem BlockTwins.attachPass (h : BlockTwins s t) (idx : Nat) :
    PassTwins (attachPass idx s) (attachPass idx t) := by
  have hmq : (Machine.attachPass idx t).mq = (Machine.attachPass idx s).mq := by
    unfold Machine.attachPass
    rw [h.same.segmem, slotAt_congr h.same.segtab.symm]
    exact mqRestart_congr _ rfl rfl rfl h.same.ctx.symm
  exact ⟨h.setMq (congrArg Mqd.ctx hmq).symm, hmq⟩

theorem BlockTwins.execPass (h : BlockTwins s t) : BlockTwins (execPass s) (execPass t) := by
  unfold Machine.execPass
  rw [h.same.passIdx, ← h.same.pk, ← h.same.bp]
  exact (passTwins_passSim.runPass (h.attachPass _) _ _).toBlockTwins

theorem BlockTwins.stepBody (h : BlockTwins s t) : BlockTwins (stepBody s) (stepBody t) := by
  unfold Machine.stepBody
  rw [h.same.passIdx, h.same.skips]
  split_ifs
  · exact h.advance
  · exact h.execPass.advance

theorem BlockTwins.runLoop (n : Nat) : ∀ {s t : State}, BlockTwins s t → BlockTwins (runLoop n s) (runLoop n t) := by
  induction n with
  | zero => exact id
  | succ n ih =>
    intro s t h
    rw [Machine.runLoop, Machine.runLoop, ← h.same.stat]
    split_ifs
    · exact ih h.stepBody
    · exact h

/-! ### The two commands (R156, R159) -/

theorem SameBlock.slotBad (h : SameBlock s t) : t.slotBad = s.slotBad :=
  slotBad_congr h.cfg.symm h.lat.symm h.segtab.symm

theorem SameBlock.blockVerdict (h : SameBlock s t) (done : BitVec 2) (active : Verdict) :
    blockVerdict t done active = blockVerdict s done active := by
  unfold Machine.blockVerdict
  rw [h.stat, blockInRange_congr h.cfg.symm h.lat.symm h.bp.symm h.pk.symm]

variable {i : Instr}

/-- The answer of `CB.STEP` and `CB.RUN` is that of the block. -/
theorem SameBlock.verdict (h : SameBlock s t) (hi : i = .cbStep ∨ i = .cbRun) : verdict i t = verdict i s := by
  have hremaining : t.remaining = s.remaining := by
    unfold State.remaining
    rw [h.passIdx, h.lat]
  rcases hi with rfl | rfl <;>
    simp only [Machine.verdict, h.blockVerdict, h.passIdx, h.skips, h.slotBad, hremaining]

theorem BlockTwins.effect (h : BlockTwins s t) (hi : i = .cbStep ∨ i = .cbRun) :
    BlockTwins (effect i s) (effect i t) := by
  rcases hi with rfl | rfl <;> simp only [Machine.effect, ← h.same.stat, ← h.same.lat] <;> split_ifs
  · exact h.stepBody
  · exact h
  · exact BlockTwins.runLoop _ h
  · exact h

/-- Both machines answer alike, and the block after it is the same. -/
theorem BlockTwins.exec (h : BlockTwins s t) (hi : i = .cbStep ∨ i = .cbRun) {s' : State}
    (hexec : exec i s = .next s') : ∃ t', exec i t = .next t' ∧ t'.rsp = s'.rsp ∧ BlockTwins s' t' := by
  rcases exec_next hexec with ⟨data, hv, rfl⟩ | ⟨e, hv, rfl⟩
  · exact ⟨_, exec_completes ((h.same.verdict hi).trans hv), rfl, (h.effect hi).record _ _ _ _⟩
  · have hattach : i ≠ .cbAttach := by rcases hi with rfl | rfl <;> decide
    have he : e ≠ .desc := fun he => hattach (verdict_desc (he ▸ hv))
    rw [refusalEffect, if_neg he]
    exact ⟨_, exec_refused ((h.same.verdict hi).trans hv) hattach, rfl, h.record _ _ _ _⟩

end Twins

/-- Settles O60, by the simulation of a pass: the two machines stay together through every transition. -/
theorem noStateBleed : Obligations.NoStateBleed := by
  unfold Obligations.NoStateBleed
  intro s1 s2 t1 i hwf1 hwf2 hsame hi hexec
  obtain ⟨t2, hexec2, hrsp, htwins⟩ := BlockTwins.exec ⟨hsame, hwf1, hwf2⟩ hi hexec
  exact ⟨t2, hexec2, hrsp, htwins.same, htwins.wf, htwins.wf'⟩

/-- `CB.ATTACH` completes on a valid descriptor (R153). -/
theorem exec_cbAttach_valid {s : State} (h : ¬ DescBad s.cfg s.desc) :
    exec .cbAttach s = .next (respond 0 (attachBlock s)) :=
  exec_completes (if_neg fun hbad => h (descInvalid_iff.mp hbad))

/-- Settles O59: right after the attach every cell of the block is 0 and every context in its startup state. -/
theorem attachForgetsOldBlock : Obligations.AttachForgetsOldBlock := by
  unfold Obligations.AttachForgetsOldBlock
  intro s1 s2 hwf1 hwf2 hcfg hdesc hsegtab hsegmem hok
  have hlat : (attachBlock s1).lat = (attachBlock s2).lat := congrArg latch hdesc
  refine ⟨_, _, exec_cbAttach_valid hok, exec_cbAttach_valid (hcfg ▸ hdesc ▸ hok), rfl, ?_,
    attachBlock_memoriesWf hwf1, attachBlock_memoriesWf hwf2⟩
  refine ⟨hcfg, hsegtab, hsegmem, hlat, congrArg Desc.msb hdesc, rfl, rfl, rfl, fun x y hb => ?_, fun x y hb => ?_⟩
  · exact (attachBlock_cells hwf1 hb).1.trans (attachBlock_cells hwf2 (inBlock_of_lat hlat.symm hb)).1.symm
  · exact (attachBlock_cells hwf1 hb).2.trans (attachBlock_cells hwf2 (inBlock_of_lat hlat.symm hb)).2.symm

end Sys2Proof.Machine
end

section
/-! PROOF. O36, O38 to O41 and O58: the number of bit-planes, the transitions of the sequencer, `CB.STEP`, `CB.RUN`, and
a block without segments (R151, R154 to R159, R162). -/

namespace Sys2Proof.Machine

/-! ### The number of bit-planes (R151) -/

/-- `NBP(n)` is the ceiling of `(n + 2) / 3`. -/
theorem nbpOf_bounds (n : Nat) : n + 2 ≤ 3 * nbpOf n ∧ 3 * nbpOf n < n + 5 := by
  unfold nbpOf
  omega

/-- Settles O36: the bounds of the ceiling, at the largest `DESC_NPASS` that 16 bits hold. -/
theorem numberOfBitPlanes : Obligations.NumberOfBitPlanes := by
  unfold Obligations.NumberOfBitPlanes
  refine ⟨fun n => ?_, fun d => ⟨?_, latch_nbp_toNat d⟩⟩
  · obtain ⟨hlo, hhi⟩ := nbpOf_bounds n
    exact ⟨hlo, hhi, by omega⟩
  · have hfit := d.npass.isLt
    have hhi := (nbpOf_bounds d.npass.toNat).2
    omega

/-! ### Absent and ill-formed slots (R156, R157) -/

section Slots

variable {s : State} {idx : Nat}

theorem skips_iff : s.skips idx = true ↔ s.Absent idx := by
  simp [State.skips, or_assoc]

theorem skips_eq_false_iff : s.skips idx = false ↔ ¬ s.Absent idx := by
  rw [← skips_iff, Bool.not_eq_true]

theorem slotBad_iff : s.slotBad idx = true ↔ s.IllFormed idx := by
  simp only [State.slotBad, State.IllFormed, Bool.and_eq_true, Bool.not_eq_true', skips_eq_false_iff, segInside,
    decide_eq_false_iff_not, Nat.not_le]

theorem slotBad_eq_false_iff : s.slotBad idx = false ↔ ¬ s.IllFormed idx := by
  rw [← slotBad_iff, Bool.not_eq_true]

/-- The remaining passes are those up to `3 * LNBP - 3` (R155, R159). -/
theorem mem_remaining {p : Nat} : p ∈ s.remaining ↔ s.passIdx.toNat ≤ p ∧ p + 3 ≤ 3 * s.lat.nbp.toNat := by
  rw [State.remaining, List.mem_range'_1]
  omega

end Slots

/-! ### The answers of `CB.STEP` (R156) -/

section Step

variable {s : State}

/-- The sequencer before a block is attached, and after a descriptor that was refused (R35). -/
theorem blockVerdict_unattached (h : s.stat = .idle ∨ s.stat = .fault) (done : BitVec 2) (active : Verdict) :
    blockVerdict s done active = .refused .seq :=
  blockVerdict_refused.mpr (.inl ⟨h, rfl⟩)

theorem blockVerdict_done (h : s.stat = .done) (done : BitVec 2) (active : Verdict) :
    blockVerdict s done active = .completes done :=
  blockVerdict_completes.mpr (.inl ⟨h, rfl⟩)

/-- An ACTIVE block is in range, so the answer is that of its passes. -/
theorem blockVerdict_active (hin : s.blockInRange = true) (h : s.stat = .active) (done : BitVec 2)
    (active : Verdict) : blockVerdict s done active = active := by
  simp only [blockVerdict, h, if_pos hin]

theorem effect_cbStep_active (h : s.stat = .active) : effect .cbStep s = stepBody s := if_pos h

theorem effect_cbStep_done (h : s.stat = .done) : effect .cbStep s = s := if_neg (by rw [h]; decide)

theorem stepBody_skip (h : s.Absent s.passIdx.toNat) : stepBody s = advance s := if_pos (skips_iff.mpr h)

theorem stepBody_exec (h : ¬ s.Absent s.passIdx.toNat) : stepBody s = advance (execPass s) :=
  if_neg fun hskip => h (skips_iff.mp hskip)

/-- `CB.STEP` of an ACTIVE block: the pass is skipped, refused, or executed. -/
theorem verdict_cbStep_active (hin : s.blockInRange = true) (h : s.stat = .active) : verdict .cbStep s =
    if s.skips s.passIdx.toNat then .completes 0
    else if s.slotBad s.passIdx.toNat then .refused .slot else .completes 1 :=
  blockVerdict_active hin h _ _

theorem exec_cbStep_absent (hin : s.blockInRange = true) (h : s.stat = .active) (habs : s.Absent s.passIdx.toNat) :
    exec .cbStep s = .next (respond 0 (advance s)) := by
  have hv : verdict .cbStep s = .completes 0 := by
    rw [verdict_cbStep_active hin h, if_pos (skips_iff.mpr habs)]
  rw [exec_completes hv, effect_cbStep_active h, stepBody_skip habs]

theorem exec_cbStep_illFormed (hin : s.blockInRange = true) (h : s.stat = .active)
    (hbad : s.IllFormed s.passIdx.toNat) : exec .cbStep s = .next (refuse .slot s) := by
  have hv : verdict .cbStep s = .refused .slot := by
    rw [verdict_cbStep_active hin h, if_neg fun hskip => hbad.1 (skips_iff.mp hskip), if_pos (slotBad_iff.mpr hbad)]
  exact exec_refused hv (by decide)

theorem exec_cbStep_executed (hin : s.blockInRange = true) (h : s.stat = .active)
    (hpres : ¬ s.Absent s.passIdx.toNat) (hok : ¬ s.IllFormed s.passIdx.toNat) :
    exec .cbStep s = .next (respond 1 (advance (execPass s))) := by
  have hv : verdict .cbStep s = .completes 1 := by
    rw [verdict_cbStep_active hin h, if_neg fun hskip => hpres (skips_iff.mp hskip),
      if_neg fun hbad => hok (slotBad_iff.mp hbad)]
  rw [exec_completes hv, effect_cbStep_active h, stepBody_exec hpres]

theorem exec_cbStep_unattached (h : s.stat = .idle ∨ s.stat = .fault) : exec .cbStep s = .next (refuse .seq s) :=
  exec_refused (i := .cbStep) (blockVerdict_unattached h _ _) (by decide)

theorem exec_cbStep_done (h : s.stat = .done) : exec .cbStep s = .next (respond 2 s) := by
  have hv : verdict .cbStep s = .completes 2 := blockVerdict_done h _ _
  rw [exec_completes hv, effect_cbStep_done h]

/-- The sequencer after an advance of an ACTIVE block (R158). -/
theorem advance_stat_of_active (h : s.stat = .active) : (advance s).stat =
    if (s.lat.nbp.toNat : Int) ≤ s.lat.msb.toInt - (advance s).bp.toInt then .done else .active := by
  rw [← h]
  rfl

/-- The advance after an executed pass moves the sequencer as it stood before: no pass writes it (R112, R158). -/
theorem advance_execPass (s : State) : advance (execPass s) =
    { execPass s with bp := (advance s).bp, pk := (advance s).pk, stat := (advance s).stat } := by
  have hframe := execPass_frame s
  simp only [advance, hframe.bp, hframe.pk, hframe.stat, hframe.lat, attachPass_bp, attachPass_pk, attachPass_stat,
    attachPass_lat]

end Step

/-- Settles O38, along the branches of `CB.STEP`: an ACTIVE block in range, its pass skipped, refused or executed. -/
theorem cbStepResult : Obligations.CbStepResult := by
  unfold Obligations.CbStepResult
  intro s hseq idx bp pk stat
  have hstat : s.stat = .active → (advance s).stat = stat := fun h => advance_stat_of_active h
  refine ⟨fun h => exec_cbStep_unattached h, fun h => exec_cbStep_done h, fun h habs => ?_, fun h hbad => ?_,
    fun h hpres hok => ?_⟩
  · rw [exec_cbStep_absent (blockInRange_of_active hseq h) h habs, ← hstat h]
    rfl
  · exact exec_cbStep_illFormed (blockInRange_of_active hseq h) h hbad
  · rw [exec_cbStep_executed (blockInRange_of_active hseq h) h hpres hok, advance_execPass, ← hstat h]
    rfl

/-! ### The pass index (R154, R155) -/

section PassIndex

variable {s : State}

/-- The first state of a block is at pass index 0 (R153, R154). -/
theorem attachBlock_passIdx (s : State) : (attachBlock s).passIdx = 0 := by
  have hmsb : (attachBlock s).lat.msb = (attachBlock s).bp := rfl
  have hord : (attachBlock s).pk.ordinal = 2 := rfl
  rw [State.passIdx, hmsb, hord]
  omega

theorem stepBody_passIdx (hin : s.blockInRange = true) : (stepBody s).passIdx = s.passIdx + 1 := by
  obtain ⟨hbp, hpk, _, hlat, _⟩ := stepBody_sequencer s
  rw [← advance_passIdx (bp_nonneg hin)]
  exact passIdx_congr hlat hbp hpk

theorem stepBody_attached (h : s.stat = .active) : (stepBody s).Attached := by
  obtain ⟨_, _, hstat, _⟩ := stepBody_sequencer s
  unfold State.Attached
  rw [hstat, advance_stat_of_active h]
  split_ifs
  · exact .inr rfl
  · exact .inl rfl

theorem passIdx_of_done (hseq : SeqOk s) (h : s.stat = .done) : s.passIdx = 3 * (s.lat.nbp.toNat : Int) - 2 := by
  obtain ⟨_, hbp, hpk⟩ := hseq.2 h
  rw [State.passIdx, hbp, hpk, PassKind.ordinal]
  omega

/-- The passes of an ACTIVE block end at index `3 * LNBP - 3` (R155). -/
theorem passIdx_lt_of_active (hseq : SeqOk s) (h : s.stat = .active) :
    s.passIdx < 3 * (s.lat.nbp.toNat : Int) - 2 := by
  obtain ⟨_, hlow, _⟩ := hseq.1 h
  have hord : s.pk.ordinal ≤ 2 := by cases s.pk <;> decide
  unfold State.passIdx
  omega

/-- An attached block is DONE exactly when the sequencer has passed its last pass (R155). -/
theorem done_iff_passIdx (hseq : SeqOk s) (ha : s.Attached) :
    s.stat = .done ↔ s.passIdx = 3 * (s.lat.nbp.toNat : Int) - 2 := by
  refine ⟨passIdx_of_done hseq, fun hidx => ha.resolve_left fun hact => ?_⟩
  have hlt := passIdx_lt_of_active hseq hact
  omega

/-- A response with code 0 is that of a command that completes (R42, R211). -/
theorem completes_of_rspCode {i : Instr} {t : State} (h : exec i s = .next t) (hcode : rspCode t.rsp = 0) :
    ∃ data, verdict i s = .completes data ∧ t = respond data (effect i s) := by
  rcases exec_next h with hdone | ⟨e, _, rfl⟩
  · exact hdone
  · rw [refuse_rsp, rspCode_packRsp] at hcode
    cases e <;> cases hcode

end PassIndex

/-- Settles O39: the index after the attach and after an advance, and the index of the terminal state. -/
theorem passIndexAdvancesByOne : Obligations.PassIndexAdvancesByOne := by
  unfold Obligations.PassIndexAdvancesByOne
  intro s t
  refine ⟨fun h hact => ?_, fun hseq hact => ⟨passIdx_nonneg_of_active hseq hact, fun h hcode => ?_⟩⟩
  · rcases exec_next h with ⟨data, _, rfl⟩ | ⟨e, hv, rfl⟩
    · exact attachBlock_passIdx s
    · have he : e = .desc := by
        rw [verdict] at hv
        split_ifs at hv
        cases hv
        rfl
      subst he
      cases hact
  · obtain ⟨data, hv, rfl⟩ := completes_of_rspCode h hcode
    have hseq' : SeqOk (stepBody s) := effect_cbStep_active hact ▸ stepBody_seqOk.cbStep hv hseq
    obtain ⟨_, _, _, hlat, _⟩ := stepBody_sequencer s
    have hdone := done_iff_passIdx hseq' (stepBody_attached hact)
    rw [hlat] at hdone
    rw [effect_cbStep_active hact]
    exact ⟨stepBody_passIdx (blockInRange_of_active hseq hact), hdone⟩

/-! ### A list of `CB.STEP` (R155) -/

/-- An attached block none of whose remaining passes has an ill-formed slot: every `CB.STEP` of it completes. -/
structure Steppable (s : State) : Prop where
  seq : SeqOk s
  attached : s.Attached
  ready : RunReady s

section Steps

variable {s : State}

theorem steppable_of_active (hseq : SeqOk s) (h : s.stat = .active)
    (hslots : ∀ p, s.passIdx.toNat ≤ p → p + 3 ≤ 3 * s.lat.nbp.toNat → ¬ s.IllFormed p) : Steppable s where
  seq := hseq
  attached := .inl h
  ready :=
    { inRange := fun _ => blockInRange_of_active hseq h
      slots := fun _ p hp => slotBad_eq_false_iff.mpr (hslots p (mem_remaining.mp hp).1 (mem_remaining.mp hp).2) }

/-- A response is no part of what makes a block steppable. -/
theorem Steppable.respond (h : Steppable s) (data : BitVec 2) : Steppable (respond data s) :=
  ⟨h.seq, h.attached, h.ready.inRange, h.ready.slots⟩

theorem Steppable.slot_ok (h : Steppable s) (hact : s.stat = .active) : s.slotBad s.passIdx.toNat = false :=
  h.ready.slots hact _ (passIdx_mem_remaining (h.ready.inRange hact))

theorem Steppable.stepBody (h : Steppable s) (hact : s.stat = .active) : Steppable (stepBody s) where
  seq := stepBody_seqOk s hact (h.ready.inRange hact) (h.slot_ok hact) h.seq
  attached := stepBody_attached hact
  ready := stepBody_runReady hact h.ready

/-- A step of a steppable ACTIVE block completes (R156). -/
theorem Steppable.exec_active (h : Steppable s) (hact : s.stat = .active) :
    ∃ data, exec .cbStep s = .next (Machine.respond data (Machine.stepBody s)) := by
  have hv := verdict_cbStep_active (h.ready.inRange hact) hact
  simp only [h.slot_ok hact, Bool.false_eq_true, if_false] at hv
  rw [← effect_cbStep_active hact]
  split_ifs at hv with hskip
  · exact ⟨0, exec_completes hv⟩
  · exact ⟨1, exec_completes hv⟩

/-- THE STEPS OF A BLOCK: each moves the pass index up by one, until it stays at `3 * LNBP - 2` (R155). -/
theorem Steppable.issue (n : Nat) : ∀ {s : State}, Steppable s → ∃ u, issue .cbStep n s = some u ∧ Steppable u ∧
    u.lat = s.lat ∧ u.passIdx = min (s.passIdx + n) (3 * (s.lat.nbp.toNat : Int) - 2) := by
  induction n with
  | zero =>
    intro s h
    refine ⟨s, rfl, h, rfl, ?_⟩
    rcases h.attached with hact | hdone
    · have hlt := passIdx_lt_of_active h.seq hact
      omega
    · have hlast := passIdx_of_done h.seq hdone
      omega
  | succ n ih =>
    intro s h
    rcases h.attached with hact | hdone
    · obtain ⟨data, hexec⟩ := h.exec_active hact
      obtain ⟨u, hissue, hu, hlat, hidx⟩ := ih ((h.stepBody hact).respond data)
      have hlat' : (Machine.stepBody s).lat = s.lat := (stepBody_frame s).lat
      have hidx' : (Machine.stepBody s).passIdx = s.passIdx + 1 := stepBody_passIdx (h.ready.inRange hact)
      refine ⟨u, (issue_succ hexec n).trans hissue, hu, hlat.trans hlat', hidx.trans ?_⟩
      change min ((Machine.stepBody s).passIdx + n) (3 * ((Machine.stepBody s).lat.nbp.toNat : Int) - 2) = _
      rw [hlat', hidx']
      omega
    · obtain ⟨u, hissue, hu, hlat, hidx⟩ := ih (h.respond 2)
      refine ⟨u, (issue_succ (exec_cbStep_done hdone) n).trans hissue, hu, hlat, hidx.trans ?_⟩
      change min (s.passIdx + n) (3 * (s.lat.nbp.toNat : Int) - 2) = _
      have hlast := passIdx_of_done h.seq hdone
      omega

end Steps

/-- The number of bit-planes of a latched descriptor (R151). -/
theorem nbp_of_latchedOk {s : State} (h : LatchedOk s) : s.lat.nbp.toNat = (s.lat.npass.toNat + 4) / 3 := by
  obtain ⟨_, _, _, hnbp, _⟩ := h
  exact hnbp

/-- Settles O40: after `n` steps the pass index is the smaller of `n` and `3 * LNBP - 2`, and the latter means DONE. -/
theorem cbTerminalAfterAllPasses : Obligations.CbTerminalAfterAllPasses := by
  unfold Obligations.CbTerminalAfterAllPasses
  intro s hseq hact hstart hslots
  obtain ⟨hlatched, _⟩ := hseq.1 hact
  have hnbp := nbp_of_latchedOk hlatched
  refine ⟨by omega, fun n => ?_⟩
  obtain ⟨u, hissue, hu, hlat, hidx⟩ := (steppable_of_active hseq hact fun p _ hp => hslots p hp).issue n
  have hdone := done_iff_passIdx hu.seq hu.attached
  rw [hlat] at hdone
  refine ⟨u, hissue, by rw [hdone]; omega, fun hn => by omega, fun hd => ?_⟩
  obtain ⟨hlatched', hbp, hpk⟩ := hu.seq.2 hd
  have hfit := nbp_le_of_latchedOk hlatched'
  exact ⟨by rw [hbp, hlat], by omega, hpk⟩

/-! ### `CB.RUN` (R159) -/

section Run

variable {s : State}

theorem runLoop_done (h : s.stat = .done) (k : Nat) : runLoop k s = s := by
  cases k with
  | zero => rfl
  | succ k => rw [runLoop, if_neg (by rw [h]; decide)]

/-- The loop of `CB.RUN` neither reads nor writes `RSP`. -/
theorem runLoop_rsp (k : Nat) (s : State) (r : BitVec 7) :
    runLoop k { s with rsp := r } = { runLoop k s with rsp := r } := by
  have hframe := runLoop_frame k s
  calc runLoop k { s with rsp := r }
      = (runLoop k s).graft { s with flt := s.flt, rsp := r } := runLoop_graft { s with rsp := r } k s
    _ = { runLoop k s with flt := s.flt, rsp := r } := hframe.graft_faultRecord s.flt r
    _ = { runLoop k s with rsp := r } := by rw [← hframe.flt]

/-- THE REFINEMENT OF R159: the loop of `CB.RUN` is `CB.STEP` until DONE, on all state but `RSP`. -/
theorem Steppable.runLoop_eq (n : Nat) : ∀ {s u : State} {k : Nat}, Steppable s → Machine.issue .cbStep n s = some u →
    u.stat = .done → n ≤ k → ∀ r, { runLoop k s with rsp := r } = { u with rsp := r } := by
  induction n with
  | zero =>
    intro s u k _ hissue hdone _ r
    cases hissue
    rw [runLoop_done hdone]
  | succ n ih =>
    intro s u k h hissue hdone hk r
    obtain ⟨k, rfl⟩ := Nat.exists_eq_add_of_lt hk
    rcases h.attached with hact | hd
    · obtain ⟨data, hexec⟩ := h.exec_active hact
      rw [issue_succ hexec] at hissue
      have hrest := ih ((h.stepBody hact).respond data) hissue hdone (Nat.le_add_right n k) r
      rw [Machine.respond, runLoop_rsp] at hrest
      rw [runLoop, if_pos hact]
      exact hrest
    · rw [issue_succ (exec_cbStep_done hd)] at hissue
      have hrest := ih (h.respond 2) hissue hdone (Nat.le_add_right n k) r
      rw [runLoop_done (s := Machine.respond 2 s) hd] at hrest
      rw [runLoop_done hd]
      exact hrest

/-- An ACTIVE block is DONE after `3 * LNBP - 2 - idx` steps (R155). -/
theorem Steppable.issue_done (h : Steppable s) (hact : s.stat = .active) :
    ∃ u, Machine.issue .cbStep (3 * s.lat.nbp.toNat - 2 - s.passIdx.toNat) s = some u ∧ u.stat = .done := by
  obtain ⟨u, hissue, hu, hlat, hidx⟩ := h.issue (3 * s.lat.nbp.toNat - 2 - s.passIdx.toNat)
  have hnonneg := passIdx_nonneg_of_active h.seq hact
  have hlt := passIdx_lt_of_active h.seq hact
  refine ⟨u, hissue, (done_iff_passIdx hu.seq hu.attached).mpr ?_⟩
  rw [hlat]
  omega

theorem exec_cbRun_unattached (h : s.stat = .idle ∨ s.stat = .fault) : exec .cbRun s = .next (refuse .seq s) :=
  exec_refused (i := .cbRun) (blockVerdict_unattached h _ _) (by decide)

theorem exec_cbRun_done (h : s.stat = .done) : exec .cbRun s = .next (respond 0 s) := by
  have hv : verdict .cbRun s = .completes 0 := blockVerdict_done h _ _
  rw [exec_completes hv, effect, if_neg (by rw [h]; decide)]

/-- `CB.RUN` of an ACTIVE block: refused, or run to the end. -/
theorem verdict_cbRun_active (hin : s.blockInRange = true) (h : s.stat = .active) : verdict .cbRun s =
    if s.remaining.any s.slotBad then .refused .slot else .completes 0 :=
  blockVerdict_active hin h _ _

theorem exec_cbRun_illFormed (hin : s.blockInRange = true) (h : s.stat = .active) {p : Nat} (hp : p ∈ s.remaining)
    (hbad : s.IllFormed p) : exec .cbRun s = .next (refuse .slot s) := by
  have hv : verdict .cbRun s = .refused .slot := by
    rw [verdict_cbRun_active hin h, if_pos (List.any_eq_true.mpr ⟨p, hp, slotBad_iff.mpr hbad⟩)]
  exact exec_refused hv (by decide)

theorem Steppable.exec_cbRun (h : Steppable s) (hact : s.stat = .active) :
    exec .cbRun s = .next (Machine.respond 0 (runLoop (3 * s.lat.nbp.toNat - 2) s)) := by
  have hslots : ¬ s.remaining.any s.slotBad = true := by
    simpa using h.ready.slots hact
  have hv : verdict .cbRun s = .completes 0 := by
    rw [verdict_cbRun_active (h.ready.inRange hact) hact, if_neg hslots]
  rw [exec_completes hv, effect, if_pos hact]

/-- What `CB.RUN` makes of an ACTIVE block that it does not refuse: the state that `CB.STEP` reaches, DONE, in at most
`3 * LNBP - 2` steps (R159). -/
theorem Steppable.exec_cbRun_eq_issue (h : Steppable s) (hact : s.stat = .active) : ∃ n u,
    n ≤ 3 * s.lat.nbp.toNat - 2 ∧ Machine.issue .cbStep n s = some u ∧ u.stat = .done ∧ u.flt = s.flt ∧
    exec .cbRun s = .next { u with rsp := 0 } := by
  obtain ⟨u, hissue, hdone⟩ := h.issue_done hact
  have hloop := h.runLoop_eq _ hissue hdone (Nat.sub_le _ s.passIdx.toNat)
  refine ⟨_, u, Nat.sub_le _ _, hissue, hdone, ?_, (h.exec_cbRun hact).trans (congrArg _ (hloop 0))⟩
  exact (congrArg State.flt (hloop 0)).symm.trans (runLoop_frame _ s).flt

end Run

/-- Settles O41: the refusals, DONE, and the steps until DONE. -/
theorem cbRunResult : Obligations.CbRunResult := by
  unfold Obligations.CbRunResult
  intro s hseq idx
  refine ⟨fun h => exec_cbRun_unattached h, fun h => exec_cbRun_done h, fun h ⟨p, hlo, hhi, hbad⟩ => ?_,
    fun h hslots => (steppable_of_active hseq h hslots).exec_cbRun_eq_issue h⟩
  exact exec_cbRun_illFormed (blockInRange_of_active hseq h) h (mem_remaining.mpr ⟨hlo, hhi⟩) hbad

/-! ### A block without segments (R162) -/

section Empty

variable {s : State}

/-- No pass has a segment. -/
abbrev State.NoSegment (s : State) : Prop := ∀ p, s.Absent p

/-- Of a block without segments the transitions write nothing but the sequencer (R157). -/
structure OnlySequenced (s t : State) : Prop where
  frame : BlockFrame s t
  mq : t.mq = s.mq
  ctxmap : t.ctxmap = s.ctxmap
  coef : t.coef = s.coef

theorem State.NoSegment.of_frame {t : State} (h : s.NoSegment) (hf : BlockFrame s t) : t.NoSegment := by
  unfold State.NoSegment State.Absent State.slotAt at *
  rw [hf.lat, hf.cfg, hf.segtab]
  exact h

theorem State.NoSegment.runLoop (h : s.NoSegment) (k : Nat) : OnlySequenced s (runLoop k s) := by
  refine runLoop_induct (P := OnlySequenced s) (fun t _ ht => ?_) k s ⟨BlockFrame.refl s, rfl, rfl, rfl⟩
  have hbody : stepBody t = advance t := stepBody_skip (h.of_frame ht.frame _)
  refine ⟨ht.frame.trans (stepBody_frame t), ?_, ?_, ?_⟩ <;> rw [hbody]
  · exact ht.mq
  · exact ht.ctxmap
  · exact ht.coef

theorem State.NoSegment.steppable (h : s.NoSegment) (hseq : SeqOk s) (hact : s.stat = .active) : Steppable s :=
  steppable_of_active hseq hact fun p _ _ hbad => hbad.1 (h p)

end Empty

/-- Settles O58: `CB.RUN` skips every pass of the block, which is all 0 since `CB.ATTACH`. -/
theorem emptyBlockStaysZero : Obligations.EmptyBlockStaysZero := by
  unfold Obligations.EmptyBlockStaysZero
  intro s hwf hok hslots
  have hnone : State.NoSegment (respond 0 (attachBlock s)) := fun p => by
    by_cases hn : s.desc.npass.toNat ≤ p
    · exact .inl hn
    · by_cases hp : s.cfg.nslot ≤ p
      · exact .inr (.inl hp)
      · exact .inr (.inr (hslots p (Nat.lt_of_not_le hn) (Nat.lt_of_not_le hp)))
  have hsteppable := hnone.steppable (attachBlock_seqOk hok) rfl
  obtain ⟨_, u, _, _, hdone, _, hrun⟩ := hsteppable.exec_cbRun_eq_issue rfl
  have hloop := hsteppable.exec_cbRun rfl
  have hkeep := hnone.runLoop (3 * (respond 0 (attachBlock s)).lat.nbp.toNat - 2)
  have hstat := congrArg State.stat (Host.Outcome.next.inj (hrun.symm.trans hloop))
  refine ⟨_, _, exec_cbAttach_valid hok, hloop, hstat.symm.trans hdone, rfl, hkeep.frame.flt, hkeep.mq,
    fun x hx y hy => ?_⟩
  obtain ⟨hctx, hcoef⟩ := attachBlock_cells hwf (x := x) (y := y) ⟨hx, hy⟩
  exact ⟨(congrFun₂ (ctxAt_congr hkeep.frame.lat hkeep.ctxmap) x y).trans hctx,
    (congrFun₂ (coefAt_congr hkeep.frame.lat hkeep.coef) x y).trans hcoef⟩

end Sys2Proof.Machine
end

section
/-! PROOF. O54 and O57: the scan, and what `SPP`, `MRP` and `CUP` do at each cell (R160, R170 to R172). -/

namespace Sys2Proof.Machine

/-! ### The scan (R160) -/

/-- A column of the scan starts a stripe of four rows and ends with the stripe or with the block. -/
theorem mem_scanColumns_iff {w h : Nat} {col : Column} : col ∈ scanColumns w h ↔
    col.x < w ∧ col.top % 4 = 0 ∧ col.top < h ∧ col.rows = min 4 (h - col.top) := by
  simp only [scanColumns, List.mem_flatMap, List.mem_map, List.mem_range]
  constructor
  · rintro ⟨s, hs, x, hx, rfl⟩
    exact ⟨hx, by simp, by dsimp only; omega, rfl⟩
  · obtain ⟨top, rows, x⟩ := col
    rintro ⟨hx, hmod, htop, hrows⟩
    dsimp only at hx hmod htop hrows
    have hstripe : 4 * (top / 4) = top := by omega
    exact ⟨top / 4, by omega, x, hx, by rw [hstripe, hrows]⟩

theorem mem_cells_iff {col : Column} {p : Nat × Nat} :
    p ∈ col.cells ↔ p.1 = col.x ∧ col.top ≤ p.2 ∧ p.2 < col.top + col.rows := by
  refine ⟨mem_cells, fun ⟨hx, hlo, hhi⟩ => ?_⟩
  exact List.mem_map.mpr ⟨p.2, List.mem_range'_1.mpr ⟨hlo, hhi⟩, Prod.ext hx.symm rfl⟩

/-- The scan visits exactly the positions of the block. -/
theorem mem_scan_iff {w h : Nat} {p : Nat × Nat} : p ∈ scan w h ↔ p.1 < w ∧ p.2 < h := by
  refine ⟨mem_scan, fun ⟨hx, hy⟩ => ?_⟩
  have hcol : (⟨4 * (p.2 / 4), min 4 (h - 4 * (p.2 / 4)), p.1⟩ : Column) ∈ scanColumns w h :=
    mem_scanColumns_iff.mpr ⟨hx, by simp, by dsimp only; omega, rfl⟩
  exact List.mem_flatMap.mpr ⟨_, hcol, mem_cells_iff.mpr ⟨rfl, by dsimp only; omega, by dsimp only; omega⟩⟩

/-- In a column that starts a stripe the rows come top to bottom. -/
theorem cells_pairwise {w h : Nat} {col : Column} (hcol : col ∈ scanColumns w h) : col.cells.Pairwise Earlier := by
  obtain ⟨_, hmod, _, hrows⟩ := mem_scanColumns_iff.mp hcol
  rw [Column.cells, List.pairwise_map]
  refine List.Pairwise.imp_of_mem (fun {y z} hy hz hlt => ?_) List.pairwise_lt_range'
  rw [List.mem_range'_1] at hy hz
  unfold Earlier
  dsimp only
  omega

/-- The columns come stripe by stripe, and in a stripe left to right. -/
theorem scanColumns_pairwise (w h : Nat) :
    (scanColumns w h).Pairwise fun c d => c.top < d.top ∨ (c.top = d.top ∧ c.x < d.x) := by
  refine List.pairwise_flatMap.mpr ⟨fun s _ => ?_, ?_⟩
  · refine List.pairwise_map.mpr (List.pairwise_lt_range.imp fun hlt => .inr ⟨rfl, hlt⟩)
  · refine List.pairwise_lt_range.imp fun {s t} hlt c hc d hd => ?_
    obtain ⟨_, _, rfl⟩ := List.mem_map.mp hc
    obtain ⟨_, _, rfl⟩ := List.mem_map.mp hd
    exact .inl (by dsimp only; omega)

/-- Settles O57: the columns in order, the rows of a column in order, and the positions of the block by division. -/
theorem scanOrder : Obligations.ScanOrder := by
  unfold Obligations.ScanOrder
  refine fun w h => ⟨List.pairwise_flatMap.mpr ⟨fun col hcol => cells_pairwise hcol, ?_⟩, fun p => mem_scan_iff⟩
  refine (scanColumns_pairwise w h).imp_of_mem fun {c d} hc hd hcd p hp q hq => ?_
  obtain ⟨_, hmodc, _, hrowsc⟩ := mem_scanColumns_iff.mp hc
  obtain ⟨_, hmodd, _, hrowsd⟩ := mem_scanColumns_iff.mp hd
  have hp' := mem_cells hp
  have hq' := mem_cells hq
  unfold Earlier
  omega

/-! ### One cell of a pass (R170, R171, R172) -/

section Cell

variable {s : State} {b : Nat}

theorem sppCell_own {x y c : Nat} (hlo : 1 ≤ c) (hhi : c ≤ 8) (hc : s.ctxAt x y = c) : sppCell b s (x, y) =
    if (decodeBit c s).1 = true then signify x y b .prop (decodeBit c s).2 else (decodeBit c s).2 := by
  simp only [sppCell, hc, Int.natAbs_natCast]
  exact if_pos ⟨by omega, by omega⟩

theorem sppCell_other {p : Nat × Nat} (h : ¬ (1 ≤ s.ctxAt p.1 p.2 ∧ s.ctxAt p.1 p.2 ≤ 8)) : sppCell b s p = s :=
  if_neg h

theorem mrpCell_other {p : Nat × Nat} (h : (s.ctxAt p.1 p.2).natAbs < 15) : mrpCell b s p = s :=
  if_neg fun hsig => absurd (significant_iff.mp hsig) (Nat.not_le.mpr h)

theorem cupCell_own {x y c : Nat} (hhi : c ≤ 8) (hc : s.ctxAt x y = -c) : cupCell b s (x, y) =
    if (decodeBit c (s.setCtx x y c)).1 = true then signify x y b .cleanup (decodeBit c (s.setCtx x y c)).2
    else (decodeBit c (s.setCtx x y c)).2 := by
  simp only [cupCell, hc, Int.natAbs_neg, Int.natAbs_natCast, Int.neg_neg]
  exact if_pos ⟨by omega, by omega⟩

theorem cupCell_other {p : Nat × Nat} (h : ¬ (-8 ≤ s.ctxAt p.1 p.2 ∧ s.ctxAt p.1 p.2 ≤ 0)) : cupCell b s p = s :=
  if_neg h

/-! ### One column of a cleanup pass (R172) -/

/-- The run-length branch is taken at a column of four rows that are all 0. -/
theorem runLength_column {x top rows : Nat} : s.runLength { top := top, rows := rows, x := x } = true ↔
    rows = 4 ∧ ∀ y, top ≤ y → y < top + 4 → s.ctxAt x y = 0 := by
  rw [runLength_iff]
  refine and_congr_right fun hrows => ⟨fun h y hlo hhi => ?_, fun h p hp => ?_⟩
  · exact h (x, y) (mem_cells_iff.mpr ⟨rfl, hlo, hrows ▸ hhi⟩)
  · obtain ⟨hx, hlo, hhi⟩ := mem_cells hp
    dsimp only at hrows hx hlo hhi
    rw [hx]
    exact h p.2 hlo (by omega)

theorem cupColumn_run {col : Column} (h : s.runLength col = true) : cupColumn b s col =
    if (decodeBit 9 s).1 = true then cupRun b (decodeBit 9 s).2 col else (decodeBit 9 s).2 :=
  if_pos h

theorem cupColumn_cells {col : Column} (h : ¬ s.runLength col = true) :
    cupColumn b s col = col.cells.foldl (cupCell b) s :=
  if_neg h

/-- The rows of a column of four below the one found. -/
theorem cells_drop (top x k : Nat) : (Column.cells { top := top, rows := 4, x := x }).drop (k + 1) =
    (List.range' (top + k + 1) (3 - k)).map fun y => (x, y) := by
  rw [Column.cells, ← List.map_drop, List.drop_range', Nat.mul_one, Nat.succ_sub_succ, Nat.add_assoc]

/-- The run of a column of four: the position from two decodes, the row found, and the rows below it. -/
theorem cupRun_column {top x k : Nat} {k1 k0 : Bool × Mqd} (h1 : mqDecode s.segmem 18 s.mq = k1)
    (h0 : mqDecode s.segmem 18 k1.2 = k0) (hk : 2 * k1.1.toNat + k0.1.toNat = k) :
    cupRun b s { top := top, rows := 4, x := x } =
      ((List.range' (top + k + 1) (3 - k)).map fun y => (x, y)).foldl (cupCell b)
        (signify x (top + k) b .cleanup { s with mq := k0.2 }) := by
  have hdec1 : decodeBit 18 s = (k1.1, { s with mq := k1.2 }) := by rw [← h1]; rfl
  have hdec0 : decodeBit 18 { s with mq := k1.2 } = (k0.1, { s with mq := k0.2 }) := by rw [← h0]; rfl
  rw [cupRun, hdec1, hdec0, ← cells_drop, hk]

end Cell

/-! ### A pass without a cell of its own -/

/-- A fold whose every step leaves the state `s` as it is. -/
theorem foldl_eq_self {β : Type} {f : State → β → State} {s : State} {l : List β} (h : ∀ a ∈ l, f s a = s) :
    l.foldl f s = s :=
  foldl_keeps (P := fun t => t = s) (fun t a ha ht => by rw [ht]; exact h a ha) s rfl

theorem cupColumn_other {s : State} {b : Nat} {col : Column} (hrows : 0 < col.rows)
    (h : ∀ p ∈ col.cells, ¬ (-8 ≤ s.ctxAt p.1 p.2 ∧ s.ctxAt p.1 p.2 ≤ 0)) : cupColumn b s col = s := by
  have hrun : ¬ s.runLength col = true := fun hrun => by
    have hzero := (runLength_iff.mp hrun).2 (col.x, col.top) (mem_cells_iff.mpr ⟨rfl, le_rfl, by dsimp only; omega⟩)
    exact h (col.x, col.top) (mem_cells_iff.mpr ⟨rfl, le_rfl, by dsimp only; omega⟩) (by dsimp only at *; omega)
  rw [cupColumn_cells hrun]
  exact foldl_eq_self fun p hp => cupCell_other (h p hp)

/-- Settles O54, cell by cell and column by column. -/
theorem passCellRules : Obligations.PassCellRules := by
  unfold Obligations.PassCellRules
  intro s b
  refine ⟨⟨rfl, rfl, rfl, fun col hcol => mem_scanColumns_iff.mp hcol⟩, fun x y c => ⟨?_, ?_, ?_, ?_⟩,
    fun x top rows => ?_, fun h => ?_, fun h => ?_, fun h => ?_⟩
  · exact fun hlo hhi hc => sppCell_own hlo hhi hc
  · exact fun h => sppCell_other (by dsimp only; omega)
  · exact fun hhi hc => cupCell_own hhi hc
  · exact fun h => cupCell_other (by dsimp only; omega)
  · intro zeroRun run k1 k0 k
    refine ⟨fun hz hbit => ?_, fun hz hbit => ?_, fun hz => ?_⟩
    · rw [cupColumn_run (runLength_column.mpr hz)]
      exact if_neg (Bool.eq_false_iff.mp hbit)
    · obtain rfl : rows = 4 := hz.1
      rw [cupColumn_run (runLength_column.mpr hz)]
      refine (if_pos hbit).trans ?_
      exact cupRun_column (s := (decodeBit 9 s).2) rfl rfl rfl
    · exact cupColumn_cells fun hrun => hz (runLength_column.mp hrun)
  · exact foldl_eq_self fun p hp => sppCell_other (h p.1 p.2 (mem_scan hp))
  · exact foldl_eq_self fun p hp => mrpCell_other (h p.1 p.2 (mem_scan hp))
  · refine foldl_eq_self fun col hcol => ?_
    obtain ⟨hx, _, htop, hrows⟩ := mem_scanColumns_iff.mp hcol
    refine cupColumn_other (by omega) fun p hp => h p.1 p.2 ?_
    obtain ⟨_, hlo, hhi⟩ := mem_cells hp
    exact ⟨by omega, by omega⟩

end Sys2Proof.Machine
end

section
/-! PROOF. O51: `NeighborUpdate`, cell by cell (R176, R177, R178, R181). -/

namespace Sys2Proof.Machine

/-! ### The eight neighbours of a coefficient are different from it and from one another (R179) -/

theorem neighbour_ne_self {s : State} {d : Dir} {x y u v : Nat} (h : s.neighbour d x y = some (u, v)) :
    ¬(u = x ∧ v = y) := by
  obtain ⟨hx, hy, _⟩ := neighbour_eq_some.mp h
  cases d <;> simp only [Dir.dx, Dir.dy] at hx hy <;> omega

/-- A direction is its row of the table of R179. -/
theorem dir_ext {d d' : Dir} (hx : d.dx = d'.dx) (hy : d.dy = d'.dy) : d = d' := by
  revert hx hy
  cases d <;> cases d' <;> decide

theorem neighbour_dir_unique {s : State} {d d' : Dir} {x y u v : Nat} (h : s.neighbour d x y = some (u, v))
    (h' : s.neighbour d' x y = some (u, v)) : d = d' := by
  obtain ⟨hx, hy, _⟩ := neighbour_eq_some.mp h
  obtain ⟨hx', hy', _⟩ := neighbour_eq_some.mp h'
  exact dir_ext (by omega) (by omega)

theorem mem_allDirs (d : Dir) : d ∈ allDirs := by
  cases d <;> decide

theorem allDirs_nodup : allDirs.Nodup := by decide

/-- What an iteration over the directions splits into at one of them: it does not come before itself, nor again. -/
theorem allDirs_split (d : Dir) : ∃ pre post, allDirs = pre ++ d :: post ∧ d ∉ pre ∧ d ∉ post := by
  obtain ⟨pre, post, hall⟩ := List.append_of_mem (mem_allDirs d)
  have hnodup := hall ▸ allDirs_nodup
  obtain ⟨_, htail, hdisj⟩ := List.nodup_append.mp hnodup
  exact ⟨pre, post, hall, fun hpre => hdisj d hpre d List.mem_cons_self rfl, (List.nodup_cons.mp htail).1⟩

/-! ### One iteration (R178) -/

/-- `t` differs from `s` in the context map at most, and both maps are in canonical form. -/
structure MapWritten (s t : State) : Prop where
  wf : Memory.wf blankCell t.ctxmap = true
  eq : t = { s with ctxmap := t.ctxmap }

section Cells

variable {s t : State} {x y : Nat}

theorem MapWritten.lat (h : MapWritten s t) : t.lat = s.lat := by
  rw [h.eq]

theorem MapWritten.setCtx (h : MapWritten s t) (u v : Nat) (c : Int) : MapWritten s (t.setCtx u v c) := by
  obtain ⟨hwf, heq⟩ := h
  generalize t.ctxmap = map at heq
  subst heq
  exact ⟨Memory.wf_write hwf _ _, rfl⟩

theorem MapWritten.updateNeighbour (h : MapWritten s t) (o : Origin) (d : Dir) :
    MapWritten s (updateNeighbour x y o t d) := by
  unfold Machine.updateNeighbour
  split
  · exact h.setCtx _ _ _
  · exact h

theorem updateNeighbour_ctxAt_same {o : Origin} {d : Dir} {u v : Nat} (hwf : Memory.wf blankCell s.ctxmap = true)
    (hn : s.neighbour d x y = some (u, v)) :
    (updateNeighbour x y o s d).ctxAt u v = updatedCell (groupOf s.lat.sb) (s.ctxAt u v) d y o := by
  simp only [updateNeighbour, hn]
  exact ctxAt_setCtx_same hwf u v (updatedCell_range (ctxAt_range s u v) _ d y o)

theorem updateNeighbour_ctxAt_other {o : Origin} {d : Dir} {u v : Nat} (hwf : Memory.wf blankCell s.ctxmap = true)
    (hu : s.InBlock u v) (hn : s.neighbour d x y ≠ some (u, v)) :
    (updateNeighbour x y o s d).ctxAt u v = s.ctxAt u v := by
  cases hd : s.neighbour d x y with
  | none => simp only [updateNeighbour, hd]
  | some p =>
    simp only [updateNeighbour, hd]
    refine ctxAt_setCtx_other hwf (neighbour_inBlock hd).1 hu.1 ?_ _
    rintro ⟨rfl, rfl⟩
    exact hn hd

/-! ### The iterations together -/

/-- The iterations over directions none of which leads to `(u, v)`. -/
theorem foldl_updateNeighbour_other {o : Origin} {ds : List Dir} {u v : Nat} (h : MapWritten s t)
    (hu : s.InBlock u v) (hds : ∀ d ∈ ds, s.neighbour d x y ≠ some (u, v)) :
    MapWritten s (ds.foldl (updateNeighbour x y o) t) ∧
      (ds.foldl (updateNeighbour x y o) t).ctxAt u v = t.ctxAt u v := by
  refine foldl_keeps (P := fun r => MapWritten s r ∧ r.ctxAt u v = t.ctxAt u v) (fun r d hd hr => ?_) t ⟨h, rfl⟩
  refine ⟨hr.1.updateNeighbour o d, ?_⟩
  rw [updateNeighbour_ctxAt_other hr.1.wf (inBlock_of_lat hr.1.lat hu), hr.2]
  rw [neighbour_congr hr.1.lat]
  exact hds d hd

/-- The eight iterations update the neighbour in direction `d` once. -/
theorem foldl_updateNeighbour_same {o : Origin} {d : Dir} {u v : Nat} (h : MapWritten s t)
    (hn : s.neighbour d x y = some (u, v)) : (allDirs.foldl (updateNeighbour x y o) t).ctxAt u v =
      updatedCell (groupOf s.lat.sb) (t.ctxAt u v) d y o := by
  obtain ⟨pre, post, hall, hpre, hpost⟩ := allDirs_split d
  have hu : s.InBlock u v := neighbour_inBlock hn
  have hother : ∀ d', d' ≠ d → s.neighbour d' x y ≠ some (u, v) := fun d' hne hn' => hne (neighbour_dir_unique hn' hn)
  obtain ⟨hbefore, hkept⟩ := foldl_updateNeighbour_other (o := o) (ds := pre) h hu
    fun d' hd' => hother d' fun heq => hpre (heq ▸ hd')
  rw [hall, List.foldl_append, List.foldl_cons]
  rw [(foldl_updateNeighbour_other (hbefore.updateNeighbour o d) hu
    fun d' hd' => hother d' fun heq => hpost (heq ▸ hd')).2]
  rw [updateNeighbour_ctxAt_same hbefore.wf (by rw [neighbour_congr hbefore.lat]; exact hn), hbefore.lat, hkept]

variable {o : Origin} {u v : Nat} (hwf : Memory.wf blankCell s.ctxmap = true) (hb : s.InBlock x y)

section

include hwf

theorem setCtx_mapWritten (x y : Nat) (c : Int) : MapWritten s (s.setCtx x y c) := ⟨Memory.wf_write hwf _ _, rfl⟩

/-- `NeighborUpdate` writes the context map and nothing else. -/
theorem neighborUpdate_mapWritten : MapWritten s (neighborUpdate x y o s) :=
  foldl_keeps (fun _ d _ h => h.updateNeighbour o d) _ (setCtx_mapWritten hwf x y _)

include hb

/-- The own context is that of R176: no iteration over the neighbours touches it. -/
theorem neighborUpdate_ctxAt_own : (neighborUpdate x y o s).ctxAt x y = ownCell (s.anySignificant x y) o := by
  have hother := foldl_updateNeighbour_other (o := o) (ds := allDirs)
    (setCtx_mapWritten hwf x y (ownCell (s.anySignificant x y) o)) hb
    fun d _ hn => neighbour_ne_self hn ⟨rfl, rfl⟩
  refine hother.2.trans (ctxAt_setCtx_same hwf x y ?_)
  have hown := ownCell_mem (s.anySignificant x y) o
  simp only [List.mem_cons, List.not_mem_nil, or_false] at hown
  omega

/-- Each neighbour takes the value of R177 and R178. -/
theorem neighborUpdate_ctxAt_neighbour {d : Dir} (hn : s.neighbour d x y = some (u, v)) :
    (neighborUpdate x y o s).ctxAt u v = updatedCell (groupOf s.lat.sb) (s.ctxAt u v) d y o := by
  refine (foldl_updateNeighbour_same (setCtx_mapWritten hwf x y _) hn).trans ?_
  rw [ctxAt_setCtx_other hwf hb.1 (neighbour_inBlock hn).1 (neighbour_ne_self hn)]

/-- No cell changes but the own one and the neighbours. -/
theorem neighborUpdate_ctxAt_other (hu : s.InBlock u v) (hne : ¬(u = x ∧ v = y))
    (hn : ∀ d, s.neighbour d x y ≠ some (u, v)) : (neighborUpdate x y o s).ctxAt u v = s.ctxAt u v := by
  refine (foldl_updateNeighbour_other (setCtx_mapWritten hwf x y _) hu fun d _ => hn d).2.trans ?_
  exact ctxAt_setCtx_other hwf hb.1 hu.1 hne _

end

end Cells

/-! ### The values written (R176, R177, R181) -/

theorem anySignificant_iff {s : State} {x y : Nat} : s.anySignificant x y = true ↔
    ∃ d nx ny, s.neighbour d x y = some (nx, ny) ∧ 15 ≤ (s.ctxAt nx ny).natAbs := by
  rw [State.anySignificant, List.any_eq_true]
  refine exists_congr fun d => ?_
  cases hn : s.neighbour d x y with
  | none => simp
  | some p =>
    obtain ⟨nx, ny⟩ := p
    simp [mem_allDirs, significant_iff]

/-- The sign rule of R181, both origins in one: the coefficient found by a cleanup pass makes the later cells negative,
the one found by a propagation pass the earlier ones. -/
theorem negative_iff {c : Int} {d : Dir} {y : Nat} {o : Origin} :
    negative c d y o = true ↔ c ≤ 0 ∧ (later d y = true ↔ o = .cleanup) := by
  unfold negative
  split_ifs with hpos
  · simp [hpos]
  · cases o <;> simp [Int.not_lt.mp hpos]

theorem ownCell_true (o : Origin) : ownCell true o = if o = .cleanup then 16 else -16 := by cases o <;> rfl

theorem ownCell_false (o : Origin) : ownCell false o = if o = .cleanup then 15 else -15 := by cases o <;> rfl

section Updated

variable {g : Group} {c : Int} {d : Dir} {y : Nat} {o : Origin}

theorem updatedCell_promoted (h : c.natAbs = 15) : updatedCell g c d y o = if 0 < c then 16 else -16 := if_pos h

theorem updatedCell_label (h : c.natAbs ≤ 8) : updatedCell g c d y o =
    if c ≤ 0 ∧ (later d y = true ↔ o = .cleanup) then -(nextMag g d.cls c.natAbs : Int)
    else nextMag g d.cls c.natAbs := by
  rw [updatedCell, if_neg (by omega), if_pos h]
  simp only [negative_iff]

theorem updatedCell_kept (h8 : 8 < c.natAbs) (h15 : c.natAbs ≠ 15) : updatedCell g c d y o = c := by
  rw [updatedCell, if_neg h15, if_neg (by omega)]

end Updated

/-- Settles O51, from the cells of `NeighborUpdate` and the values written. -/
theorem neighbourUpdateCells : Obligations.NeighbourUpdateCells := by
  unfold Obligations.NeighbourUpdateCells
  intro s x y o hwf hb t
  have hmap : Memory.wf blankCell s.ctxmap = true := memoriesWf_ctxmap hwf
  have hown : t.ctxAt x y = ownCell (s.anySignificant x y) o := neighborUpdate_ctxAt_own hmap hb
  refine ⟨(neighborUpdate_mapWritten hmap).eq, fun hany => ?_, fun hnone => ?_, fun d nx ny hn => ?_,
    fun u v hu hne hn => neighborUpdate_ctxAt_other hmap hb hu hne hn⟩
  · rw [hown, anySignificant_iff.mpr hany, ownCell_true]
  · have hno : s.anySignificant x y = false := by
      refine Bool.eq_false_iff.mpr fun hany => ?_
      obtain ⟨d, nx, ny, hn, hsig⟩ := anySignificant_iff.mp hany
      exact absurd (hnone d nx ny hn) (Nat.not_lt.mpr hsig)
    rw [hown, hno, ownCell_false]
  · rw [show t.ctxAt nx ny = _ from neighborUpdate_ctxAt_neighbour hmap hb hn]
    exact ⟨updatedCell_promoted, updatedCell_label, updatedCell_kept⟩

end Sys2Proof.Machine
end

section
/-! PROOF. O45 and O49: the magnitude of a cell that is not significant is the label of its neighbourhood (R182 to R187,
R191). -/

namespace Sys2Proof.Machine

/-! ### The tables add one significant neighbour to a label (R182 to R185, R187) -/

/-- How many neighbours a coefficient has of a class (R179). -/
def DirClass.size : DirClass → Nat
  | .horizontal => 2
  | .vertical => 2
  | .diagonal => 4

theorem nextMag_label : ∀ (g : Group), ∀ h, h ≤ 2 → ∀ v, v ≤ 2 → ∀ d, d ≤ 4 →
    (h < 2 → nextMag g .horizontal (label g h v d) = label g (h + 1) v d) ∧
    (v < 2 → nextMag g .vertical (label g h v d) = label g h (v + 1) d) ∧
    (d < 4 → nextMag g .diagonal (label g h v d) = label g h v (d + 1)) := by
  intro g h hh v hv d hd
  have hall : ∀ (h v : Fin 3) (d : Fin 5),
      (h.val < 2 → nextMag g .horizontal (label g h v d) = label g (h + 1) v d) ∧
      (v.val < 2 → nextMag g .vertical (label g h v d) = label g h (v + 1) d) ∧
      (d.val < 4 → nextMag g .diagonal (label g h v d) = label g h v (d + 1)) := by
    cases g <;> decide
  exact hall ⟨h, by omega⟩ ⟨v, by omega⟩ ⟨d, by omega⟩

theorem le_nextMag (g : Group) (k : DirClass) : ∀ m : Nat, m ≤ 8 → m ≤ nextMag g k m := by
  cases g <;> cases k <;> decide

/-- Settles O49: the tables by evaluation at every label, group by group. -/
theorem nextTablesFollowLabels : Obligations.NextTablesFollowLabels := by
  unfold Obligations.NextTablesFollowLabels
  exact fun g => ⟨nextMag_label g, fun k m hm => ⟨le_nextMag g k m hm, nextMag_le g k m hm⟩⟩

/-! ### The significant neighbours of a class -/

/-- The neighbour of `(x, y)` in direction `d` is there and significant. -/
def State.sigAt (s : State) (x y : Nat) (d : Dir) : Bool :=
  match s.neighbour d x y with
  | some (nx, ny) => significant (s.ctxAt nx ny)
  | none => false

theorem sigAt_some {s : State} {x y u v : Nat} {d : Dir} (h : s.neighbour d x y = some (u, v)) :
    s.sigAt x y d = significant (s.ctxAt u v) := by
  rw [State.sigAt, h]

theorem sigAt_none {s : State} {x y : Nat} {d : Dir} (h : s.neighbour d x y = none) : s.sigAt x y d = false := by
  rw [State.sigAt, h]

theorem sigCount_eq_countP (s : State) (k : DirClass) (x y : Nat) :
    s.sigCount k x y = allDirs.countP fun d => decide (d.cls = k) && s.sigAt x y d :=
  List.countP_eq_length_filter.symm

theorem sigCount_le (s : State) (k : DirClass) (x y : Nat) : s.sigCount k x y ≤ k.size := by
  rw [sigCount_eq_countP]
  calc allDirs.countP (fun d => decide (d.cls = k) && s.sigAt x y d)
      ≤ allDirs.countP fun d => decide (d.cls = k) :=
        List.countP_mono_left fun d _ h => (Bool.and_eq_true_iff.mp h).1
    _ = k.size := by cases k <;> rfl

/-- The count depends on which neighbours are significant only. -/
theorem sigCount_congr {s t : State} {x y : Nat} (k : DirClass) (h : ∀ d, t.sigAt x y d = s.sigAt x y d) :
    t.sigCount k x y = s.sigCount k x y := by
  simp only [sigCount_eq_countP, h]

/-- One more significant neighbour, in direction `d`, counts in the class of `d` and in no other. -/
theorem sigCount_succ {s t : State} {x y : Nat} {d : Dir} (k : DirClass) (hs : s.sigAt x y d = false)
    (ht : t.sigAt x y d = true) (hother : ∀ d', d' ≠ d → t.sigAt x y d' = s.sigAt x y d') :
    t.sigCount k x y = s.sigCount k x y + if d.cls = k then 1 else 0 := by
  obtain ⟨pre, post, hall, hpre, hpost⟩ := allDirs_split d
  have hpart : ∀ ds : List Dir, d ∉ ds → ds.countP (fun d' => decide (d'.cls = k) && t.sigAt x y d') =
      ds.countP fun d' => decide (d'.cls = k) && s.sigAt x y d' := fun ds hd =>
    List.countP_congr fun d' hd' => by rw [hother d' fun heq => hd (heq ▸ hd')]
  simp only [sigCount_eq_countP, hall, List.countP_append, List.countP_cons, hpart pre hpre, hpart post hpost, hs, ht,
    Bool.and_true, Bool.and_false, decide_eq_true_eq, Bool.false_eq_true, if_false]
  omega

/-! ### The label of a neighbourhood (R187) -/

/-- `LABEL` of the neighbourhood of `(x, y)`. -/
def State.labelAt (s : State) (x y : Nat) : Nat :=
  label (groupOf s.lat.sb) (s.sigCount .horizontal x y) (s.sigCount .vertical x y) (s.sigCount .diagonal x y)

theorem labelAt_congr {s t : State} {x y : Nat} (hlat : t.lat = s.lat) (h : ∀ d, t.sigAt x y d = s.sigAt x y d) :
    t.labelAt x y = s.labelAt x y := by
  simp only [State.labelAt, hlat, sigCount_congr _ h]

/-- The table entry of the class of `d` is the label after the neighbour in direction `d` has become significant. -/
theorem labelAt_succ {s t : State} {x y : Nat} {d : Dir} (hlat : t.lat = s.lat) (hs : s.sigAt x y d = false)
    (ht : t.sigAt x y d = true) (hother : ∀ d', d' ≠ d → t.sigAt x y d' = s.sigAt x y d') :
    t.labelAt x y = nextMag (groupOf s.lat.sb) d.cls (s.labelAt x y) := by
  have hcount := fun k => sigCount_succ k hs ht hother
  have hroom : s.sigCount d.cls x y < d.cls.size := by
    have hle := sigCount_le t d.cls x y
    rw [hcount, if_pos rfl] at hle
    exact hle
  obtain ⟨hH, hV, hD⟩ := nextMag_label (groupOf s.lat.sb) _ (sigCount_le s .horizontal x y) _
    (sigCount_le s .vertical x y) _ (sigCount_le s .diagonal x y)
  simp only [State.labelAt, hlat, hcount]
  cases hcls : d.cls <;> rw [hcls] at hroom
  case horizontal => simpa using (hH hroom).symm
  case vertical => simpa using (hV hroom).symm
  case diagonal => simpa using (hD hroom).symm

/-! ### The events of a pass keep the labels -/

/-- The magnitude of every cell of the latched block that is not significant is the label of its neighbourhood. -/
abbrev LabelBlock (s : State) : Prop :=
  ∀ x, x < s.width → ∀ y, y < s.height → significant (s.ctxAt x y) = false → (s.ctxAt x y).natAbs = s.labelAt x y

theorem sigAt_congr {s t : State} (hlat : t.lat = s.lat)
    (hsig : ∀ u v, s.InBlock u v → significant (t.ctxAt u v) = significant (s.ctxAt u v)) (x y : Nat) (d : Dir) :
    t.sigAt x y d = s.sigAt x y d := by
  cases hn : s.neighbour d x y with
  | none => rw [sigAt_none hn, sigAt_none (by rw [neighbour_congr hlat]; exact hn)]
  | some p => rw [sigAt_some hn, sigAt_some (by rw [neighbour_congr hlat]; exact hn), hsig _ _ (neighbour_inBlock hn)]

/-- An event that makes no coefficient significant and keeps the other magnitudes keeps the labels. -/
theorem labelBlock_of_sig {s t : State} (hlat : t.lat = s.lat)
    (hsig : ∀ u v, s.InBlock u v → significant (t.ctxAt u v) = significant (s.ctxAt u v))
    (habs : ∀ u v, s.InBlock u v → significant (s.ctxAt u v) = false → (t.ctxAt u v).natAbs = (s.ctxAt u v).natAbs)
    (h : LabelBlock s) : LabelBlock t := by
  intro u hu v hv hins
  have huv : s.InBlock u v := inBlock_of_lat hlat.symm ⟨hu, hv⟩
  rw [hsig u v huv] at hins
  rw [habs u v huv hins, labelAt_congr hlat (sigAt_congr hlat hsig u v)]
  exact h u huv.1 v huv.2 hins

/-- A cell that is not significant holds a magnitude 0 to 8 (R37). -/
theorem LegalCell.natAbs_le {c : Int} (h : LegalCell c) (hins : significant c = false) : c.natAbs ≤ 8 := by
  have hlt : ¬ 15 ≤ c.natAbs := fun hle => by rw [significant_iff.mpr hle] at hins; cases hins
  unfold LegalCell at h
  omega

theorem natAbs_updatedCell {g : Group} {c : Int} {d : Dir} {y : Nat} {o : Origin} (h : c.natAbs ≤ 8) :
    (updatedCell g c d y o).natAbs = nextMag g d.cls c.natAbs := by
  rw [updatedCell_label h]
  split_ifs
  · rw [Int.natAbs_neg, Int.natAbs_natCast]
  · rw [Int.natAbs_natCast]

/-- The direction back (R179). -/
def Dir.opposite : Dir → Dir
  | .left => .right
  | .right => .left
  | .up => .down
  | .down => .up
  | .upLeft => .downRight
  | .upRight => .downLeft
  | .downLeft => .upRight
  | .downRight => .upLeft

theorem Dir.opposite_spec (d : Dir) : d.opposite.cls = d.cls ∧ d.opposite.dx = -d.dx ∧ d.opposite.dy = -d.dy := by
  cases d <;> decide

/-- A coefficient is the neighbour of its neighbour. -/
theorem neighbour_opposite {s : State} {d : Dir} {x y u v : Nat} (hb : s.InBlock x y)
    (h : s.neighbour d x y = some (u, v)) : s.neighbour d.opposite u v = some (x, y) := by
  obtain ⟨hx, hy, _⟩ := neighbour_eq_some.mp h
  obtain ⟨_, hdx, hdy⟩ := d.opposite_spec
  exact neighbour_eq_some.mpr ⟨by omega, by omega, hb⟩

theorem opposite_opposite (d : Dir) : d.opposite.opposite = d := by cases d <;> rfl

section Signify

variable {s t : State} {x y u v : Nat}

/-- Once `(x, y)` is significant, the neighbours of another coefficient are significant as before, but for `(x, y)`. -/
theorem Signified.sigAt (h : Signified x y s t) {d : Dir} (hne : s.neighbour d u v ≠ some (x, y)) :
    t.sigAt u v d = s.sigAt u v d := by
  cases hn : s.neighbour d u v with
  | none => rw [sigAt_none hn, sigAt_none (by rw [neighbour_congr h.lat]; exact hn)]
  | some p =>
    rw [sigAt_some hn, sigAt_some (by rw [neighbour_congr h.lat]; exact hn)]
    refine h.other _ _ (neighbour_inBlock hn) fun hxy => hne ?_
    rw [hn, ← hxy.1, ← hxy.2]

/-- The label of a neighbour of the newly significant coefficient takes one more significant neighbour. -/
theorem Signified.labelAt_neighbour (h : Signified x y s t) (hb : s.InBlock x y)
    (hins : significant (s.ctxAt x y) = false) {d : Dir} (hn : s.neighbour d x y = some (u, v)) :
    t.labelAt u v = nextMag (groupOf s.lat.sb) d.cls (s.labelAt u v) := by
  have hback := neighbour_opposite hb hn
  rw [← d.opposite_spec.1]
  refine labelAt_succ h.lat ?_ ?_ fun d' hd' => h.sigAt fun hn' => hd' (neighbour_dir_unique hn' hback)
  · rw [sigAt_some hback, hins]
  · rw [sigAt_some (by rw [neighbour_congr h.lat]; exact hback), h.own]

/-- The label of any other coefficient stays. -/
theorem Signified.labelAt_other (h : Signified x y s t) (hu : s.InBlock u v)
    (hn : ∀ d, s.neighbour d x y ≠ some (u, v)) : t.labelAt u v = s.labelAt u v := by
  refine labelAt_congr h.lat fun d => h.sigAt fun hback => hn d.opposite ?_
  exact neighbour_opposite hu hback

/-- `Signify` writes the cells that `NeighborUpdate` writes: sign decoding leaves the context map alone (R173, R174). -/
theorem signify_eq_neighborUpdate (x y b : Nat) (o : Origin) (s : State) : ∃ r : State, r.lat = s.lat ∧
    r.ctxmap = s.ctxmap ∧ signify x y b o s = neighborUpdate x y o r :=
  ⟨signDecode x y (s.setCoef x y { s.coefAt x y with mag := planeMask b ||| halfMask b }),
    signDecode_lat x y _, signDecode_ctxmap x y _, by rw [signify]⟩

theorem signify_labelBlock {b : Nat} {o : Origin} (hb : s.InBlock x y) (hc : (s.ctxAt x y).natAbs ≤ 8)
    (h : LegalWf s) (hlabel : LabelBlock s) : LabelBlock (signify x y b o s) := by
  have hsig := signify_signified b o h.1 hb
  have hins : significant (s.ctxAt x y) = false := decide_eq_false (by omega)
  obtain ⟨r, hlat, hmap, heq⟩ := signify_eq_neighborUpdate x y b o s
  have hwf : Memory.wf blankCell r.ctxmap = true := hmap ▸ memoriesWf_ctxmap h.1
  have hbr : r.InBlock x y := inBlock_of_lat hlat hb
  intro u hu v hv hu_ins
  have huv : s.InBlock u v := inBlock_of_lat hsig.lat.symm ⟨hu, hv⟩
  have hne : ¬(u = x ∧ v = y) := by
    rintro ⟨rfl, rfl⟩
    rw [hsig.own] at hu_ins
    cases hu_ins
  rw [hsig.other u v huv hne] at hu_ins
  have hbefore := hlabel u huv.1 v huv.2 hu_ins
  by_cases hn : ∃ d, s.neighbour d x y = some (u, v)
  · obtain ⟨d, hn⟩ := hn
    rw [hsig.labelAt_neighbour hb hins hn, ← hbefore, heq,
      neighborUpdate_ctxAt_neighbour hwf hbr (by rw [neighbour_congr hlat]; exact hn), ctxAt_congr hlat hmap, hlat,
      natAbs_updatedCell ((h.2 u huv.1 v huv.2).natAbs_le hu_ins)]
  · have hn' : ∀ d, s.neighbour d x y ≠ some (u, v) := fun d hd => hn ⟨d, hd⟩
    rw [hsig.labelAt_other huv hn', ← hbefore, heq, neighborUpdate_ctxAt_other hwf hbr (inBlock_of_lat hlat huv) hne
      (by rw [neighbour_congr hlat]; exact hn'), ctxAt_congr hlat hmap]

end Signify

theorem negate_labelBlock {s : State} {x y : Nat} (hb : s.InBlock x y) (h : LegalWf s) (hlabel : LabelBlock s) :
    LabelBlock (s.setCtx x y (-s.ctxAt x y)) := by
  have hrange := legalCell_range (h.2 x hb.1 y hb.2)
  refine labelBlock_of_sig (s := s) rfl (fun u v hu => significant_negate h.1 h.2 hb hu) (fun u v hu _ => ?_) hlabel
  rw [ctxAt_setCtx (memoriesWf_ctxmap h.1) hb (by omega) hu]
  split_ifs with hxy
  · obtain ⟨rfl, rfl⟩ := hxy
    exact Int.natAbs_neg _
  · rfl

theorem refine_labelBlock {s : State} {x y : Nat} (hb : s.InBlock x y) (hc : 15 ≤ s.ctxAt x y) (c : Coef)
    (h : LegalWf s) (hlabel : LabelBlock s) : LabelBlock ((s.setCoef x y c).setCtx x y 17) := by
  have hsig := refine_signified h.1 hb c
  have hown : significant (s.ctxAt x y) = true := significant_iff.mpr (by omega)
  refine labelBlock_of_sig (s := s) rfl (fun u v hu => ?_) (fun u v hu hins => ?_) hlabel
  · by_cases hxy : u = x ∧ v = y
    · obtain ⟨rfl, rfl⟩ := hxy
      rw [hsig.own, hown]
    · exact hsig.other u v hu hxy
  · rw [ctxAt_setCtx_other (memoriesWf_ctxmap (memoriesWf_setCoef h.1 x y c)) hb.1 hu.1, setCoef_ctxAt]
    rintro ⟨rfl, rfl⟩
    rw [hown] at hins
    cases hins

theorem cellKeeps_labelBlock (k : PassKind) (b : Nat) : CellKeeps k b fun s => LegalWf s ∧ LabelBlock s where
  wf _ h := memoriesWf_ctxmap h.1.1
  dec _ _ h := h
  signify _ _ _ _ hb hc h := ⟨signify_legalWf hb h.1, signify_labelBlock hb hc h.1 h.2⟩
  negate _ _ _ hb hc h := ⟨negate_legalWf hb hc h.1, negate_labelBlock hb h.1 h.2⟩
  refine _ _ _ _ _ hb hc h := ⟨refine_legalWf hb _ h.1, refine_labelBlock hb hc _ h.1 h.2⟩

/-! ### Every step keeps the labels -/

/-- Right after an attach every cell is 0 and no coefficient has a significant neighbour. -/
theorem attachBlock_labelBlock {s : State} (hwf : MemoriesWf s) : LabelBlock (attachBlock s) := by
  intro x hx y hy _
  have hnone : ∀ d, (attachBlock s).sigAt x y d = false := fun d => by
    cases hn : (attachBlock s).neighbour d x y with
    | none => exact sigAt_none hn
    | some p => rw [sigAt_some hn, (attachBlock_cells hwf (neighbour_inBlock hn)).1]; decide
  have hzero : ∀ k, (attachBlock s).sigCount k x y = 0 := fun k => by
    simp [sigCount_eq_countP, hnone]
  rw [(attachBlock_cells hwf ⟨hx, hy⟩).1, State.labelAt, hzero, hzero, hzero]
  cases groupOf (attachBlock s).lat.sb <;> rfl

theorem labelBlock_invariant : BlockInvariant fun s => LegalBlock s ∧ LabelBlock s where
  congr s t hlat hctx _ h := by
    have hcell := ctxAt_congr hlat hctx
    refine ⟨(legalBlock_congr hlat hctx).mpr h.1, labelBlock_of_sig hlat (fun u v _ => ?_) (fun u v _ _ => ?_) h.2⟩ <;>
      rw [hcell]
  attach s hwf := ⟨legalBlock_invariant.attach s hwf, attachBlock_labelBlock hwf⟩
  pass k b _ hwf h := by
    obtain ⟨⟨_, hlegal⟩, hlabel⟩ := (cellKeeps_labelBlock k b).runPass ⟨⟨hwf, h.1⟩, h.2⟩
    exact ⟨hlegal, hlabel⟩

/-- Settles O45: the legal values and the labels together are an invariant of the block. -/
theorem labelInvariantKept : Obligations.LabelInvariantKept := by
  unfold Obligations.LabelInvariantKept
  intro s t hwf hcells hlabels hstep ha
  exact ((labelBlock_invariant.stepKeeps.step ⟨hwf, fun ha => ⟨hcells ha, hlabels ha⟩⟩ hstep).2 ha).2

end Sys2Proof.Machine
end

section
/-! PROOF. O52: `Signify` on a coefficient that is not significant (R173, R174). -/

namespace Sys2Proof.Machine

/-! ### What `Signify` composes -/

/-- `s` with the registers of MQD and the coefficient buffer replaced: all that sign decoding changes (R174). -/
def State.withCoefs (s : State) (m : Mqd) (c : Memory Coef) : State := { s with mq := m, coef := c }

theorem updateNeighbour_withCoefs (x y : Nat) (o : Origin) (d : Dir) (s : State) (m : Mqd) (c : Memory Coef) :
    updateNeighbour x y o (s.withCoefs m c) d = (updateNeighbour x y o s d).withCoefs m c := by
  have hn : (s.withCoefs m c).neighbour d x y = s.neighbour d x y := rfl
  unfold updateNeighbour
  rw [hn]
  cases s.neighbour d x y <;> rfl

/-- The neighbour update reads neither MQD nor the coefficients. -/
theorem neighborUpdate_withCoefs (x y : Nat) (o : Origin) (s : State) (m : Mqd) (c : Memory Coef) :
    neighborUpdate x y o (s.withCoefs m c) = (neighborUpdate x y o s).withCoefs m c :=
  List.foldl_hom (fun t : State => t.withCoefs m c) (init := s.setCtx x y _) fun t d =>
    updateNeighbour_withCoefs x y o d t m c

/-- `Contribution` depends on the coefficients of the neighbours, not on the own one (R174). -/
theorem contribution_setCoef {s : State} {x y : Nat} (hwf : Memory.wf blankCoef s.coef = true) (hb : s.InBlock x y)
    (c : Coef) (d : Dir) : (s.setCoef x y c).contribution d x y = s.contribution d x y := by
  unfold State.contribution
  rw [setCoef_neighbour]
  cases hn : s.neighbour d x y with
  | none => rfl
  | some p =>
    dsimp only
    rw [coefAt_setCoef_other hwf hb.1 (neighbour_inBlock hn).1 (neighbour_ne_self hn), setCoef_ctxAt]

theorem signContext_setCoef {s : State} {x y : Nat} (hwf : Memory.wf blankCoef s.coef = true) (hb : s.InBlock x y)
    (c : Coef) : (s.setCoef x y c).signContext x y = s.signContext x y := by
  simp only [State.signContext, contribution_setCoef hwf hb]

/-- Sign decoding makes one decode, with the sign context, and negates the stored sign where R174 says so. -/
theorem signDecode_spec {s : State} (hwf : Memory.wf blankCoef s.coef = true) (x y : Nat) :
    let r := mqDecode s.segmem (Fin.ofNat 19 (s.signContext x y).natAbs) s.mq
    signDecode x y s = s.withCoefs r.2 (signDecode x y s).coef ∧
    (signDecode x y s).coefAt x y =
      { s.coefAt x y with sgn := xor (signFlips (s.signContext x y) r.1) (s.coefAt x y).sgn } := by
  intro r
  cases hflip : signFlips (s.signContext x y) r.1 with
  | false =>
    have hdec : signDecode x y s = (decodeBit (s.signContext x y).natAbs s).2 :=
      if_neg (Bool.eq_false_iff.mp hflip)
    rw [hdec, Bool.false_xor]
    exact ⟨rfl, rfl⟩
  | true =>
    have hdec : signDecode x y s = (decodeBit (s.signContext x y).natAbs s).2.setCoef x y
        { s.coefAt x y with sgn := !(s.coefAt x y).sgn } := if_pos hflip
    rw [hdec, Bool.true_xor]
    exact ⟨rfl, coefAt_setCoef_same hwf x y _⟩

theorem signFlips_iff {sc : Int} {bit : Bool} :
    signFlips sc bit = true ↔ (0 < sc ∧ bit = true) ∨ (sc < 0 ∧ bit = false) := by
  simp [signFlips]

theorem halfMask_getLsbD {b : Nat} (hb : b < 128) (j : Nat) : (halfMask b).getLsbD j = decide (j + 1 = b) := by
  rw [halfMask, BitVec.getLsbD_ushiftRight, planeMask_getLsbD]
  exact decide_eq_decide.mpr (by omega)

/-- The magnitude of a newly significant coefficient has the bits `b` and `b - 1` (R173). -/
theorem newMag_getLsbD {b : Nat} (hb : b < 128) (j : Nat) :
    (planeMask b ||| halfMask b).getLsbD j = true ↔ j = b ∨ j + 1 = b := by
  rw [BitVec.getLsbD_or, Bool.or_eq_true, planeMask_getLsbD, halfMask_getLsbD hb, decide_eq_true_eq, decide_eq_true_eq]
  omega

/-- `Signify` on a coefficient that is 0: MQD and the coefficients after sign decoding, the context map of the neighbour
update, and the coefficient itself (R173). -/
theorem signify_spec {s : State} {x y : Nat} (b : Nat) (o : Origin) (hwf : MemoriesWf s) (hb : s.InBlock x y)
    (hzero : s.coefAt x y = { sgn := false, mag := 0 }) :
    let r := mqDecode s.segmem (Fin.ofNat 19 (s.signContext x y).natAbs) s.mq
    (∃ c, signify x y b o s = (neighborUpdate x y o s).withCoefs r.2 c) ∧
    (signify x y b o s).coefAt x y =
      { sgn := signFlips (s.signContext x y) r.1, mag := planeMask b ||| halfMask b } := by
  intro r
  have hcoef : Memory.wf blankCoef s.coef = true := memoriesWf_coef hwf
  have hsignify : signify x y b o s =
      neighborUpdate x y o (signDecode x y (s.setCoef x y { sgn := false, mag := planeMask b ||| halfMask b })) := by
    rw [signify, hzero]
  generalize hnew : ({ sgn := false, mag := planeMask b ||| halfMask b } : Coef) = new at hsignify
  obtain ⟨hframe, hown⟩ := signDecode_spec (memoriesWf_coef (memoriesWf_setCoef hwf x y new)) x y
  rw [signContext_setCoef hcoef hb] at hframe hown
  rw [coefAt_setCoef_same hcoef, ← hnew, Bool.xor_false, hnew] at hown
  have hupdate : signify x y b o s =
      (neighborUpdate x y o s).withCoefs r.2 (signDecode x y (s.setCoef x y new)).coef := by
    rw [hsignify, ← neighborUpdate_withCoefs]
    exact congrArg (neighborUpdate x y o) hframe
  have hlat : (signify x y b o s).lat = (signDecode x y (s.setCoef x y new)).lat :=
    (signify_lat x y b o hb).trans (signDecode_lat x y (s.setCoef x y new)).symm
  have hstored : (signify x y b o s).coef = (signDecode x y (s.setCoef x y new)).coef := by
    rw [hupdate]
    rfl
  refine ⟨⟨_, hupdate⟩, ?_⟩
  rw [coefAt_congr hlat hstored, hown, ← hnew]
  rfl

/-- Settles O52: the magnitude, then the sign, then the neighbours, which read no coefficient. -/
theorem signifyResult : Obligations.SignifyResult := by
  unfold Obligations.SignifyResult
  intro s x y b o hwf hb hlt _ hzero t sc r
  obtain ⟨⟨c, hframe⟩, hown⟩ := signify_spec b o hwf hb hzero
  refine ⟨?_, ?_, fun j => ?_, (signify_signified b o hwf hb).coef⟩
  · change t = (neighborUpdate x y o s).withCoefs r.2 c at hframe
    rw [hframe, (neighborUpdate_mapWritten (memoriesWf_ctxmap hwf)).eq]
    rfl
  · rw [show t.coefAt x y = _ from hown]
    exact signFlips_iff
  · rw [show t.coefAt x y = _ from hown]
    exact newMag_getLsbD hlt j

end Sys2Proof.Machine
end

section
/-! PROOF. O53: `MRP`, cell by cell, with the decode that gives each refined bit (R171). -/

namespace Sys2Proof.Machine

/-! ### One cell of the pass (R171) -/

section Cell

variable {s : State} {b : Nat} {p : Nat × Nat}

/-- A positive significant cell: one decode with its context, the refined magnitude, the mark 17. -/
theorem mrpCell_refined (h : 15 ≤ s.ctxAt p.1 p.2) : mrpCell b s p =
    ((decodeBit (s.ctxAt p.1 p.2).natAbs s).2.setCoef p.1 p.2 { s.coefAt p.1 p.2 with
      mag := refinedMag (s.coefAt p.1 p.2).mag b (s.refineDecode s.mq p).1 }).setCtx p.1 p.2 17 := by
  rw [mrpCell, if_pos (significant_iff.mpr (by omega)), if_pos (by omega)]
  rfl

/-- A negative significant cell is flipped. -/
theorem mrpCell_negative (h : s.ctxAt p.1 p.2 ≤ -15) : mrpCell b s p = s.setCtx p.1 p.2 (-s.ctxAt p.1 p.2) := by
  rw [mrpCell, if_pos (significant_iff.mpr (by omega)), if_neg (by omega)]

/-- A cell is refined, flipped or left. -/
theorem refine_cases (c : Int) : 15 ≤ c ∨ c ≤ -15 ∨ c.natAbs < 15 := by omega

/-- MQD makes a decode at a refined cell and none at any other. -/
theorem mrpCell_mq : (mrpCell b s p).mq =
    if 15 ≤ s.ctxAt p.1 p.2 then (s.refineDecode s.mq p).2 else s.mq := by
  rcases refine_cases (s.ctxAt p.1 p.2) with hc | hc | hc
  · rw [mrpCell_refined hc, if_pos hc]
    rfl
  · rw [mrpCell_negative hc, if_neg (by omega)]
    rfl
  · rw [mrpCell_other hc, if_neg (by omega)]

/-- Visiting a cell leaves every other cell and coefficient alone. -/
theorem mrpCell_kept (hwf : MemoriesWf s) (hb : s.InBlock p.1 p.2) {u v : Nat} (hu : s.InBlock u v) (hne : (u, v) ≠ p) :
    (mrpCell b s p).ctxAt u v = s.ctxAt u v ∧ (mrpCell b s p).coefAt u v = s.coefAt u v := by
  have hother : ¬(u = p.1 ∧ v = p.2) := fun hp => hne (Prod.ext hp.1 hp.2)
  have hctx := fun c => ctxAt_setCtx_other (memoriesWf_ctxmap hwf) hb.1 hu.1 hother c
  rcases refine_cases (s.ctxAt p.1 p.2) with hc | hc | hc
  · rw [mrpCell_refined hc]
    exact ⟨hctx 17, coefAt_setCoef_other (s := (decodeBit _ s).2) (memoriesWf_coef hwf) hb.1 hu.1 hother _⟩
  · rw [mrpCell_negative hc]
    exact ⟨hctx _, rfl⟩
  · rw [mrpCell_other hc]
    exact ⟨rfl, rfl⟩

end Cell

/-! ### The cells visited in their order -/

/-- The positions of `ps` that `MRP` refines. -/
def State.refinedAmong (s : State) (ps : List (Nat × Nat)) : List (Nat × Nat) :=
  ps.filter fun p => decide (15 ≤ s.ctxAt p.1 p.2)

/-- One more position, refined or not. -/
theorem refineDecodes_append (s : State) (ps : List (Nat × Nat)) (p : Nat × Nat) :
    s.refineDecodes (s.refinedAmong (ps ++ [p])) =
      if 15 ≤ s.ctxAt p.1 p.2 then (s.refineDecode (s.refineDecodes (s.refinedAmong ps)) p).2
      else s.refineDecodes (s.refinedAmong ps) := by
  split_ifs with hc <;> simp [State.refinedAmong, State.refineDecodes, hc]

/-- What `t` shows of `s` once the positions `done` have been visited: MQD has made one decode for each refined one, and
the cells not visited are as they were. -/
structure Refined (done : List (Nat × Nat)) (s t : State) : Prop where
  wf : MemoriesWf t
  frame : PassFrame s t
  mq : t.mq = s.refineDecodes (s.refinedAmong done)
  kept : ∀ u v, s.InBlock u v → (u, v) ∉ done → t.ctxAt u v = s.ctxAt u v ∧ t.coefAt u v = s.coefAt u v

section Visit

variable {s t : State} {b : Nat} {done : List (Nat × Nat)} {p : Nat × Nat}

/-- The decode at a cell not visited before is that of `s`, after the decodes of the cells visited. -/
theorem Refined.refineDecode (h : Refined done s t) (hb : s.InBlock p.1 p.2) (hp : p ∉ done) :
    t.refineDecode t.mq p = s.refineDecode (s.refineDecodes (s.refinedAmong done)) p := by
  rw [State.refineDecode, State.refineDecode, h.frame.segmem, (h.kept _ _ hb hp).1, h.mq]

theorem Refined.visit (h : Refined done s t) (hb : s.InBlock p.1 p.2) (hp : p ∉ done) :
    Refined (done ++ [p]) s (mrpCell b t p) := by
  have hbt : t.InBlock p.1 p.2 := inBlock_of_lat h.frame.lat hb
  refine ⟨(passKeeps_memoriesWf b).mrpCell hbt h.wf, (passKeeps_frame b s).mrpCell hbt h.frame, ?_,
    fun u v hu hnot => ?_⟩
  · rw [mrpCell_mq, refineDecodes_append, h.refineDecode hb hp, (h.kept _ _ hb hp).1, h.mq]
  · rw [List.mem_append, List.mem_singleton, not_or] at hnot
    obtain ⟨hctx, hcoef⟩ := mrpCell_kept (b := b) h.wf hbt (inBlock_of_lat h.frame.lat hu) hnot.2
    obtain ⟨hctx', hcoef'⟩ := h.kept u v hu hnot.1
    exact ⟨hctx.trans hctx', hcoef.trans hcoef'⟩

/-- Visiting positions of the block, each once. -/
theorem foldl_mrpCell_refined (hwf : MemoriesWf s) {ps : List (Nat × Nat)} (hnodup : ps.Nodup)
    (hps : ∀ p ∈ ps, s.InBlock p.1 p.2) : Refined ps s (ps.foldl (mrpCell b) s) := by
  induction ps using List.reverseRecOn with
  | nil => exact ⟨hwf, PassFrame.refl s, rfl, fun _ _ _ _ => ⟨rfl, rfl⟩⟩
  | append_singleton ps p ih =>
    rw [List.foldl_append, List.foldl_cons, List.foldl_nil]
    obtain ⟨hnodup', _, hdisj⟩ := List.nodup_append.mp hnodup
    refine (ih hnodup' fun q hq => hps q (List.mem_append_left _ hq)).visit (hps p (by simp)) fun hp => ?_
    exact hdisj p hp p List.mem_cons_self rfl

/-- A cell keeps what it holds while later positions are visited. -/
theorem foldl_mrpCell_kept (hwf : MemoriesWf s) {ps : List (Nat × Nat)} (hps : ∀ p ∈ ps, s.InBlock p.1 p.2)
    (hnodup : ps.Nodup) {u v : Nat} (hu : s.InBlock u v) (hnot : (u, v) ∉ ps) :
    (ps.foldl (mrpCell b) s).ctxAt u v = s.ctxAt u v ∧ (ps.foldl (mrpCell b) s).coefAt u v = s.coefAt u v :=
  (foldl_mrpCell_refined hwf hnodup hps).kept u v hu hnot

end Visit

/-! ### The scan (R160) -/

theorem earlier_asymm {p q : Nat × Nat} (h : Earlier p q) : ¬ Earlier q p := by
  unfold Earlier at *
  omega

theorem earlier_irrefl (p : Nat × Nat) : ¬ Earlier p p := fun h => earlier_asymm h h

theorem scan_nodup (w h : Nat) : (scan w h).Nodup :=
  (scanOrder w h).1.imp fun hlt heq => by
    subst heq
    exact earlier_irrefl _ hlt

/-- The scan around one of its positions: the earlier ones, the position, the later ones. -/
theorem scan_split {w h : Nat} {p : Nat × Nat} (hp : p ∈ scan w h) :
    ∃ post, scan w h = (scan w h).filter (fun q => decide (Earlier q p)) ++ p :: post := by
  obtain ⟨pre, post, hscan⟩ := List.append_of_mem hp
  have hpw := (scanOrder w h).1
  rw [hscan] at hpw
  obtain ⟨_, htail, hcross⟩ := List.pairwise_append.mp hpw
  have hpre : pre.filter (fun q => decide (Earlier q p)) = pre :=
    List.filter_eq_self.mpr fun q hq => decide_eq_true (hcross q hq p List.mem_cons_self)
  have hpost : (p :: post).filter (fun q => decide (Earlier q p)) = [] := by
    refine List.filter_eq_nil_iff.mpr fun q hq => ?_
    rw [decide_eq_true_eq]
    rcases List.mem_cons.mp hq with rfl | hq
    · exact earlier_irrefl q
    · exact earlier_asymm ((List.pairwise_cons.mp htail).1 q hq)
  exact ⟨post, by rw [hscan, List.filter_append, hpre, hpost, List.append_nil]⟩

/-! ### The refined magnitude (R171) -/

theorem refinedMag_getLsbD {b : Nat} (hb : b < 128) (mag : BitVec 128) (bit : Bool) (j : Nat) :
    (refinedMag mag b bit).getLsbD j = if j = b then bit else if j + 1 = b then true else mag.getLsbD j := by
  have hbit : (if bit then planeMask b else 0).getLsbD j = (bit && decide (j = b)) := by
    cases bit
    · exact BitVec.getLsbD_zero
    · exact (planeMask_getLsbD b j).trans (decide_eq_decide.mpr (by omega))
  rw [refinedMag, BitVec.getLsbD_or, BitVec.getLsbD_or, BitVec.getLsbD_and, BitVec.getLsbD_not, planeMask_getLsbD,
    halfMask_getLsbD hb, hbit]
  split_ifs with hj hj'
  · simp [hj, hb]
  · simp [hj', hj]
  · by_cases hlt : j < 128
    · simp [hj, hj', hlt]
    · simp [hj, hj', BitVec.getLsbD_of_ge mag j (by omega)]

theorem PassFrame.eq {s t : State} (h : PassFrame s t) :
    t = { s with mq := t.mq, ctxmap := t.ctxmap, coef := t.coef } := by
  obtain ⟨hcfg, hraw, hdesc, hlat, hbp, hpk, hstat, hsegtab, hsegmem, hflt, hrsp, hpending, _⟩ := h
  rw [← hcfg, ← hraw, ← hdesc, ← hlat, ← hbp, ← hpk, ← hstat, ← hsegtab, ← hsegmem, ← hflt, ← hrsp, ← hpending]

/-- What `MRP` leaves of the cell and the coefficient at `p`: what its visit leaves, in the state after the visits of the
earlier positions, where the cell is still as it was. -/
theorem mrp_visit {s : State} (b : Nat) {p : Nat × Nat} (hwf : MemoriesWf s) (hb : s.InBlock p.1 p.2) : ∃ t,
    Refined ((scan s.width s.height).filter fun q => decide (Earlier q p)) s t ∧
    t.ctxAt p.1 p.2 = s.ctxAt p.1 p.2 ∧ t.coefAt p.1 p.2 = s.coefAt p.1 p.2 ∧
    t.refineDecode t.mq p = s.refineDecode (s.refineDecodes (s.refined.filter fun q => decide (Earlier q p))) p ∧
    (mrp b s).ctxAt p.1 p.2 = (mrpCell b t p).ctxAt p.1 p.2 ∧
    (mrp b s).coefAt p.1 p.2 = (mrpCell b t p).coefAt p.1 p.2 := by
  obtain ⟨post, hsplit⟩ := scan_split (mem_scan_iff.mpr hb)
  have hnodup := scan_nodup s.width s.height
  have hall : ∀ q ∈ scan s.width s.height, s.InBlock q.1 q.2 := fun q hq => mem_scan hq
  have hfilter : s.refinedAmong ((scan s.width s.height).filter fun q => decide (Earlier q p)) =
      s.refined.filter fun q => decide (Earlier q p) := List.filter_comm _ _ _
  have hmrp : mrp b s = (scan s.width s.height).foldl (mrpCell b) s := rfl
  generalize (scan s.width s.height).filter (fun q => decide (Earlier q p)) = pre at hsplit hfilter ⊢
  rw [hsplit] at hnodup hall hmrp
  rw [List.foldl_append, List.foldl_cons] at hmrp
  obtain ⟨hpre, htail, hdisj⟩ := List.nodup_append.mp hnodup
  obtain ⟨hnot, hpost⟩ := List.nodup_cons.mp htail
  have hp : p ∉ pre := fun hmem => hdisj p hmem p List.mem_cons_self rfl
  have hbefore := foldl_mrpCell_refined (b := b) hwf hpre fun q hq => hall q (List.mem_append_left _ hq)
  obtain ⟨hctx, hcoef⟩ := hbefore.kept _ _ hb hp
  have hvisit := hbefore.visit (b := b) hb hp
  have hafter := foldl_mrpCell_kept (b := b) hvisit.wf
    (fun q hq => inBlock_of_lat hvisit.frame.lat (hall q (List.mem_append_right _ (List.mem_cons_of_mem _ hq)))) hpost
    (inBlock_of_lat hvisit.frame.lat hb) hnot
  rw [← hmrp] at hafter
  exact ⟨_, hbefore, hctx, hcoef, (hbefore.refineDecode hb hp).trans (by rw [hfilter]), hafter⟩

/-- Settles O53: the visit of each cell, after the visits of the earlier ones. -/
theorem mrpResult : Obligations.MrpResult := by
  unfold Obligations.MrpResult
  intro s b hwf hlegal hlt
  have hall := foldl_mrpCell_refined (b := b) hwf (scan_nodup s.width s.height) fun p hp => mem_scan hp
  refine ⟨hall.mq, hall.frame.eq, fun x y hb => ?_⟩
  obtain ⟨t, ht, hctx, hcoef, hdec, hctx', hcoef'⟩ := mrp_visit b hwf (p := (x, y)) hb
  have hmap : Memory.wf blankCell t.ctxmap = true := memoriesWf_ctxmap ht.wf
  dsimp only at hctx hcoef hctx' hcoef'
  rw [hctx', hcoef']
  refine ⟨fun hc => ?_, fun hc => ?_, fun hc => ?_⟩
  · rw [mrpCell_other (p := (x, y)) (by dsimp only; omega)]
    exact ⟨hctx, hcoef⟩
  · have hrange := legalCell_range (hlegal x hb.1 y hb.2)
    rw [mrpCell_negative (p := (x, y)) (by dsimp only; omega), setCtx_coefAt,
      ctxAt_setCtx_same hmap x y (by dsimp only; omega), hctx]
    exact ⟨rfl, hcoef⟩
  · rw [mrpCell_refined (p := (x, y)) (by dsimp only; omega), setCtx_coefAt, hdec, hcoef,
      coefAt_setCoef_same (s := (decodeBit _ t).2) (memoriesWf_coef ht.wf),
      ctxAt_setCtx_same (s := (decodeBit _ t).2.setCoef x y _) hmap x y (by decide)]
    exact ⟨rfl, rfl, refinedMag_getLsbD hlt _ _⟩

end Sys2Proof.Machine
end

section
/-! PROOF. O56: a cleanup pass leaves no cell in -8..-1: a cell it has visited is made negative by no later one (R172,
R181, R186). -/

namespace Sys2Proof.Machine

/-! ### The cells after a coefficient found by a cleanup pass (R176, R178, R181) -/

/-- The cells that a cleanup pass leaves: a negative one is significant. -/
abbrev CleanCell (c : Int) : Prop := ¬(-8 ≤ c ∧ c ≤ -1)

/-- A cell after `Signify` with origin `CLEANUP`: the own one is positive, a neighbour is updated, any other stays. -/
theorem signify_cleanup_ctxAt {s : State} {x y u v : Nat} (b : Nat) (hwf : MemoriesWf s) (hb : s.InBlock x y)
    (hu : s.InBlock u v) : 15 ≤ (signify x y b .cleanup s).ctxAt u v ∨
      (signify x y b .cleanup s).ctxAt u v = s.ctxAt u v ∨
      ∃ d, s.neighbour d x y = some (u, v) ∧
        (signify x y b .cleanup s).ctxAt u v = updatedCell (groupOf s.lat.sb) (s.ctxAt u v) d y .cleanup := by
  obtain ⟨r, hlat, hmap, heq⟩ := signify_eq_neighborUpdate x y b .cleanup s
  have hwfr : Memory.wf blankCell r.ctxmap = true := hmap ▸ memoriesWf_ctxmap hwf
  have hbr : r.InBlock x y := inBlock_of_lat hlat hb
  rw [heq, ← ctxAt_congr hlat hmap, ← neighbour_congr hlat, ← hlat]
  by_cases hxy : u = x ∧ v = y
  · obtain ⟨rfl, rfl⟩ := hxy
    left
    rw [neighborUpdate_ctxAt_own hwfr hbr]
    cases r.anySignificant u v <;> decide
  · right
    by_cases hn : ∃ d, r.neighbour d x y = some (u, v)
    · obtain ⟨d, hn⟩ := hn
      exact .inr ⟨d, hn, neighborUpdate_ctxAt_neighbour hwfr hbr hn⟩
    · exact .inl (neighborUpdate_ctxAt_other hwfr hbr (inBlock_of_lat hlat hu) hxy fun d hd => hn ⟨d, hd⟩)

/-- An update makes no cell a negative significant one that was not (R177, R178). -/
theorem updatedCell_above {g : Group} {c : Int} {d : Dir} {y : Nat} {o : Origin} (h : -15 < c) :
    -15 < updatedCell g c d y o := by
  rcases updatedCell_cases g c d y o with ⟨h15, _⟩ | ⟨_, h8⟩ | heq
  · rw [updatedCell_promoted h15, if_pos (by omega)]
    decide
  · omega
  · rwa [heq]

/-- The update after a cleanup makes no earlier neighbour negative (R181). -/
theorem updatedCell_clean {g : Group} {c : Int} {d : Dir} {y : Nat} (hd : later d y = false) (h : CleanCell c) :
    CleanCell (updatedCell g c d y .cleanup) := by
  rcases updatedCell_cases g c d y .cleanup with ⟨_, h16⟩ | ⟨h8, _⟩ | heq
  · unfold CleanCell
    omega
  · rw [updatedCell_label h8, if_neg (by simp [hd])]
    unfold CleanCell
    omega
  · rwa [heq]

section Signify

variable {s : State} {x y u v : Nat} {b : Nat}

theorem signify_cleanup_above (hwf : MemoriesWf s) (hb : s.InBlock x y) (hu : s.InBlock u v) (h : -15 < s.ctxAt u v) :
    -15 < (signify x y b .cleanup s).ctxAt u v := by
  rcases signify_cleanup_ctxAt b hwf hb hu with hown | heq | ⟨d, _, heq⟩
  · omega
  · rwa [heq]
  · rw [heq]
    exact updatedCell_above h

theorem signify_cleanup_clean (hwf : MemoriesWf s) (hb : s.InBlock x y) (hu : s.InBlock u v)
    (hearlier : Earlier (u, v) (x, y)) (h : CleanCell (s.ctxAt u v)) :
    CleanCell ((signify x y b .cleanup s).ctxAt u v) := by
  rcases signify_cleanup_ctxAt b hwf hb hu with hown | heq | ⟨d, hn, heq⟩
  · unfold CleanCell
    omega
  · rwa [heq]
  · rw [heq]
    obtain ⟨hx, hy, _⟩ := neighbour_eq_some.mp hn
    refine updatedCell_clean (Bool.eq_false_iff.mpr fun hlater => ?_) h
    exact earlier_asymm hearlier ((later_iff_earlier hx hy).mp hlater)

end Signify

/-! ### The cells visited by a cleanup pass -/

/-- What `t` shows of `s` once a cleanup pass has dealt with the positions `done`: no cell of theirs is in -8..-1, and no
cell is a negative significant one if none was. -/
structure Cleaned (done : List (Nat × Nat)) (s t : State) : Prop where
  legal : LegalWf t
  lat : t.lat = s.lat
  inBlock : ∀ p ∈ done, s.InBlock p.1 p.2
  clean : ∀ p ∈ done, CleanCell (t.ctxAt p.1 p.2)
  above : (∀ x y, s.InBlock x y → -15 < s.ctxAt x y) → ∀ x y, s.InBlock x y → -15 < t.ctxAt x y

section Visit

variable {done ps : List (Nat × Nat)} {s t : State} {b : Nat} {p : Nat × Nat}

/-- A decode leaves the cells alone. -/
theorem Cleaned.decodeBit (h : Cleaned done s t) (n : Nat) : Cleaned done s (decodeBit n t).2 :=
  ⟨h.legal, h.lat, h.inBlock, h.clean, h.above⟩

/-- Positions whose cells are not in -8..-1 need no visit. -/
theorem Cleaned.append (h : Cleaned done s t) (hps : ∀ q ∈ ps, s.InBlock q.1 q.2)
    (hclean : ∀ q ∈ ps, CleanCell (t.ctxAt q.1 q.2)) : Cleaned (done ++ ps) s t where
  legal := h.legal
  lat := h.lat
  inBlock q hq := (List.mem_append.mp hq).elim (h.inBlock q) (hps q)
  clean q hq := (List.mem_append.mp hq).elim (h.clean q) (hclean q)
  above := h.above

/-- The cell of a visit is made positive (R172). -/
theorem Cleaned.negate (h : Cleaned done s t) (hb : s.InBlock p.1 p.2) (hlo : -8 ≤ t.ctxAt p.1 p.2)
    (hhi : t.ctxAt p.1 p.2 ≤ 0) : Cleaned (done ++ [p]) s (t.setCtx p.1 p.2 (-t.ctxAt p.1 p.2)) := by
  have hbt : t.InBlock p.1 p.2 := inBlock_of_lat h.lat hb
  have hcell : ∀ u v, s.InBlock u v → (t.setCtx p.1 p.2 (-t.ctxAt p.1 p.2)).ctxAt u v =
      if u = p.1 ∧ v = p.2 then -t.ctxAt p.1 p.2 else t.ctxAt u v := fun u v hu =>
    ctxAt_setCtx (memoriesWf_ctxmap h.legal.1) hbt (by omega) (inBlock_of_lat h.lat hu)
  have hall : ∀ q ∈ done ++ [p], s.InBlock q.1 q.2 := fun q hq =>
    (List.mem_append.mp hq).elim (h.inBlock q) fun hq => List.mem_singleton.mp hq ▸ hb
  refine ⟨negate_legalWf hbt hhi h.legal, h.lat, hall, fun q hq => ?_, fun hpos u v hu => ?_⟩
  · rw [hcell _ _ (hall q hq)]
    split_ifs with hqp
    · unfold CleanCell
      omega
    · refine h.clean q ((List.mem_append.mp hq).elim id fun hq => absurd ?_ hqp)
      rw [List.mem_singleton.mp hq]
      exact ⟨rfl, rfl⟩
  · rw [hcell u v hu]
    have habove := h.above hpos u v hu
    split_ifs <;> omega

/-- A coefficient found after the positions `done` leaves them clean. -/
theorem Cleaned.signify (h : Cleaned done s t) (hb : s.InBlock p.1 p.2) (hdone : ∀ q ∈ done, Earlier q p) :
    Cleaned (done ++ [p]) s (signify p.1 p.2 b .cleanup t) := by
  have hbt : t.InBlock p.1 p.2 := inBlock_of_lat h.lat hb
  have hkept : Cleaned done s (Machine.signify p.1 p.2 b .cleanup t) :=
    { legal := signify_legalWf hbt h.legal
      lat := (signify_lat _ _ b .cleanup hbt).trans h.lat
      inBlock := h.inBlock
      clean := fun q hq => signify_cleanup_clean h.legal.1 hbt (inBlock_of_lat h.lat (h.inBlock q hq)) (hdone q hq)
        (h.clean q hq)
      above := fun hpos u v hu =>
        signify_cleanup_above h.legal.1 hbt (inBlock_of_lat h.lat hu) (h.above hpos u v hu) }
  refine hkept.append (by simpa using hb) fun q hq => ?_
  obtain rfl := List.mem_singleton.mp hq
  have hown := significant_iff.mp (signify_signified b .cleanup h.legal.1 hbt).own
  unfold CleanCell
  omega

theorem Cleaned.of_append (h : Cleaned (done ++ ps) s t) : Cleaned done s t where
  legal := h.legal
  lat := h.lat
  inBlock q hq := h.inBlock q (List.mem_append_left _ hq)
  clean q hq := h.clean q (List.mem_append_left _ hq)
  above := h.above

theorem Cleaned.cupCell (h : Cleaned done s t) (hb : s.InBlock p.1 p.2) (hdone : ∀ q ∈ done, Earlier q p) :
    Cleaned (done ++ [p]) s (cupCell b t p) := by
  unfold Machine.cupCell
  dsimp only
  split_ifs with hc
  · exact ((h.negate hb hc.1 hc.2).of_append.decodeBit _).signify hb hdone
  · exact (h.negate hb hc.1 hc.2).decodeBit _
  · refine h.append (by simpa using hb) fun q hq => ?_
    obtain rfl := List.mem_singleton.mp hq
    unfold CleanCell
    omega

/-- Cells visited one by one in scan order. -/
theorem Cleaned.cells (hps : ∀ q ∈ ps, s.InBlock q.1 q.2) : ∀ {done : List (Nat × Nat)} {t : State},
    (done ++ ps).Pairwise Earlier → Cleaned done s t → Cleaned (done ++ ps) s (ps.foldl (Machine.cupCell b) t) := by
  induction ps with
  | nil =>
    intro done t _ h
    rwa [List.append_nil]
  | cons p ps ih =>
    intro done t hpw h
    have hdone : ∀ q ∈ done, Earlier q p := fun q hq =>
      (List.pairwise_append.mp hpw).2.2 q hq p List.mem_cons_self
    rw [List.append_cons] at hpw ⊢
    exact ih (fun q hq => hps q (List.mem_cons_of_mem _ hq)) hpw (h.cupCell (hps p List.mem_cons_self) hdone)

end Visit

/-! ### The columns of a cleanup pass (R172) -/

section Column

variable {done : List (Nat × Nat)} {s t : State} {b : Nat} {col : Column}

/-- A column around one of its rows. -/
theorem cells_split {k : Nat} (hk : k < col.rows) :
    col.cells = col.cells.take k ++ (col.x, col.top + k) :: col.cells.drop (k + 1) := by
  have hlen : k < col.cells.length := by simpa [Column.cells] using hk
  conv_lhs => rw [← List.take_append_drop k col.cells, List.drop_eq_getElem_cons hlen]
  simp [Column.cells]

/-- The end of a run: the rows above the row found are 0, that row becomes positive, the rows below are visited. -/
theorem Cleaned.runTail {k : Nat} (hb : ∀ q ∈ col.cells, s.InBlock q.1 q.2)
    (hpw : (done ++ col.cells).Pairwise Earlier) (hk : k < col.rows) (hzero : ∀ q ∈ col.cells, t.ctxAt q.1 q.2 = 0)
    (h : Cleaned done s t) : Cleaned (done ++ col.cells) s
      ((col.cells.drop (k + 1)).foldl (Machine.cupCell b) (Machine.signify col.x (col.top + k) b .cleanup t)) := by
  have hsplit := cells_split hk
  generalize col.cells.take k = above at hsplit
  generalize col.cells.drop (k + 1) = below at hsplit ⊢
  rw [hsplit] at hb hpw hzero ⊢
  have habove : Cleaned (done ++ above) s t :=
    h.append (fun q hq => hb q (List.mem_append_left _ hq)) fun q hq => by
      rw [hzero q (List.mem_append_left _ hq)]
      decide
  have hrow : s.InBlock col.x (col.top + k) := hb (col.x, col.top + k) (by simp)
  rw [← List.append_assoc] at hpw ⊢
  have hdone : ∀ q ∈ done ++ above, Earlier q (col.x, col.top + k) := fun q hq =>
    (List.pairwise_append.mp hpw).2.2 q hq _ List.mem_cons_self
  rw [List.append_cons] at hpw ⊢
  exact Cleaned.cells (fun q hq => hb q (by simp [hq])) hpw (habove.signify (p := (col.x, col.top + k)) hrow hdone)

theorem Cleaned.cupRun (hb : ∀ q ∈ col.cells, s.InBlock q.1 q.2) (hpw : (done ++ col.cells).Pairwise Earlier)
    (h4 : col.rows = 4) (hzero : ∀ q ∈ col.cells, t.ctxAt q.1 q.2 = 0) (h : Cleaned done s t) :
    Cleaned (done ++ col.cells) s (cupRun b t col) := by
  have hrow : ∀ hi lo : Bool, 2 * hi.toNat + lo.toNat < col.rows := by
    rw [h4]
    decide
  have hzero0 : ∀ q ∈ col.cells, (Machine.decodeBit 18 (Machine.decodeBit 18 t).2).2.ctxAt q.1 q.2 = 0 := by
    simpa only [decodeBit_ctxAt] using hzero
  have h0 := (h.decodeBit 18).decodeBit 18
  unfold Machine.cupRun
  dsimp only
  generalize (Machine.decodeBit 18 t).1 = hi
  generalize Machine.decodeBit 18 (Machine.decodeBit 18 t).2 = r at hzero0 h0 ⊢
  exact h0.runTail hb hpw (hrow hi r.1) hzero0

theorem Cleaned.cupColumn (hb : ∀ q ∈ col.cells, s.InBlock q.1 q.2) (hpw : (done ++ col.cells).Pairwise Earlier)
    (h : Cleaned done s t) : Cleaned (done ++ col.cells) s (cupColumn b t col) := by
  by_cases hrun : t.runLength col = true
  · obtain ⟨h4, hzero⟩ := runLength_iff.mp hrun
    rw [cupColumn_run hrun]
    split_ifs
    · exact (h.decodeBit 9).cupRun hb hpw h4 hzero
    · refine (h.decodeBit 9).append hb fun q hq => ?_
      rw [decodeBit_ctxAt, hzero q hq]
      decide
  · rw [cupColumn_cells hrun]
    exact Cleaned.cells hb hpw h

/-- The columns of the scan in their order. -/
theorem Cleaned.columns {cols : List Column} (hb : ∀ col ∈ cols, ∀ q ∈ col.cells, s.InBlock q.1 q.2) :
    ∀ {done : List (Nat × Nat)} {t : State}, (done ++ cols.flatMap Column.cells).Pairwise Earlier → Cleaned done s t →
      Cleaned (done ++ cols.flatMap Column.cells) s (cols.foldl (Machine.cupColumn b) t) := by
  induction cols with
  | nil =>
    intro done t _ h
    simpa using h
  | cons col cols ih =>
    intro done t hpw h
    rw [List.flatMap_cons, ← List.append_assoc] at hpw ⊢
    exact ih (fun c hc => hb c (List.mem_cons_of_mem _ hc)) hpw
      (h.cupColumn (hb col List.mem_cons_self) (List.pairwise_append.mp hpw).1)

end Column

/-- After a cleanup pass every position of the block has been dealt with. -/
theorem cup_cleaned {s : State} (b : Nat) (hwf : MemoriesWf s) (hlegal : LegalBlock s) :
    Cleaned (scan s.width s.height) s (cup b s) := by
  have hstart : Cleaned [] s s := ⟨⟨hwf, hlegal⟩, rfl, by simp, by simp, id⟩
  have hb : ∀ col ∈ scanColumns s.width s.height, ∀ q ∈ col.cells, s.InBlock q.1 q.2 := fun col hcol q hq =>
    mem_scan (List.mem_flatMap.mpr ⟨col, hcol, hq⟩)
  have h := Cleaned.columns (b := b) hb (done := []) (scanOrder s.width s.height).1 hstart
  rwa [List.nil_append] at h

/-- Settles O56: every cell of the block is one that the scan has visited. -/
theorem cleanupLeavesNoNegative : Obligations.CleanupLeavesNoNegative := by
  unfold Obligations.CleanupLeavesNoNegative
  intro s b hwf hlegal
  have h := cup_cleaned b hwf hlegal
  have hneg : ∀ x y, s.InBlock x y → (cup b s).ctxAt x y < 0 → (cup b s).ctxAt x y ≤ -15 := fun x y hb hlt => by
    have hclean : CleanCell ((cup b s).ctxAt x y) := h.clean (x, y) (mem_scan_iff.mpr hb)
    obtain ⟨hx, hy⟩ := inBlock_of_lat h.lat hb
    have hcell := h.legal.2 x hx y hy
    unfold CleanCell at hclean
    unfold LegalCell at hcell
    omega
  refine ⟨hneg, fun hpos x y hb => ?_⟩
  have habove := h.above hpos x y hb
  have hle := hneg x y hb
  omega

end Sys2Proof.Machine
end

section
/-! PROOF. O3 and O13: what the core changes where it refuses a command, an illegal word or a legal one (R210, R212,
R221). -/

namespace Sys2Proof.Machine

/-! ### An illegal opcode (R86, R212) -/

/-- The opcodes of the table of R85. -/
abbrev legalOpcodes : List (BitVec 8) :=
  [0x01, 0x02, 0x03, 0x04, 0x05, 0x11, 0x12, 0x13, 0x14, 0x15, 0x20, 0x21, 0x22]

theorem opcode_mem_legalOpcodes (i : Instr) : i.opcode ∈ legalOpcodes := by
  cases i <;> simp [Instr.opcode]

/-- A word with an opcode outside the table selects no command (R86). -/
theorem decode_illegal {w : CmdWord} (h : w.extractLsb' 8 8 ∉ legalOpcodes) : ∃ err, decode w = .error err := by
  cases hdec : decode w with
  | error err => exact ⟨err, rfl⟩
  | ok i => exact absurd (opcode_of_decode hdec ▸ opcode_mem_legalOpcodes i) h

/-- The step of an illegal command word that the host presents next (R86, R212). -/
theorem step_illegal {s : State} {w : CmdWord} {rest : List HostAction} {err : DecodeError}
    (hpend : s.pending = .command w :: rest) (hdec : decode w = .error err) :
    step s = .next (refuse .opc { s with pending := rest }) := by
  rw [step, nextAction_cons s hpend]
  dsimp only
  rw [hdec]

/-- Settles O3: the word is the opcode of no command, so it does not decode, and the step takes `ERR_OPC`. -/
theorem illegalOpcodeRefused : Obligations.IllegalOpcodeRefused := by
  unfold Obligations.IllegalOpcodeRefused
  intro s w rest hpend hopc
  obtain ⟨err, hdec⟩ := decode_illegal hopc
  exact step_illegal hpend hdec

/-! ### Every refusal (R210, R221) -/

/-- The whole state after a refusal of a legal command: `CB_STAT` changes for `ERR_DESC` only (R216, R221). -/
theorem refuse_refusalEffect (e : ErrCode) (s : State) : refuse e (refusalEffect e s) =
    { s with flt := s.flt ||| e.mask, rsp := packRsp e.code 0, stat := if e = .desc then .fault else s.stat } := by
  unfold refusalEffect
  split_ifs <;> rfl

/-- A command whose response has a code was refused, for one cause (R87, R210). -/
theorem refused_of_rspCode {i : Instr} {s t : State} (h : exec i s = .next t) (hcode : rspCode t.rsp ≠ 0) :
    ∃ e, t = refuse e (refusalEffect e s) := by
  rcases exec_next h with ⟨data, _, rfl⟩ | ⟨e, _, ht⟩
  · exact absurd (rspCode_packRsp 0 data) hcode
  · exact ⟨e, ht⟩

/-- Settles O13: an illegal word takes `ERR_OPC`; a legal one with a code in its response takes the fault of its
verdict. -/
theorem refusalChangesNothing : Obligations.RefusalChangesNothing := by
  unfold Obligations.RefusalChangesNothing
  intro s t w rest hpend hstep hcode
  cases hdec : decode w with
  | error err =>
    rw [step_illegal hpend hdec] at hstep
    exact ⟨.opc, (Host.Outcome.next.inj hstep).symm⟩
  | ok i =>
    rw [step_command hpend hdec] at hstep
    obtain ⟨e, rfl⟩ := refused_of_rspCode hstep hcode
    exact ⟨e, refuse_refusalEffect e _⟩

end Sys2Proof.Machine
end
